-- ==== Sys2Proof/Word.lean ====
section
/-! DEFINITION. The words of the block: symbols and dimensions of 32 bits, counts of 64, bytes, bits and the
72-bit command word (00_scope.md R8, R10; 30_encoding.md R80). -/

namespace Sys2Proof

/-- A byte (`BYTE_W = 8`, R8). -/
abbrev Byte := BitVec 8

/-- A `u32`: a symbol, a native pixel or a dimension (`SYM_W = DIM_W = 32`, R8). -/
abbrev U32 := BitVec 32

/-- A `u64`: a count, a frequency or a pixel index (`FREQ_W = 64`, R8). -/
abbrev U64 := BitVec 64

/-- A command word (`CMD_W = 72`, R9, R80). -/
abbrev CmdWord := BitVec 72

/-- A stored symbol, channels R, G, B, A from the top byte down (R70). -/
abbrev Symbol := U32

/-- A bit of a code or of the stream: `false` is 0 (left), `true` is 1 (right) (R10, R76). -/
abbrev Bit := Bool

/-- A bitstring, leftmost bit first (R10). -/
abbrev Bits := List Bit

end Sys2Proof
end

