-- ==== Sys2Proof/Syntax.lean ====
section
/-! DEFINITION. The operations of the block: one constructor per row of the operation map (30_encoding.md R84). -/

namespace Sys2Proof

/-- A primitive operation with its operands, each at the width R82 gives it. -/
inductive Instr
  /-- RESET (46_system.md R160). -/
  | reset
  /-- STATUS (46_system.md R161). -/
  | status
  /-- SCAN px, a native pixel (40_distribution.md R100). -/
  | scan (px : U32)
  /-- PRIO (40_distribution.md R101). -/
  | prio
  /-- MERGE (41_tree_builder.md R110). -/
  | merge
  /-- MKROOT (41_tree_builder.md R111). -/
  | mkroot
  /-- GENCODE (42_code_table.md R120). -/
  | gencode
  /-- LOOKUP sym, a stored symbol (42_code_table.md R121). -/
  | lookup (sym : Symbol)
  /-- CURRST (43_automaton.md R131). -/
  | currst
  /-- STEP bit (43_automaton.md R132). -/
  | step (bit : Bit)
  /-- DECBEGIN (44_decoder.md R140). -/
  | decbegin
  /-- DECBYTE b (44_decoder.md R141). -/
  | decbyte (b : Byte)
  /-- DECEND (44_decoder.md R142). -/
  | decend
  /-- ENCHDR w, h (45_encoder.md R150). -/
  | enchdr (w h : U32)
  /-- ENCPIX px, a native pixel (45_encoder.md R151). -/
  | encpix (px : U32)
  /-- ENCEND (45_encoder.md R152). -/
  | encend
  deriving DecidableEq, Repr

/-- The macro-operations (30_encoding.md R87). They have no code of their own. -/
inductive Macro
  /-- SCANALL p0, ..., p(m-1) (40_distribution.md R102). -/
  | scanall (pixels : List U32)
  /-- BUILD (41_tree_builder.md R112). -/
  | build
  /-- DECODE b0, ..., b(m-1) (44_decoder.md R143). -/
  | decode (bytes : List Byte)
  /-- ENCODE w, h, p0, ..., p(w*h-1) (45_encoder.md R153). -/
  | encode (w h : U32) (pixels : List U32)
  deriving DecidableEq, Repr

end Sys2Proof
end

