-- ==== Sys2Proof/Decode.lean ====
section
/-! DEFINITION. The command word (30_encoding.md R80 to R85): the decoder, the encoder after it, and the operation map
as the table lists it. -/

namespace Sys2Proof

/-- `op = cmd[71:64]` (R80). -/
def opField (w : CmdWord) : BitVec 8 := w.extractLsb' 64 8

/-- `arg[31:0]`: `px`, `sym` or `h` (R82). -/
def argLow (w : CmdWord) : U32 := w.extractLsb' 0 32

/-- `arg[63:32]`: the width of format D (R82). -/
def argHigh (w : CmdWord) : U32 := w.extractLsb' 32 32

/-- `arg[7:0]`, format B (R82). -/
def argByte (w : CmdWord) : Byte := w.extractLsb' 0 8

/-- `arg[0]`, format T (R82). -/
def argBit (w : CmdWord) : Bit := w.getLsbD 0

/-- The operation of a command word; none for the illegal codes `0x10 .. 0xFF` (R85). Decoding looks at `op` only:
bits of `arg` that the format does not use are ignored (R81). -/
def decode (w : CmdWord) : Option Instr :=
  match (opField w).toNat with
  | 0x00 => some .reset
  | 0x01 => some .status
  | 0x02 => some (.scan (argLow w))
  | 0x03 => some .prio
  | 0x04 => some .merge
  | 0x05 => some .mkroot
  | 0x06 => some .gencode
  | 0x07 => some (.lookup (argLow w))
  | 0x08 => some .currst
  | 0x09 => some (.step (argBit w))
  | 0x0A => some .decbegin
  | 0x0B => some (.decbyte (argByte w))
  | 0x0C => some .decend
  | 0x0D => some (.enchdr (argHigh w) (argLow w))
  | 0x0E => some (.encpix (argLow w))
  | 0x0F => some .encend
  | _ => none

/-- The command word of the operation-table number `w` of `nbits` bits, bit 0 the least significant: the bits above
`nbits` are 0. A number of more than 72 bits is no command word (log 11). -/
def tableWord (nbits w : Nat) : Option CmdWord :=
  if nbits ≤ 72 then some (BitVec.ofNat 72 (w % 2 ^ nbits)) else none

/-- The operation the decoder reads from an operation-table number. -/
def decodeTableWord (nbits w : Nat) : Option Instr := (tableWord nbits w).bind decode

/-- The operation code of R84. -/
def Instr.opcode : Instr → BitVec 8
  | .reset => 0x00
  | .status => 0x01
  | .scan _ => 0x02
  | .prio => 0x03
  | .merge => 0x04
  | .mkroot => 0x05
  | .gencode => 0x06
  | .lookup _ => 0x07
  | .currst => 0x08
  | .step _ => 0x09
  | .decbegin => 0x0A
  | .decbyte _ => 0x0B
  | .decend => 0x0C
  | .enchdr _ _ => 0x0D
  | .encpix _ => 0x0E
  | .encend => 0x0F

/-- The bits of `arg` that the operation's format uses (R82), as a mask. -/
def Instr.argMask : Instr → U64
  | .scan _ | .lookup _ | .encpix _ => 0x00000000FFFFFFFF
  | .enchdr _ _ => 0xFFFFFFFFFFFFFFFF
  | .decbyte _ => 0x00000000000000FF
  | .step _ => 0x0000000000000001
  | .reset | .status | .prio | .merge | .mkroot | .gencode | .currst | .decbegin | .decend | .encend => 0

/-- The operand field of R82, the unused bits zero. -/
def Instr.arg : Instr → U64
  | .scan px => px.setWidth 64
  | .lookup sym => sym.setWidth 64
  | .encpix px => px.setWidth 64
  | .enchdr w h => w ++ h
  | .decbyte b => b.setWidth 64
  | .step bit => (BitVec.ofBool bit).setWidth 64
  | .reset | .status | .prio | .merge | .mkroot | .gencode | .currst | .decbegin | .decend | .encend => 0

/-- The command word of an operation, the ignored bits of `arg` zero (R80, R82, R84). -/
def encode (i : Instr) : CmdWord := i.opcode ++ i.arg

/-- The mask of the bits that fix an operation and its operands. -/
def careMask (i : Instr) : CmdWord := (0xFF : BitVec 8) ++ i.argMask

/-- One row of the operation map: a word belongs to it when its bits under `mask` are `pattern` (R84). -/
structure OpRow where
  mnemonic : String
  pattern : CmdWord
  mask : CmdWord
  deriving DecidableEq, Repr

/-- The mask of every row: `0xFF` shifted left by 64 (R84). -/
def rowMask : CmdWord := 0xFF0000000000000000

/-- The operation map of R84, in the table's order. -/
def opTable : List OpRow :=
  [ ⟨"RESET", 0x000000000000000000, rowMask⟩, ⟨"STATUS", 0x010000000000000000, rowMask⟩,
    ⟨"SCAN", 0x020000000000000000, rowMask⟩, ⟨"PRIO", 0x030000000000000000, rowMask⟩,
    ⟨"MERGE", 0x040000000000000000, rowMask⟩, ⟨"MKROOT", 0x050000000000000000, rowMask⟩,
    ⟨"GENCODE", 0x060000000000000000, rowMask⟩, ⟨"LOOKUP", 0x070000000000000000, rowMask⟩ ] ++
  [ ⟨"CURRST", 0x080000000000000000, rowMask⟩, ⟨"STEP", 0x090000000000000000, rowMask⟩,
    ⟨"DECBEGIN", 0x0A0000000000000000, rowMask⟩, ⟨"DECBYTE", 0x0B0000000000000000, rowMask⟩,
    ⟨"DECEND", 0x0C0000000000000000, rowMask⟩, ⟨"ENCHDR", 0x0D0000000000000000, rowMask⟩,
    ⟨"ENCPIX", 0x0E0000000000000000, rowMask⟩, ⟨"ENCEND", 0x0F0000000000000000, rowMask⟩ ]

/-- The mnemonic of R84. -/
def Instr.mnemonic : Instr → String
  | .reset => "RESET"
  | .status => "STATUS"
  | .scan _ => "SCAN"
  | .prio => "PRIO"
  | .merge => "MERGE"
  | .mkroot => "MKROOT"
  | .gencode => "GENCODE"
  | .lookup _ => "LOOKUP"
  | .currst => "CURRST"
  | .step _ => "STEP"
  | .decbegin => "DECBEGIN"
  | .decbyte _ => "DECBYTE"
  | .decend => "DECEND"
  | .enchdr _ _ => "ENCHDR"
  | .encpix _ => "ENCPIX"
  | .encend => "ENCEND"

end Sys2Proof
end

