-- ==== Sys2Proof/Config.lean ====
section
/-! DEFINITION. The configuration of one block (00_scope.md R9, R15) and the model's one free value. -/

namespace Sys2Proof

/-- One exchange, a function on the 32-bit values that is its own inverse (`applyExchange`). -/
inductive Exchange
  /-- The bytes `i` and `j` of a value change places, byte 0 in bits 7 to 0. -/
  | bytes (i j : Fin 4)
  /-- The values `a` and `b` stand for each other, every other value for itself. -/
  | values (a b : U32)
  deriving DecidableEq, Repr

/-- `NATIVE_ORDER`, the channel order of the host's pixels, which gives the pair `toStorage`, `toNative` (R9, R15,
R71). State holds no function, so the pair stands as data from which both are computed; every pair with the two inverse
laws of R15 is one of these orders, and no other pair is (log 4). -/
inductive NativeOrder
  /-- The spec's default: A in bits 31 to 24, then R, G, B. -/
  | argb
  /-- The pair that `toStorage` reaches by these exchanges, the first of the list first, and `toNative` by undoing them.
  With none the native order is the stored one, R, G, B, A; with `.bytes 1 3` it is B, G, R, A; with `.bytes 0 3` and
  `.bytes 1 2` it is A, B, G, R. -/
  | exchanges (xs : List Exchange)
  deriving DecidableEq, Repr

/-- The parameters the source leaves open (R9). They are fixed for a block: no operation changes them (R39, R201). -/
structure Config where
  /-- `MAX_SYMS`, the largest number of distinct symbols DIST holds. -/
  maxSyms : Nat
  /-- `NATIVE_ORDER`. -/
  order : NativeOrder
  deriving DecidableEq, Repr

/-- The spec's default configuration (R9): the whole symbol space, ARGB. -/
def Config.default : Config := { maxSyms := 2 ^ 32, order := .argb }

/-- `NODE_CAP`, the size of the NODE table (R9). -/
def Config.nodeCap (c : Config) : Nat := 2 * c.maxSyms - 1

/-- `MAX_CODE_LEN`, the length of the longest code (R9). -/
def Config.maxCodeLen (c : Config) : Nat := c.maxSyms - 1

/-- FREE VALUE (log 8). What a `u64` register holds after an operation whose exact result does not fit in 64 bits.
R16 says that no such result occurs, so no state that a run from reset reaches reads it. No body. -/
opaque Config.outOfRange64 : Nat → U64

end Sys2Proof
end

