-- ==== Sys2Proof/Machine/State.lean ====
section
/-! DEFINITION. The architectural state (10_state.md R20 to R35), the responses (00_scope.md R14), the host's side of
the port (R39), the reset state (R40), and the model's stops. -/

namespace Sys2Proof.Machine

/-- `PHASE`, the control state (R21). The value 7, which is never held, is no constructor. -/
inductive Phase
  | scan
  | queue
  | tree
  | ready
  | enc
  | dec
  | fault
  deriving DecidableEq, Repr

/-- The five errors (R22, 30_encoding.md R89, 60_exceptions.md R170). `ERR = 0` is `none : Option Cause`; the values 6
and 7, which are never held, are no constructors. -/
inductive Cause
  | emptyInput
  | truncatedHeader
  | dimensionMismatch
  | unknownSymbol
  | corruptStream
  deriving DecidableEq, Repr

/-- The reasons of a refusal (R14). -/
inductive Reason
  | illegalOpcode
  | wrongPhase
  | queueTooShort
  | queueNotSingle
  | countExhausted
  | countNotExhausted
  | capacity
  | countOverflow
  deriving DecidableEq, Repr

/-- An entry of DIST (R32). -/
structure DistEntry where
  symbol : Symbol
  count : U64
  deriving DecidableEq, Repr

/-- A node record, the fields in the source's order (R33, R72). The spec gives an index into NODE (`Idx`, R24) no width;
here it is a `Nat`, and in every state a run reaches it is below `len(NODE) <= NODE_CAP` (R9; log 14). -/
structure NodeRec where
  symbol : Symbol
  frequency : U64
  left : Option Nat
  right : Option Nat
  deriving DecidableEq, Repr

/-- A sequence of pixel writes with one colour: `SetPixel(i mod width, i div width, value)` for the `count` linear
indices `i` from `first` on, in increasing order (R11, R52). The degenerate tree of 44_decoder.md R141 (f) writes up to
`(2^32-1)^2` pixels at once, so a run is held and not its pixels (log 6). -/
structure PixelRun where
  first : Nat
  count : Nat
  width : Nat
  value : U32
  deriving DecidableEq, Repr

/-- What STATUS answers, in the order of 46_system.md R161. -/
structure StatusView where
  phase : BitVec 3
  err : BitVec 3
  einfo : U64
  npix : U64
  lenDist : Nat
  lenNode : Nat
  lenPq : Nat
  root : Option Nat
  cur : Option Nat
  eW : U32
  eH : U32
  eRem : U64
  lenEAcc : Nat
  dHb : BitVec 4
  dW : U32
  dH : U32
  dRem : U64
  dIdx : U64
  deriving DecidableEq, Repr

/-- The outputs that an `ok` response names (R14). -/
inductive Output
  /-- `ok()`. -/
  | nothing
  /-- STATUS (R161). -/
  | status (view : StatusView)
  /-- PRIO: PQ and the record of each of its nodes (R101). -/
  | queue (pq : List Nat) (records : List NodeRec)
  /-- MERGE and MKROOT: a node and its record (R110, R111). -/
  | node (k : Nat) (record : NodeRec)
  /-- GENCODE: the set of pairs, listed by rising symbol (R120, log 7). -/
  | codes (pairs : List (Symbol × Bits))
  /-- LOOKUP, `ok(hit, bits)` (R121). -/
  | hit (bits : Bits)
  /-- LOOKUP, `ok(miss)` (R121). -/
  | miss
  /-- STEP (R132). -/
  | moved (k : Nat) (record : NodeRec) (leaf : Bool)
  /-- The bytes of ENCHDR, ENCPIX and ENCEND (R150 to R152). -/
  | bytes (out : List Byte)
  /-- The pixel writes of DECBYTE, in order (R141). -/
  | pixels (writes : List PixelRun)
  /-- DECEND, `ok(D_W, D_H)` (R142). -/
  | size (w h : U32)
  deriving DecidableEq, Repr

/-- The response of an operation (R14, R88). -/
inductive Response
  | ok (out : Output)
  | error (cause : Cause) (info : U64)
  | refused (reason : Reason)
  deriving DecidableEq, Repr

/-- The host's side of the port, not state of the block (R39): what it has issued and what it has received. -/
structure Port where
  /-- Commands issued and not yet performed, oldest first (log 1). -/
  cmds : List CmdWord
  /-- The response of the latest operation (log 3). -/
  resp : Option Response
  /-- Every byte emitted by ByteOut, in order (R11, R51; log 3). -/
  bytesOut : List Byte
  /-- Every pixel write emitted by SetPixel, in order (R11, R52; log 3). -/
  pixelsOut : List PixelRun
  deriving DecidableEq, Repr

/-- The state: exactly the registers and tables of R20, the configuration (R39, log 4) and the port. -/
structure State where
  /-- The configuration; no operation changes it (R39, R201). -/
  cfg : Config
  /-- `PHASE` (R21). -/
  phase : Phase
  /-- `ERR` (R22). -/
  err : Option Cause
  /-- `EINFO` (R23). -/
  einfo : U64
  /-- `ROOT` (R24). -/
  root : Option Nat
  /-- `CUR`, the traversal cursor (R25). -/
  cur : Option Nat
  /-- `NPIX` (R26). -/
  npix : U64
  /-- `E_W` (R27). -/
  eW : U32
  /-- `E_H` (R27). -/
  eH : U32
  /-- `E_REM` (R28). -/
  eRem : U64
  /-- `E_ACC`, at most 7 bits (R29). -/
  eAcc : Bits
  /-- `D_HB`, 0 to 8 (R30). -/
  dHb : BitVec 4
  /-- `D_HDR`, at most 8 bytes (R30). -/
  dHdr : List Byte
  /-- `D_W` (R31). -/
  dW : U32
  /-- `D_H` (R31). -/
  dH : U32
  /-- `D_REM` (R31). -/
  dRem : U64
  /-- `D_IDX` (R31). -/
  dIdx : U64
  /-- `DIST`, in the order of first scan (R32). -/
  dist : List DistEntry
  /-- `NODE`, in the order of creation (R33). -/
  node : List NodeRec
  /-- `PQ`, ascending by (frequency, index) (R34). -/
  pq : List Nat
  /-- `CODE`, symbols strictly rising (R35, log 7). -/
  code : List (Symbol × Bits)
  /-- The host's side (R39). -/
  port : Port
  deriving DecidableEq, Repr

/-- A port over which nothing has passed. -/
def Port.empty : Port := { cmds := [], resp := none, bytesOut := [], pixelsOut := [] }

/-- The state after hardware reset (R40, R190), with the default configuration (R9). -/
def State.reset : State :=
  { cfg := Config.default, phase := .scan, err := none, einfo := 0, root := none, cur := none, npix := 0,
    eW := 0, eH := 0, eRem := 0, eAcc := [], dHb := 0, dHdr := [], dW := 0, dH := 0, dRem := 0, dIdx := 0,
    dist := [], node := [], pq := [], code := [], port := Port.empty }

/-- Why the model stops. The spec gives the block no such stop: each constructor stands where a rule's pattern does not
match, in a state that the spec says no run from reset reaches (10_state.md R36, 20_memory.md R64; log 5). All are
safe: the model stops where the spec says nothing. -/
inductive Fault
  /-- `some r <- ROOT` with `ROOT = none`: raised by GENCODE, STEP and DECBYTE. Safe. -/
  | rootAbsent
  /-- `some c <- CUR` with `CUR = none`: raised by STEP and DECBYTE. Safe. -/
  | cursorAbsent
  /-- `NODE[k]` with `k` at or beyond `len(NODE)`: raised by MERGE, MKROOT, STEP and DECBYTE. Safe. -/
  | nodeAbsent (k : Nat)
  /-- The records under ROOT are no tree with distinct leaf symbols (R36): raised by GENCODE. Safe. -/
  | notATree
  /-- `D_HDR` does not hold eight bytes when the eighth header byte has arrived (R30): raised by DECBYTE. Safe. -/
  | headerMalformed
  /-- `E_ACC` holds more than eight bits when it is padded to a byte (R29): raised by ENCEND. Safe. -/
  | accumulatorMalformed
  deriving DecidableEq, Repr

/-- Why the model gives an operation no meaning. -/
inductive Refusal
  /-- Raised by an arm of `exec` whose instruction has no meaning yet; there is no such arm. Safe. -/
  | notModelled (mnemonic : String)
  deriving DecidableEq, Repr

/-- What an operation of the model comes to. -/
abbrev Result := Host.Outcome State Fault Refusal

/-- The abstract tree over the tables (R36). -/
inductive Tree
  | leaf (symbol : Symbol) (frequency : U64)
  | node (frequency : U64) (left right : Tree)
  deriving DecidableEq, Repr

/-- What `advance` answers (43_automaton.md R130). `absent` is a node index beyond the table, which R64 says is never
formed. -/
inductive Advance
  | moved (k : Nat)
  | missing (c1 : Nat)
  | absent (k : Nat)
  deriving DecidableEq, Repr

/-- The decoder's walk through the bits of one byte (44_decoder.md R141): CUR, D_IDX, D_REM and the pixel writes so
far. -/
structure Walk where
  cur : Nat
  idx : U64
  rem : U64
  writes : List PixelRun
  deriving DecidableEq, Repr

/-- Where the walk through the bits of one byte ends: all bits taken or skipped, a missing child of `c1`, or a node
index beyond the table. -/
inductive WalkEnd
  | done (w : Walk)
  | missing (w : Walk) (c1 : Nat)
  | absent (k : Nat)
  deriving DecidableEq, Repr

end Sys2Proof.Machine
end

