-- ==== Sys2Proof/Machine/Flags.lean ====
section
/-! DEFINITION. The status registers PHASE and ERR as STATUS shows them (10_state.md R21, R22), which operation has a
step in which phase (R21), and the exact arithmetic of the counters (00_scope.md R16). -/

namespace Sys2Proof.Machine

/-- The value of `PHASE` (R21). -/
def Phase.code : Phase → BitVec 3
  | .scan => 0
  | .queue => 1
  | .tree => 2
  | .ready => 3
  | .enc => 4
  | .dec => 5
  | .fault => 6

/-- The cause code of an error (R22, 30_encoding.md R89). -/
def Cause.code : Cause → BitVec 3
  | .emptyInput => 1
  | .truncatedHeader => 2
  | .dimensionMismatch => 3
  | .unknownSymbol => 4
  | .corruptStream => 5

/-- The value of `ERR`: 0 when no error is on record (R22). -/
def errCode : Option Cause → BitVec 3
  | none => 0
  | some c => c.code

/-- The phases in which an operation has a step, the table of R21; `none` is every phase. -/
def stepPhase : Instr → Option Phase
  | .reset => none
  | .status => none
  | .scan _ => some .scan
  | .prio => some .scan
  | .merge => some .queue
  | .mkroot => some .queue
  | .gencode => some .tree
  | .lookup _ => some .ready
  | .currst => some .ready
  | .step _ => some .ready
  | .decbegin => some .ready
  | .decbyte _ => some .dec
  | .decend => some .dec
  | .enchdr _ _ => some .ready
  | .encpix _ => some .enc
  | .encend => some .enc

/-- Whether an operation has a step in a phase (R21). -/
def hasStep (p : Phase) (i : Instr) : Bool :=
  match stepPhase i with
  | none => true
  | some q => p == q

/-- The `u64` of an exact result. R16 says every result fits; where one would not, in a state no run reaches, the value
is free (log 8). -/
def exact64 (n : Nat) : U64 := if n < 2 ^ 64 then BitVec.ofNat 64 n else Config.outOfRange64 n

/-- The exact product of two dimensions, always below `2^64` (R16 (c)). -/
def pixelCount (w h : U32) : U64 := exact64 (w.toNat * h.toNat)

end Sys2Proof.Machine
end

