-- ==== Sys2Proof/Machine/Operands.lean ====
section
/-! DEFINITION. What operations do to operands: the channel permutation (00_scope.md R15), the bits of a byte and the
packing of bits (R13), the big-endian header fields (R12). -/

namespace Sys2Proof.Machine

/-- Byte `k` of a value, byte 0 in bits 7 to 0. -/
def byteAt (v : U32) (k : Fin 4) : Byte := v.extractLsb' (8 * k.val) 8

/-- The value of four bytes. -/
def ofBytes (f : Fin 4 → Byte) : U32 := f 3 ++ f 2 ++ f 1 ++ f 0

/-- One exchange (log 4). -/
def applyExchange : Exchange → U32 → U32
  | .bytes i j, v => ofBytes fun k => byteAt v (Equiv.swap i j k)
  | .values a b, v => Equiv.swap a b v

/-- `toStorage`: a native pixel as a stored symbol (R15). With the default order, rotate left by 8. -/
def toStorage (c : Config) (v : U32) : Symbol :=
  match c.order with
  | .argb => v.rotateLeft 8
  | .exchanges xs => xs.foldl (fun u x => applyExchange x u) v

/-- `toNative`: a stored symbol as a native pixel, the inverse of `toStorage` (R15). -/
def toNative (c : Config) (s : Symbol) : U32 :=
  match c.order with
  | .argb => s.rotateRight 8
  | .exchanges xs => xs.foldr applyExchange s

/-- `bitsOf(b)`, most significant bit first (R13, 20_memory.md R54). -/
def bitsOf (b : Byte) : Bits :=
  [b.getLsbD 7, b.getLsbD 6, b.getLsbD 5, b.getLsbD 4, b.getLsbD 3, b.getLsbD 2, b.getLsbD 1, b.getLsbD 0]

/-- The number whose binary digits are `s`, the first the most significant. -/
def bitsValue (s : Bits) : Nat := s.foldl (fun acc b => 2 * acc + b.toNat) 0

/-- `byteOf(s)` for eight bits, `sum of s[j] * 2^(7-j)` (R13). -/
def byteOf (s : Bits) : Byte := BitVec.ofNat 8 (bitsValue s)

/-- The bytes of the complete groups of eight bits of `s`, first group first (45_encoder.md R151). -/
def fullBytes (s : Bits) : List Byte :=
  (List.range (s.length / 8)).map fun i => byteOf ((s.drop (8 * i)).take 8)

/-- The bits of `s` after its complete groups of eight (45_encoder.md R151). -/
def restBits (s : Bits) : Bits := s.drop (8 * (s.length / 8))

/-- `s` with zero bits after it up to eight bits: the pending bits take the high-order positions of the byte
(45_encoder.md R152). -/
def padToByte (s : Bits) : Bits := s ++ List.replicate (8 - s.length) false

/-- `ceil8(n)` (R10). -/
def ceil8 (n : Nat) : Nat := (n + 7) / 8

/-- `pack(s)`: zero bits up to a multiple of eight, then the bytes (R13). -/
def pack (s : Bits) : List Byte := fullBytes (s ++ List.replicate ((8 - s.length % 8) % 8) false)

/-- `BE32` of four bytes, the first the most significant (R12). -/
def be32 (b0 b1 b2 b3 : Byte) : U32 := b0 ++ b1 ++ b2 ++ b3

/-- `be32bytes(v)` (R12). -/
def be32bytes (v : U32) : List Byte :=
  [v.extractLsb' 24 8, v.extractLsb' 16 8, v.extractLsb' 8 8, v.extractLsb' 0 8]

/-- The header of a file of width `w` and height `h` (30_encoding.md R74). -/
def headerBytes (w h : U32) : List Byte := be32bytes w ++ be32bytes h

/-- The pixel writes `(x, y, value)` that a run stands for, in order (20_memory.md R52). R16 (d): a position is computed
only where the width is positive. -/
def PixelRun.writes (p : PixelRun) : List (Nat × Nat × U32) :=
  (List.range p.count).map fun j => ((p.first + j) % p.width, (p.first + j) / p.width, p.value)

/-- The pixel writes of a sequence of runs, in order. -/
def pixelWrites (ps : List PixelRun) : List (Nat × Nat × U32) := ps.flatMap PixelRun.writes

end Sys2Proof.Machine
end

