-- ==== Sys2Proof/Machine/Ops.lean ====
section
/-! DEFINITION. The shared operations: responding, refusing, raising an error, the table primitives (20_memory.md R64),
the abstract tree (10_state.md R36) and the transition function of the automaton (43_automaton.md R130). -/

namespace Sys2Proof.Machine

/-! ## Responses and outputs -/

/-- The response of the operation reaches the host (00_scope.md R14). -/
def respond (r : Response) (s : State) : State := { s with port := { s.port with resp := some r } }

/-- `ByteOut` of each byte, in order (R11). -/
def byteOut (bs : List Byte) (s : State) : State :=
  { s with port := { s.port with bytesOut := s.port.bytesOut ++ bs } }

/-- `SetPixel` of each pixel of the runs, in order (R11). -/
def setPixels (ps : List PixelRun) (s : State) : State :=
  { s with port := { s.port with pixelsOut := s.port.pixelsOut ++ ps } }

/-- `respond ok(outputs)` (R14). -/
def answer (o : Output) (s : State) : Result := .next (respond (.ok o) s)

/-- `refuse(reason)`: the response `refused(reason)` and no state change (R11, R14, 30_encoding.md R85). The block goes
on with the next command, so it is a next state (log 2). -/
def refuse (r : Reason) (s : State) : Result := .next (respond (.refused r) s)

/-- `raise E(info)`: taking an error (60_exceptions.md R172, R177). It is the whole of the block's exception entry:
nothing is saved, nothing is vectored. The return from it is RESET alone (R178, `execReset`). -/
def raise (c : Cause) (info : U64) (s : State) : Result :=
  .next (respond (.error c info) { s with err := some c, einfo := info, phase := .fault })

/-- The first test of every rule: `if PHASE != p: refuse(WrongPhase)` (10_state.md R21). -/
def inPhase (p : Phase) (s : State) (body : Result) : Result :=
  if s.phase = p then body else refuse .wrongPhase s

/-! ## The tables (R64) -/

/-- `find(DIST, s)`: the index of the entry of a symbol. -/
def distFind (d : List DistEntry) (sym : Symbol) : Option Nat := d.findIdx? fun e => e.symbol == sym

/-- `DIST[j].count <- DIST[j].count + 1`. -/
def distBump (d : List DistEntry) (j : Nat) : List DistEntry :=
  d.modify j fun e => { e with count := exact64 (e.count.toNat + 1) }

/-- The leaf that PRIO creates from a DIST entry (10_state.md R33, R101). -/
def leafOf (e : DistEntry) : NodeRec := { symbol := e.symbol, frequency := e.count, left := none, right := none }

/-- `isLeaf`: both children absent (R33). -/
def NodeRec.isLeaf (n : NodeRec) : Bool := n.left.isNone && n.right.isNone

/-- `NODE[k].frequency` as a number. It is applied to indices of the table only; R64 forms no other. -/
def freqAt (nodes : List NodeRec) (k : Nat) : Nat := ((nodes[k]?).map fun n => n.frequency.toNat).getD 0

/-- The order of PQ: the key `(NODE[k].frequency, k)`, lexicographic (R34). -/
def keyLe (nodes : List NodeRec) (a b : Nat) : Bool :=
  freqAt nodes a < freqAt nodes b || (freqAt nodes a == freqAt nodes b && a ≤ b)

/-- The indices `ks` sorted ascending by the key (R101). -/
def sortByKey (nodes : List NodeRec) (ks : List Nat) : List Nat :=
  ks.insertionSort fun a b => keyLe nodes a b

/-- `insert(PQ, m)` for a node of frequency `f`: behind every entry of frequency at most `f` (R110). -/
def pqInsert (nodes : List NodeRec) (f : Nat) (m : Nat) (rest : List Nat) : List Nat :=
  let p := rest.countP fun e => freqAt nodes e ≤ f
  rest.take p ++ [m] ++ rest.drop p

/-- `CODE[s]` (R64). -/
def codeGet (c : List (Symbol × Bits)) (sym : Symbol) : Option Bits :=
  (c.find? fun p => p.1 == sym).map Prod.snd

/-- `CODE[s] <- bits` (R64). The list stays strictly rising by symbol (log 7). -/
def codeSet : List (Symbol × Bits) → Symbol → Bits → List (Symbol × Bits)
  | [], sym, bits => [(sym, bits)]
  | (t, old) :: rest, sym, bits =>
    if sym.toNat < t.toNat then (sym, bits) :: (t, old) :: rest
    else if sym = t then (sym, bits) :: rest
    else (t, old) :: codeSet rest sym bits

/-- The writes of `CODE` for a list of pairs. -/
def codeSetAll (c : List (Symbol × Bits)) (ps : List (Symbol × Bits)) : List (Symbol × Bits) :=
  ps.foldl (fun acc p => codeSet acc p.1 p.2) c

/-- The canonical form of CODE: symbols strictly rising (R35, log 7). -/
abbrev codeWf (c : List (Symbol × Bits)) : Prop := c.Pairwise fun p q => p.1.toNat < q.1.toNat

/-- The form of DIST: symbols pairwise distinct, every count at least 1 (R32). -/
abbrev distWf (d : List DistEntry) : Prop := (d.map DistEntry.symbol).Nodup ∧ ∀ e ∈ d, 1 ≤ e.count.toNat

/-- The form of PQ: strictly ascending by the key, so each node at most once (R34). -/
abbrev pqWf (nodes : List NodeRec) (pq : List Nat) : Prop :=
  pq.Pairwise fun a b => keyLe nodes a b = true ∧ a ≠ b

/-- The canonical form of the tables, which are the block's memory (20_memory.md R50). -/
abbrev Memory.wf (s : State) : Prop := distWf s.dist ∧ codeWf s.code ∧ pqWf s.node s.pq

/-! ## The tree over the tables (R36) -/

/-- `tree(k)`, with fuel for the depth: none where the records under `k` are no tree of that depth (a missing record, a
record with exactly one child, a cycle). -/
def treeOf (nodes : List NodeRec) : Nat → Nat → Option Tree
  | 0, _ => none
  | fuel + 1, k =>
    match nodes[k]? with
    | none => none
    | some n =>
      match n.left, n.right with
      | none, none => some (.leaf n.symbol n.frequency)
      | some l, some r =>
        match treeOf nodes fuel l, treeOf nodes fuel r with
        | some a, some b => some (.node n.frequency a b)
        | _, _ => none
      | _, _ => none

/-- The tree under a node of the tables; a path visits each node at most once, so `len(NODE)` is fuel enough. -/
def tableTree (nodes : List NodeRec) (k : Nat) : Option Tree := treeOf nodes nodes.length k

/-- The path of every leaf, left edge 0 and right edge 1, root edge first (30_encoding.md R76, 42_code_table.md R120). -/
def Tree.codes : Tree → List (Symbol × Bits)
  | .leaf sym _ => [(sym, [])]
  | .node _ l r =>
    (l.codes.map fun p => (p.1, false :: p.2)) ++ (r.codes.map fun p => (p.1, true :: p.2))

/-- The leaves of a tree, left to right, with their frequencies. -/
def Tree.leaves : Tree → List (Symbol × U64)
  | .leaf sym f => [(sym, f)]
  | .node _ l r => l.leaves ++ r.leaves

/-- The frequency of a tree's root. -/
def Tree.frequency : Tree → U64
  | .leaf _ f => f
  | .node f _ _ => f

/-! ## The automaton (R130) -/

/-- `advance(c, bit)`: from a leaf the bit is applied at the root `r`; bit 0 selects the left child, bit 1 the right. -/
def advance (nodes : List NodeRec) (r c : Nat) (bit : Bit) : Advance :=
  match nodes[c]? with
  | none => .absent c
  | some n =>
    let c1 := if n.isLeaf then r else c
    match nodes[c1]? with
    | none => .absent c1
    | some n1 =>
      match (if bit then n1.right else n1.left) with
      | some k => .moved k
      | none => .missing c1

end Sys2Proof.Machine
end

