-- ==== Sys2Proof/Machine/Automaton.lean ====
section
/-! DEFINITION. The decode automaton: CURRST and STEP (43_automaton.md R131, R132). -/

namespace Sys2Proof.Machine

/-- CURRST (R131): the cursor to the root. -/
def execCurrst (s : State) : Result :=
  inPhase .ready s <| answer .nothing { s with cur := s.root }

/-- STEP bit (R132): one transition. A missing child sets the cursor to the root and raises CorruptStreamError
(90_conflicts.md C1). The symbol answered is the stored one. -/
def execStep (bit : Bit) (s : State) : Result :=
  inPhase .ready s <|
    match s.cur, s.root with
    | none, _ => .fault .cursorAbsent
    | some _, none => .fault .rootAbsent
    | some c, some r =>
      match advance s.node r c bit with
      | .absent k => .fault (.nodeAbsent k)
      | .missing c1 => raise .corruptStream (BitVec.ofNat 64 c1) { s with cur := s.root }
      | .moved k =>
        match s.node[k]? with
        | none => .fault (.nodeAbsent k)
        | some n => answer (.moved k n n.isLeaf) { s with cur := some k }

end Sys2Proof.Machine
end

