-- ==== Sys2Proof/Machine/CodeTable.lean ====
section
/-! DEFINITION. The code table: GENCODE and LOOKUP (42_code_table.md R120, R121). -/

namespace Sys2Proof.Machine

/-- GENCODE (R120): the code of every leaf is its path from the root. In a state where the records under ROOT are no
tree with distinct leaf symbols, which no run reaches (10_state.md R36), the rule says nothing (log 5). -/
def execGencode (s : State) : Result :=
  inPhase .tree s <|
    match s.root with
    | none => .fault .rootAbsent
    | some r =>
      match tableTree s.node r with
      | none => .fault .notATree
      | some t =>
        if (t.codes.map Prod.fst).Nodup then
          answer (.codes (codeSetAll [] t.codes)) { s with code := codeSetAll s.code t.codes, phase := .ready }
        else .fault .notATree

/-- LOOKUP sym (R121): a miss is an answer, not an error. -/
def execLookup (sym : Symbol) (s : State) : Result :=
  inPhase .ready s <|
    match codeGet s.code sym with
    | some bits => answer (.hit bits) s
    | none => answer .miss s

end Sys2Proof.Machine
end

