-- ==== Sys2Proof/Machine/Decoder.lean ====
section
/-! DEFINITION. The decoder: DECBEGIN, DECBYTE and DECEND (44_decoder.md R140, R141, R142). -/

namespace Sys2Proof.Machine

/-- DECBEGIN (R140): opens a session. -/
def execDecbegin (s : State) : Result :=
  inPhase .ready s <|
    answer .nothing
      { s with dHb := 0, dHdr := [], dW := 0, dH := 0, dRem := 0, dIdx := 0, cur := s.root, phase := .dec }

/-- The pixel writes of an operation happen, and its response names them (R141). -/
def answerPixels (ps : List PixelRun) (s : State) : Result := answer (.pixels ps) (setPixels ps s)

/-- All `N` pixels of an image of one colour (R141, degenerate tree); none when `N = 0`. -/
def fillRuns (n w : Nat) (v : U32) : List PixelRun :=
  if n = 0 then [] else [{ first := 0, count := n, width := w, value := v }]

/-- The header is complete (R141, `D_HB = 8`): the dimensions are known, and with a leaf as root every pixel is written
from the header alone. -/
def startPixels (r : Nat) (w h : U32) (s : State) : Result :=
  match s.node[r]? with
  | none => .fault (.nodeAbsent r)
  | some n =>
    let total := pixelCount w h
    if n.isLeaf then
      answerPixels (fillRuns total.toNat w.toNat (toNative s.cfg n.symbol))
        { s with dW := w, dH := h, dIdx := total, dRem := 0 }
    else answerPixels [] { s with dW := w, dH := h, dIdx := 0, dRem := total }

/-- A header byte (R141). -/
def headerByte (r : Nat) (b : Byte) (s : State) : Result :=
  let hdr := s.dHdr ++ [b]
  let s1 := { s with dHdr := hdr, dHb := s.dHb + 1 }
  if s.dHb + 1 = 8 then
    match hdr with
    | [b0, b1, b2, b3, b4, b5, b6, b7] => startPixels r (be32 b0 b1 b2 b3) (be32 b4 b5 b6 b7) s1
    | _ => .fault .headerMalformed
  else answerPixels [] s1

/-- One bit of a body byte (R141): the move, and at a leaf the pixel of the next position. -/
def walkBit (s : State) (r : Nat) (bit : Bit) (w : Walk) : WalkEnd :=
  match advance s.node r w.cur bit with
  | .absent k => .absent k
  | .missing c1 => .missing w c1
  | .moved k =>
    match s.node[k]? with
    | none => .absent k
    | some n =>
      if n.isLeaf then
        .done
          { cur := k
            idx := exact64 (w.idx.toNat + 1)
            rem := w.rem - 1
            writes := w.writes ++
              [{ first := w.idx.toNat, count := 1, width := s.dW.toNat, value := toNative s.cfg n.symbol }] }
      else .done { w with cur := k }

/-- The bits of a body byte, first bit first; with no pixel left the rest is padding and is not looked at (R141). -/
def walkBits (s : State) (r : Nat) : Bits → Walk → WalkEnd
  | [], w => .done w
  | bit :: bits, w =>
    if w.rem = 0 then .done w
    else
      match walkBit s r bit w with
      | .done w' => walkBits s r bits w'
      | .missing w' c1 => .missing w' c1
      | .absent k => .absent k

/-- The registers after a walk. -/
def afterWalk (w : Walk) (s : State) : State := { s with cur := some w.cur, dIdx := w.idx, dRem := w.rem }

/-- A body byte (R141). On a missing child the effects of the bits before it stay (60_exceptions.md R175), the cursor
is set to the root and CorruptStreamError is raised. With no pixel left the byte is accepted and ignored (R141 (d)). -/
def bodyByte (r : Nat) (b : Byte) (s : State) : Result :=
  if s.dRem = 0 then answerPixels [] s
  else
    match s.cur with
    | none => .fault .cursorAbsent
    | some c =>
      match walkBits s r (bitsOf b) { cur := c, idx := s.dIdx, rem := s.dRem, writes := [] } with
      | .absent k => .fault (.nodeAbsent k)
      | .missing w c1 =>
        raise .corruptStream (BitVec.ofNat 64 c1) (setPixels w.writes { afterWalk w s with cur := s.root })
      | .done w => answerPixels w.writes (afterWalk w s)

/-- DECBYTE b (R141). -/
def execDecbyte (b : Byte) (s : State) : Result :=
  inPhase .dec s <|
    match s.root with
    | none => .fault .rootAbsent
    | some r => if s.dHb.toNat < 8 then headerByte r b s else bodyByte r b s

/-- DECEND (R142): the header test first, then the count test. -/
def execDecend (s : State) : Result :=
  inPhase .dec s <|
    if s.dHb.toNat < 8 then raise .truncatedHeader (s.dHb.setWidth 64) s
    else if 0 < s.dRem.toNat then raise .dimensionMismatch s.dIdx s
    else answer (.size s.dW s.dH) { s with phase := .ready }

end Sys2Proof.Machine
end

