-- ==== Sys2Proof/Machine/Encoder.lean ====
section
/-! DEFINITION. The encoder: ENCHDR, ENCPIX and ENCEND (45_encoder.md R150, R151, R152). -/

namespace Sys2Proof.Machine

/-- The bytes of an operation are emitted, and its response names them. -/
def answerBytes (bs : List Byte) (s : State) : Result := answer (.bytes bs) (byteOut bs s)

/-- ENCHDR w, h (R150): opens a session and emits the header. -/
def execEnchdr (w h : U32) (s : State) : Result :=
  inPhase .ready s <|
    answerBytes (headerBytes w h) { s with eW := w, eH := h, eRem := pixelCount w h, eAcc := [], phase := .enc }

/-- ENCPIX px (R151): appends the pixel's code to the pending bits and emits the bytes that fill. -/
def execEncpix (px : U32) (s : State) : Result :=
  inPhase .enc s <|
    if s.eRem = 0 then refuse .countExhausted s
    else
      match codeGet s.code (toStorage s.cfg px) with
      | none => raise .unknownSymbol ((toStorage s.cfg px).setWidth 64) s
      | some bits =>
        answerBytes (fullBytes (s.eAcc ++ bits)) { s with eAcc := restBits (s.eAcc ++ bits), eRem := s.eRem - 1 }

/-- ENCEND (R152): emits the padded last byte, if bits are pending, and closes the session. -/
def execEncend (s : State) : Result :=
  inPhase .enc s <|
    if 0 < s.eRem.toNat then refuse .countNotExhausted s
    else if 8 < s.eAcc.length then .fault .accumulatorMalformed
    else
      answerBytes (if s.eAcc.length = 0 then [] else [byteOf (padToByte s.eAcc)])
        { s with eAcc := [], phase := .ready }

end Sys2Proof.Machine
end

