-- ==== Sys2Proof/Machine/Frequency.lean ====
section
/-! DEFINITION. The frequency counter: SCAN and PRIO (40_distribution.md R100, R101). -/

namespace Sys2Proof.Machine

/-- The end of an accepted SCAN: the new DIST, and `NPIX <- NPIX + 1` (R100). -/
def countPixel (d : List DistEntry) (s : State) : Result :=
  answer .nothing { s with dist := d, npix := exact64 (s.npix.toNat + 1) }

/-- SCAN px (R100). The tests stand in the rule's order: phase, total, then capacity for a new symbol. -/
def execScan (px : U32) (s : State) : Result :=
  inPhase .scan s <|
    if s.npix.toNat = 2 ^ 64 - 1 then refuse .countOverflow s
    else
      match distFind s.dist (toStorage s.cfg px) with
      | some j => countPixel (distBump s.dist j) s
      | none =>
        if s.dist.length = s.cfg.maxSyms then refuse .capacity s
        else countPixel (s.dist ++ [{ symbol := toStorage s.cfg px, count := 1 }]) s

/-- PRIO (R101): one leaf per DIST entry, in the order of DIST, and PQ sorted by the key. -/
def execPrio (s : State) : Result :=
  inPhase .scan s <|
    if s.dist.length = 0 then raise .emptyInput 0 s
    else
      let nodes := s.node ++ s.dist.map leafOf
      let pq := sortByKey nodes (List.range s.dist.length)
      answer (.queue pq (pq.filterMap fun k => nodes[k]?)) { s with node := nodes, pq := pq, phase := .queue }

end Sys2Proof.Machine
end

