-- ==== Sys2Proof/Machine/System.lean ====
section
/-! DEFINITION. The system operations RESET and STATUS (46_system.md R160, R161). -/

namespace Sys2Proof.Machine

/-- Hardware reset, an event of the outside world between two operations: every register and table at its reset value
(70_reset_and_hazards.md R190, R191). The configuration is fixed, and the port is the host's (log 1, 3, 4). -/
def hardwareReset (s : State) : State := { State.reset with cfg := s.cfg, port := s.port }

/-- RESET (R160): every register and table at its reset value, in every phase; it undoes no output already emitted and
changes no configuration. ERR and EINFO are cleared with the rest, although 10_state.md R41 says that R172 alone writes them
(DEDUCED, log 16). It reaches the state of hardware reset (70_reset_and_hazards.md R191) and answers. It is the only return from an error (60_exceptions.md R178). -/
def execReset (s : State) : Result :=
  answer .nothing (hardwareReset s)

/-- The registers that STATUS reads (R161). -/
def statusView (s : State) : StatusView :=
  { phase := s.phase.code, err := errCode s.err, einfo := s.einfo, npix := s.npix, lenDist := s.dist.length,
    lenNode := s.node.length, lenPq := s.pq.length, root := s.root, cur := s.cur, eW := s.eW, eH := s.eH,
    eRem := s.eRem, lenEAcc := s.eAcc.length, dHb := s.dHb, dW := s.dW, dH := s.dH, dRem := s.dRem,
    dIdx := s.dIdx }

/-- STATUS (R161): reads the registers in every phase and writes no state. -/
def execStatus (s : State) : Result := answer (.status (statusView s)) s

end Sys2Proof.Machine
end

