-- ==== Sys2Proof/Machine/TreeBuilder.lean ====
section
/-! DEFINITION. The tree builder: MERGE and MKROOT (41_tree_builder.md R110, R111). -/

namespace Sys2Proof.Machine

/-- The record of the node merged from `a` (first removed, left) and `b` (second removed, right) (R110). -/
def mergedRec (a b : Nat) (na nb : NodeRec) : NodeRec :=
  { symbol := 0, frequency := exact64 (na.frequency.toNat + nb.frequency.toNat), left := some a, right := some b }

/-- The first index of `ks` beyond the table, where there is one (R64 forms none). -/
def firstAbsent (nodes : List NodeRec) (ks : List Nat) : Option Nat :=
  ks.find? fun k => decide (nodes.length ≤ k)

/-- MERGE (R110): one pass of the merge loop. -/
def execMerge (s : State) : Result :=
  inPhase .queue s <|
    match s.pq with
    | a :: b :: rest =>
      match s.node[a]?, s.node[b]? with
      | none, _ => .fault (.nodeAbsent a)
      | some _, none => .fault (.nodeAbsent b)
      | some na, some nb =>
        match firstAbsent s.node rest with
        | some k => .fault (.nodeAbsent k)
        | none =>
          let record := mergedRec a b na nb
          let m := s.node.length
          answer (.node m record)
            { s with
              node := s.node ++ [record]
              pq := pqInsert s.node record.frequency.toNat m rest }
    | _ => refuse .queueTooShort s

/-- MKROOT (R111): the one node left in the queue becomes the root, and the cursor is set to it. The answer names
the node's record, so NODE is read, as R111 has it; the table of 10_state.md R41 lists no such read (DEDUCED, log 16). -/
def execMkroot (s : State) : Result :=
  inPhase .queue s <|
    match s.pq with
    | [k] =>
      match s.node[k]? with
      | none => .fault (.nodeAbsent k)
      | some n => answer (.node k n) { s with root := some k, cur := some k, pq := [], phase := .tree }
    | _ => refuse .queueNotSingle s

end Sys2Proof.Machine
end

