-- ==== Sys2Proof/Machine/Dispatch.lean ====
section
/-! DEFINITION. One arm per operation (30_encoding.md R84), in the table's order. -/

namespace Sys2Proof.Machine

/-- The meaning of an operation. -/
def exec (i : Instr) (s : State) : Host.Outcome State Fault Refusal :=
  match i with
  | .reset => Sys2Proof.Machine.execReset s
  | .status => Sys2Proof.Machine.execStatus s
  | .scan px => Sys2Proof.Machine.execScan px s
  | .prio => Sys2Proof.Machine.execPrio s
  | .merge => Sys2Proof.Machine.execMerge s
  | .mkroot => Sys2Proof.Machine.execMkroot s
  | .gencode => Sys2Proof.Machine.execGencode s
  | .lookup sym => Sys2Proof.Machine.execLookup sym s
  | .currst => Sys2Proof.Machine.execCurrst s
  | .step bit => Sys2Proof.Machine.execStep bit s
  | .decbegin => Sys2Proof.Machine.execDecbegin s
  | .decbyte b => Sys2Proof.Machine.execDecbyte b s
  | .decend => Sys2Proof.Machine.execDecend s
  | .enchdr w h => Sys2Proof.Machine.execEnchdr w h s
  | .encpix px => Sys2Proof.Machine.execEncpix px s
  | .encend => Sys2Proof.Machine.execEncend s

end Sys2Proof.Machine
end

