-- ==== Sys2Proof/Machine/Fetch.lean ====
section
/-! DEFINITION. The command port: how commands reach the block (00_scope.md R2, R6; log 1). -/

namespace Sys2Proof.Machine

/-- The oldest command, and the state with it taken. -/
def fetch (s : State) : Option (CmdWord × State) :=
  match s.port.cmds with
  | [] => none
  | w :: rest => some (w, { s with port := { s.port with cmds := rest } })

/-- The host issues a command: it will be performed after those issued before it (20_memory.md R60). -/
def issue (w : CmdWord) (s : State) : State := { s with port := { s.port with cmds := s.port.cmds ++ [w] } }

/-- The command `w` is the next to be performed. -/
def issueNext (w : CmdWord) (s : State) : State := { s with port := { s.port with cmds := w :: s.port.cmds } }

end Sys2Proof.Machine
end

