-- ==== Sys2Proof/Machine/Step.lean ====
section
/-! DEFINITION. One step of the machine: the oldest command of the host is performed (00_scope.md R2, 20_memory.md
R60). -/

namespace Sys2Proof.Machine

/-- One step. With no command issued the block waits, unchanged (70_reset_and_hazards.md R190, log 1). An illegal code is
refused before the phase is looked at (30_encoding.md R85). -/
def step (s : State) : Host.Outcome State Fault Refusal :=
  match fetch s with
  | none => .next s
  | some (w, s1) =>
    match decode w with
    | some i => exec i s1
    | none => refuse .illegalOpcode s1

/-- `s` with the operation-table number `w` of `nbits` bits as the next command (log 11). A number of more than 72 bits
is no command word and is not issued. -/
def State.withFetchWord (s : State) (nbits w : Nat) : State :=
  match tableWord nbits w with
  | some c => issueNext c s
  | none => s

end Sys2Proof.Machine
end

