-- ==== Sys2Proof/Machine/Macros.lean ====
section
/-! DEFINITION. The macro-operations SCANALL, BUILD, DECODE and ENCODE over the primitives (30_encoding.md R87). -/

namespace Sys2Proof.Machine

/-- Whether the latest response is `ok`. -/
def answeredOk (s : State) : Bool :=
  match s.port.resp with
  | some (.ok _) => true
  | _ => false

/-- A sequence of primitives: it stops at the first that answers `error` or `refused`, with that answer; the outputs
emitted before stay emitted (R87). -/
def runPrims : List Instr → State → Result
  | [], s => .next s
  | i :: is, s =>
    match exec i s with
    | .next t => if answeredOk t then runPrims is t else .next t
    | .fault f => .fault f
    | .refused r => .refused r

/-- One part of a macro after another, under the same rule. -/
def andThen (r : Result) (k : State → Result) : Result :=
  match r with
  | .next t => if answeredOk t then k t else .next t
  | .fault f => .fault f
  | .refused q => .refused q

/-- MERGE repeated while `len(PQ) >= 2` (R112). Each MERGE shortens PQ by one, so `len(PQ)` is fuel enough. -/
def mergeAll : Nat → State → Result
  | 0, s => .next s
  | fuel + 1, s => if 2 ≤ s.pq.length then andThen (execMerge s) (mergeAll fuel) else .next s

/-- BUILD is `PRIO; MERGE` repeated while `len(PQ) >= 2`; `MKROOT; GENCODE` (41_tree_builder.md R112). -/
def runBuild (s : State) : Result :=
  andThen (execPrio s) fun s1 => andThen (mergeAll s1.pq.length s1) fun s2 => runPrims [.mkroot, .gencode] s2

/-- The primitives of SCANALL (40_distribution.md R102). -/
def scanallPrims (ps : List U32) : List Instr := ps.map .scan

/-- The primitives of DECODE (44_decoder.md R143). -/
def decodePrims (bs : List Byte) : List Instr := .decbegin :: bs.map .decbyte ++ [.decend]

/-- The primitives of ENCODE (45_encoder.md R153). -/
def encodePrims (w h : U32) (ps : List U32) : List Instr := .enchdr w h :: ps.map .encpix ++ [.encend]

/-- A macro-operation. SCANALL of no pixel is the empty sequence and answers `ok` (R102), so the answer stands at `ok()`
before the first primitive (log 13). -/
def runMacro (m : Macro) (s : State) : Result :=
  let s0 := respond (.ok .nothing) s
  match m with
  | .scanall ps => runPrims (scanallPrims ps) s0
  | .build => runBuild s0
  | .decode bs => runPrims (decodePrims bs) s0
  | .encode w h ps => runPrims (encodePrims w h ps) s0

/-- The value of the raster at `(x, y)` after pixel writes: the last one there (R143). -/
def rasterAt (writes : List (Nat × Nat × U32)) (x y : Nat) : Option U32 :=
  (writes.reverse.find? fun p => p.1 == x && p.2.1 == y).map fun p => p.2.2

end Sys2Proof.Machine
end

