-- ==== Sys2Proof/WellFormed.lean ====
section
/-! DEFINITION. What is well formed: an operation, a configuration, a macro. -/

namespace Sys2Proof

/-- Every operation is well formed: each operand's type has the width of its field and R83 takes every value of it
(30_encoding.md R70, R74, R83: no value of a symbol, a pixel or a dimension is reserved). -/
def Instr.wellFormed : Instr → Bool
  | .reset => true
  | .status => true
  | .scan _ => true
  | .prio => true
  | .merge => true
  | .mkroot => true
  | .gencode => true
  | .lookup _ => true
  | .currst => true
  | .step _ => true
  | .decbegin => true
  | .decbyte _ => true
  | .decend => true
  | .enchdr _ _ => true
  | .encpix _ => true
  | .encend => true

/-- `1 <= MAX_SYMS <= 2^32` (00_scope.md R9). -/
def Config.wellFormed (c : Config) : Bool := 1 ≤ c.maxSyms && c.maxSyms ≤ 2 ^ 32

/-- ENCODE w, h takes exactly `w*h` pixels (30_encoding.md R87); the other macros take any number of operands. -/
def Macro.wellFormed : Macro → Bool
  | .scanall _ => true
  | .build => true
  | .decode _ => true
  | .encode w h ps => ps.length == w.toNat * h.toNat

end Sys2Proof
end

