-- ==== Sys2Proof/Safety.lean ====
section
/-! DEFINITION. The terms of the claims: the outcome of an operation, paths in the tree (30_encoding.md R76), the
invariant of every state that a run reaches (10_state.md R36, R37), and reachability from reset. -/

namespace Sys2Proof.Machine

/-- The next state of an outcome, where it is one. -/
def nextState : Result → Option State
  | .next t => some t
  | .fault _ => none
  | .refused _ => none

/-- A safe run never stops: each step answers a next state. -/
def runsOn (r : Result) : Bool := (nextState r).isSome

/-- The node at the end of a path: from `k`, bit 0 along the left edge and bit 1 along the right edge (R76). -/
def follow (nodes : List NodeRec) : Nat → Bits → Option Nat
  | k, [] => some k
  | k, bit :: bits =>
    match nodes[k]? with
    | none => none
    | some n =>
      match (if bit then n.right else n.left) with
      | none => none
      | some j => follow nodes j bits

/-- Both children absent (10_state.md R33). -/
abbrev leafRecord (n : NodeRec) : Prop := n.left = none ∧ n.right = none

/-- The child a bit selects (43_automaton.md R130). -/
abbrev childOf (bit : Bit) (n : NodeRec) : Option Nat := if bit then n.right else n.left

/-- With the cursor at `c` a bit is applied at the node `c1`, whose record is `n1`: the root where `c` is a leaf, `c`
itself where it is none (43_automaton.md R130). -/
abbrev appliedAt (nodes : List NodeRec) (r c c1 : Nat) (n1 : NodeRec) : Prop :=
  ∃ n, nodes[c]? = some n ∧ (leafRecord n → c1 = r) ∧ (¬ leafRecord n → c1 = c) ∧ nodes[c1]? = some n1

/-- The bit leads from `c` to `k`, whose record is `n`. -/
abbrev goesTo (nodes : List NodeRec) (r c : Nat) (bit : Bit) (k : Nat) (n : NodeRec) : Prop :=
  nodes[k]? = some n ∧ ∃ c1 n1, appliedAt nodes r c c1 n1 ∧ childOf bit n1 = some k

/-- The bit selects an absent child of the node `c1`. -/
abbrev stuckAt (nodes : List NodeRec) (r c : Nat) (bit : Bit) (c1 : Nat) : Prop :=
  ∃ n1, appliedAt nodes r c c1 n1 ∧ childOf bit n1 = none

/-- `Feeds s r c left bits k vs`: with `left` pixels to decode, each of `bits` is fed to the automaton, the first from
the cursor `c`; the cursor ends at `k`, and `vs` are the native colours of the leaves reached, in order. A bit is fed
only while a pixel is left, and each leaf takes one off (44_decoder.md R141). -/
inductive Feeds (s : State) (r : Nat) : Nat → Nat → Bits → Nat → List U32 → Prop
  | nil {c left : Nat} : Feeds s r c left [] c []
  | inner {c left : Nat} {bit : Bit} {bits : Bits} {k k' : Nat} {n : NodeRec} {vs : List U32} (hl : 0 < left)
      (hg : goesTo s.node r c bit k n) (hn : ¬ leafRecord n) (h : Feeds s r k left bits k' vs) :
      Feeds s r c left (bit :: bits) k' vs
  | leaf {c left : Nat} {bit : Bit} {bits : Bits} {k k' : Nat} {n : NodeRec} {vs : List U32} (hl : 0 < left)
      (hg : goesTo s.node r c bit k n) (hn : leafRecord n) (h : Feeds s r k (left - 1) bits k' vs) :
      Feeds s r c left (bit :: bits) k' (toNative s.cfg n.symbol :: vs)

/-- The pixel writes of the colours `vs` at the linear indices from `first` on, in a raster of width `w`
(20_memory.md R52). -/
abbrev placedFrom (first w : Nat) (vs : List U32) : List (Nat × Nat × U32) :=
  (vs.zipIdx first).map fun p => (p.2 % w, p.2 / w, p.1)

/-- Every child named by a record of the table, in order. -/
def childrenOf (nodes : List NodeRec) : List Nat := nodes.flatMap fun n => n.left.toList ++ n.right.toList

/-- An internal record `k`: two children of lower index, symbol 0, the frequency their sum (R36 (a), (b), (e)). -/
def internalOk (nodes : List NodeRec) (k : Nat) (n : NodeRec) : Bool :=
  match n.left, n.right with
  | some l, some r =>
    decide (l < k) && decide (r < k) && n.symbol == 0 && n.frequency.toNat == freqAt nodes l + freqAt nodes r
  | _, _ => false

/-- The leaves of the trees under `roots`, as pairs of symbol and count. -/
def leavesUnder (nodes : List NodeRec) (roots : List Nat) : List (Symbol × U64) :=
  roots.flatMap fun k =>
    match tableTree nodes k with
    | some t => t.leaves
    | none => []

/-- The tables of a build with the trees of `roots` not yet merged into one: in phase QUEUE the roots are PQ, afterwards
ROOT alone (R36 `WF`, R37). -/
structure Forest (s : State) (roots : List Nat) : Prop where
  /-- Something was scanned. -/
  scanned : s.dist ≠ []
  /-- Each merge takes two roots and adds one node and one root (R37). -/
  count : roots.length + s.node.length = 2 * s.dist.length
  /-- Nodes `0 .. n-1` are the leaves, in the order of DIST (R33). -/
  leaves : s.node.take s.dist.length = s.dist.map leafOf
  /-- The other nodes are internal. -/
  internal : ∀ k ∈ List.range s.node.length, s.dist.length ≤ k → ∀ n ∈ s.node[k]?, internalOk s.node k n = true
  /-- Every node is a root or the child of exactly one node (R36 (c), R37). -/
  owned : (roots ++ childrenOf s.node).Perm (List.range s.node.length)
  /-- Under each root the records are a tree. -/
  trees : ∀ k ∈ roots, (tableTree s.node k).isSome = true
  /-- The leaves of those trees are the entries of DIST, each once (R36 (d)). -/
  symbols : (leavesUnder s.node roots).Perm (s.dist.map fun e => (e.symbol, e.count))
  /-- The frequencies of the roots add up to NPIX (R37). -/
  total : (roots.map (freqAt s.node)).sum = s.npix.toNat

/-- The tables before the build (R37, SCAN). -/
structure Unbuilt (s : State) : Prop where
  node : s.node = []
  pq : s.pq = []
  code : s.code = []
  root : s.root = none
  cur : s.cur = none

/-- The tables while the queue is merged (R37, QUEUE). -/
structure Merging (s : State) : Prop where
  root : s.root = none
  cur : s.cur = none
  code : s.code = []
  sorted : pqWf s.node s.pq
  nonempty : s.pq ≠ []
  forest : Forest s s.pq

/-- The tables with the root `r` known and no code yet (R37, TREE). -/
structure Rooted (s : State) (r : Nat) : Prop where
  root : s.root = some r
  cur : s.cur = some r
  pq : s.pq = []
  code : s.code = []
  forest : Forest s [r]

/-- The tables with root `r`, its tree `t` and the code table, the cursor at `c` (R37: READY, ENC, DEC). -/
structure Built (s : State) (r c : Nat) (t : Tree) : Prop where
  root : s.root = some r
  cur : s.cur = some c
  inTable : c < s.node.length
  pq : s.pq = []
  forest : Forest s [r]
  tree : tableTree s.node r = some t
  code : s.code = codeSetAll [] t.codes
  /-- With a leaf as root no pixel is ever left to decode (44_decoder.md R141 (f)). -/
  oneColour : s.node.length = 1 → s.dRem = 0

/-- The tables by phase (R37). In FAULT they are as the failing operation left them: PRIO's or those of a built tree. -/
def TablesInv (s : State) : Prop :=
  match s.phase with
  | .scan => Unbuilt s
  | .queue => Merging s
  | .tree => ∃ r, Rooted s r
  | .ready => ∃ r c t, Built s r c t
  | .enc => ∃ r c t, Built s r c t
  | .dec => ∃ r c t, Built s r c t
  | .fault => Unbuilt s ∨ ∃ r c t, Built s r c t

/-- The phases before a session can have been opened. -/
def Phase.beforeSessions : Phase → Bool
  | .scan | .queue | .tree => true
  | .ready | .enc | .dec | .fault => false

/-- The registers of the decode session (R30, R31). -/
structure DecoderInv (s : State) : Prop where
  received : s.dHdr.length = s.dHb.toNat
  bound : s.dHb.toNat ≤ 8
  unparsed : s.dHb.toNat < 8 → s.dW = 0 ∧ s.dH = 0 ∧ s.dRem = 0 ∧ s.dIdx = 0
  parsed : s.dHb.toNat = 8 →
    s.dHdr = headerBytes s.dW s.dH ∧ s.dIdx.toNat + s.dRem.toNat = s.dW.toNat * s.dH.toNat
  early : s.phase.beforeSessions = true → s.dHb = 0

/-- The registers of the encode session (R27 to R29). The pending bits are empty outside phase ENC but in FAULT, where
the failing ENCPIX leaves them (R37, log 9). -/
structure EncoderInv (s : State) : Prop where
  pending : s.eAcc.length ≤ 7
  remaining : s.eRem.toNat ≤ s.eW.toNat * s.eH.toNat
  closed : s.phase ≠ .enc → s.phase ≠ .fault → s.eAcc = [] ∧ s.eRem = 0

/-- The invariant of every state that a run reaches. -/
structure Inv (s : State) : Prop where
  config : s.cfg.wellFormed = true
  /-- `ERR != 0` exactly in FAULT, and EINFO is 0 without an error (R22, R23). -/
  errFault : s.err ≠ none ↔ s.phase = .fault
  info : s.err = none → s.einfo = 0
  /-- DIST: distinct symbols, counts at least 1, within capacity, adding up to NPIX (R26, R32). -/
  distForm : distWf s.dist
  capacity : s.dist.length ≤ s.cfg.maxSyms
  counted : (s.dist.map fun e => e.count.toNat).sum = s.npix.toNat
  encoder : EncoderInv s
  decoder : DecoderInv s
  tables : TablesInv s

/-- The states that some host can bring the block to: from reset with any configuration, by issuing commands, by
steps (R201) and by hardware reset (70_reset_and_hazards.md R190). -/
inductive Reachable : State → Prop
  | reset (c : Config) (h : c.wellFormed = true) : Reachable { State.reset with cfg := c }
  | issue (w : CmdWord) {s : State} (h : Reachable s) : Reachable (issue w s)
  | hardwareReset {s : State} (h : Reachable s) : Reachable (hardwareReset s)
  | step {s t : State} (h : Reachable s) (hs : step s = .next t) : Reachable t

end Sys2Proof.Machine
end

