-- ==== Sys2Proof/Certificates/Slice0/Obligations.lean ====
section
/-! DEFINITION. The statements for the provers. Each result is an equality of next states, so that it says what changes
and that nothing else does. The helpers below spell the ends of an operation out, not by the model's own words. -/

namespace Sys2Proof.Machine.Claims

/-- `s` with the response `r` given to the host. -/
abbrev saying (r : Response) (s : State) : State := { s with port := { s.port with resp := some r } }

/-- `ok(out)` in the state `s`. -/
abbrev answered (out : Output) (s : State) : Result := .next (saying (.ok out) s)

/-- `refused(reason)` and nothing else (00_scope.md R14). -/
abbrev refusedWith (reason : Reason) (s : State) : Result := .next (saying (.refused reason) s)

/-- An error taken in the state `s` (60_exceptions.md R172). -/
abbrev failed (c : Cause) (info : U64) (s : State) : Result :=
  .next (saying (.error c info) { s with phase := .fault, err := some c, einfo := info })

/-- `s` after the bytes `bs` have been emitted. -/
abbrev emitting (bs : List Byte) (s : State) : State :=
  { s with port := { s.port with bytesOut := s.port.bytesOut ++ bs } }

/-- `s` after the pixel writes `ps`. -/
abbrev drawing (ps : List PixelRun) (s : State) : State :=
  { s with port := { s.port with pixelsOut := s.port.pixelsOut ++ ps } }

/-- The key of PQ, strictly (10_state.md R34). -/
abbrev keyBefore (nodes : List NodeRec) (a b : Nat) : Prop :=
  freqAt nodes a < freqAt nodes b ∨ (freqAt nodes a = freqAt nodes b ∧ a < b)

/-- A phase with the tree and the code table built and no error on record. -/
abbrev treeInUse (p : Phase) : Prop := p = .ready ∨ p = .enc ∨ p = .dec

/-- The pixel writes of the colours `vs`, in row-major order of a raster of width `w` (20_memory.md R52). -/
abbrev rowMajor (w : U32) (vs : List U32) : List (Nat × Nat × U32) := placedFrom 0 w.toNat vs

/-- The concatenated codes of symbols (45_encoder.md R154). -/
abbrev codesOf (code : List (Symbol × Bits)) (syms : List Symbol) : Bits :=
  syms.flatMap fun x => (codeGet code x).getD []

/-- A body byte that meets a missing child (44_decoder.md R141): `vs` are the native colours of the leaves that its bits
reach before the failing one, which selects an absent child of the node `c1`. -/
abbrev failsInByte (s : State) (b : Byte) (vs : List U32) (c1 : Nat) : Prop :=
  s.phase = .dec ∧ 8 ≤ s.dHb.toNat ∧
  ∃ (r c k : Nat) (fed skipped : Bits) (bit : Bit), s.root = some r ∧ s.cur = some c ∧
    bitsOf b = fed ++ bit :: skipped ∧ Feeds s r c s.dRem.toNat fed k vs ∧ vs.length < s.dRem.toNat ∧
    stuckAt s.node r k bit c1

/-- The operations whose column of R41 says w, for each table. -/
abbrev writesDist : Instr → Bool
  | .reset | .scan _ => true
  | _ => false

abbrev writesNode : Instr → Bool
  | .reset | .prio | .merge => true
  | _ => false

abbrev writesPq : Instr → Bool
  | .reset | .prio | .merge | .mkroot => true
  | _ => false

abbrev writesCode : Instr → Bool
  | .reset | .gencode => true
  | _ => false

abbrev writesRoot : Instr → Bool
  | .reset | .mkroot => true
  | _ => false

abbrev writesCur : Instr → Bool
  | .reset | .mkroot | .currst | .step _ | .decbegin | .decbyte _ => true
  | _ => false

abbrev writesNpix : Instr → Bool
  | .reset | .scan _ => true
  | _ => false

abbrev writesEncoder : Instr → Bool
  | .reset | .enchdr _ _ | .encpix _ | .encend => true
  | _ => false

abbrev writesDecoder : Instr → Bool
  | .reset | .decbegin | .decbyte _ => true
  | _ => false

/-- The operations that emit bytes (45_encoder.md). -/
abbrev emitsBytes : Instr → Bool
  | .enchdr _ _ | .encpix _ | .encend => true
  | _ => false

/-- The operation that writes pixels (44_decoder.md). -/
abbrev writesPixels : Instr → Bool
  | .decbyte _ => true
  | _ => false

end Sys2Proof.Machine.Claims

open Sys2Proof Sys2Proof.Machine Sys2Proof.Machine.Claims

/-! ## The command word and the step -/

/-- 30_encoding.md R84, R81: command words of 95_test_vectors.md and their operations. -/
def Obligations.SpecWordsDecode : Prop :=
  decode 0x000000000000000000 = some .reset ∧
  decode 0x0200000000FFFF0000 = some (.scan 0xFFFF0000) ∧
  decode 0x02DEADBEEF80112233 = some (.scan 0x80112233) ∧
  decode 0x09FFFFFFFFFFFFFFFE = some (.step false) ∧
  decode 0x0B00000000000000D0 = some (.decbyte 0xD0) ∧
  decode 0x0D0000000B00000001 = some (.enchdr 11 1) ∧
  decode 0x0E00000000FF00FF00 = some (.encpix 0xFF00FF00) ∧
  decode 0x100000000000000000 = none

/-- 30_encoding.md R80 to R84: a word decodes to an operation exactly when the bits that its format uses are those of the
operation's word, whatever the other bits are; and the word of every operation decodes to it. -/
def Obligations.DecodeEncodeAgree : Prop :=
  (∀ i : Instr, decode (encode i) = some i) ∧
  (∀ (i : Instr) (w : CmdWord), decode w = some i ↔ w &&& careMask i = encode i)

/-- 30_encoding.md R85. -/
def Obligations.IllegalAndOutOfPhaseWordsRefused : Prop :=
  (∀ w : CmdWord, decode w = none ↔ 0x10 ≤ w.toNat / 2 ^ 64) ∧
  (∀ (s : State) (w : CmdWord) (rest : List CmdWord), s.port.cmds = w :: rest → 0x10 ≤ w.toNat / 2 ^ 64 →
    step s = refusedWith .illegalOpcode { s with port := { s.port with cmds := rest } }) ∧
  (∀ (s : State) (w : CmdWord) (rest : List CmdWord) (i : Instr), s.port.cmds = w :: rest → decode w = some i →
    hasStep s.phase i = false →
    step s = refusedWith .wrongPhase { s with port := { s.port with cmds := rest } })

/-- 00_scope.md R2, 20_memory.md R60: a step performs the oldest command of the host, taken off the port. -/
def Obligations.StepRunsOldestCommand : Prop :=
  ∀ (s : State) (w : CmdWord) (rest : List CmdWord) (i : Instr), s.port.cmds = w :: rest → decode w = some i →
    step s = exec i { s with port := { s.port with cmds := rest } }

/-- 70_reset_and_hazards.md R190 "the block waits for a command"; that waiting is a step that changes nothing is the
model's choice (log 1). -/
def Obligations.StepWaitsWithoutCommand : Prop :=
  ∀ s : State, s.port.cmds = [] → step s = .next s

/-- 10_state.md R21: the values of PHASE, the operations that have a step in each, the transitions, and RESET as the only
way back to SCAN. -/
def Obligations.PhaseGovernsOperations : Prop :=
  ([Phase.scan, .queue, .tree, .ready, .enc, .dec, .fault].map Phase.code = [0, 1, 2, 3, 4, 5, 6]) ∧
  (∀ (p : Phase) (i : Instr), hasStep p i = true ↔
    match i with
    | .reset | .status => True
    | .scan _ | .prio => p = .scan
    | .merge | .mkroot => p = .queue
    | .gencode => p = .tree
    | .lookup _ | .currst | .step _ | .decbegin | .enchdr _ _ => p = .ready
    | .encpix _ | .encend => p = .enc
    | .decbyte _ | .decend => p = .dec) ∧
  (∀ (i : Instr) (s : State), hasStep s.phase i = false → exec i s = refusedWith .wrongPhase s) ∧
  (∀ (i : Instr) (s t : State), exec i s = .next t →
    (∀ r, t.port.resp = some (.refused r) → t = saying (.refused r) s) ∧
    (∀ c info, t.port.resp = some (.error c info) → t.phase = .fault) ∧
    (∀ out, t.port.resp = some (.ok out) → t.phase =
      match i with
      | .prio => .queue
      | .mkroot => .tree
      | .gencode => .ready
      | .enchdr _ _ => .enc
      | .encend => .ready
      | .decbegin => .dec
      | .decend => .ready
      | .reset => .scan
      | .status | .scan _ | .merge | .lookup _ | .currst | .step _ | .decbyte _ | .encpix _ => s.phase) ∧
    (t.phase = .scan → s.phase ≠ .scan → i = .reset))

/-! ## Errors -/

/-- 60_exceptions.md R170 to R172: which operation raises which error and when, what it records, and that the record is
latched. A CorruptStreamError records the node whose child selected by the bit is absent, the bit being STEP's operand or
one of DECBYTE's byte. -/
def Obligations.ErrorsLatchTheirCause : Prop :=
  ∀ (i : Instr) (s t : State) (c : Cause) (info : U64), exec i s = .next t → t.port.resp = some (.error c info) →
    t.phase = .fault ∧ t.err = some c ∧ t.einfo = info ∧
    match c with
    | .emptyInput => i = .prio ∧ s.dist = [] ∧ info = 0
    | .truncatedHeader => i = .decend ∧ s.dHb.toNat < 8 ∧ info.toNat = s.dHb.toNat
    | .dimensionMismatch => i = .decend ∧ 8 ≤ s.dHb.toNat ∧ 0 < s.dRem.toNat ∧ info = s.dIdx
    | .unknownSymbol =>
      ∃ px, i = .encpix px ∧ codeGet s.code (toStorage s.cfg px) = none ∧ info.toNat = (toStorage s.cfg px).toNat
    | .corruptStream =>
      t.cur = s.root ∧
      ∃ c1 n bit, (i = .step bit ∨ ∃ b, i = .decbyte b ∧ bit ∈ bitsOf b) ∧
        s.node[c1]? = some n ∧ childOf bit n = none ∧ info = BitVec.ofNat 64 c1

/-- 60_exceptions.md R178, R179: in FAULT nothing but the response changes until RESET. -/
def Obligations.FaultEndsOnlyWithReset : Prop :=
  ∀ (i : Instr) (s : State), s.phase = .fault → i ≠ .reset →
    ∃ r, exec i s = .next (saying r s) ∧ (i ≠ .status → r = .refused .wrongPhase)

/-! ## Frames (10_state.md R41) -/

/-- 10_state.md R41, the columns of the tables: an operation that the column does not mark leaves the table as it was. -/
def Obligations.TablesWrittenOnlyAsListed : Prop :=
  ∀ (i : Instr) (s t : State), exec i s = .next t →
    (writesDist i = false → t.dist = s.dist) ∧
    (writesNode i = false → t.node = s.node) ∧
    (writesPq i = false → t.pq = s.pq) ∧
    (writesCode i = false → t.code = s.code)

/-- 10_state.md R41, the columns of the registers, and R27 (`E_W` and `E_H` are written by ENCHDR only); `ERR` and `EINFO`
are written by an error, and cleared by RESET (R22). -/
def Obligations.RegistersWrittenOnlyAsListed : Prop :=
  ∀ (i : Instr) (s t : State), exec i s = .next t →
    (writesRoot i = false → t.root = s.root) ∧
    (writesCur i = false → t.cur = s.cur) ∧
    (writesNpix i = false → t.npix = s.npix) ∧
    (writesEncoder i = false → t.eRem = s.eRem ∧ t.eAcc = s.eAcc) ∧
    ((∀ w h, i ≠ .enchdr w h) → i ≠ .reset → t.eW = s.eW ∧ t.eH = s.eH) ∧
    (writesDecoder i = false →
      t.dHb = s.dHb ∧ t.dHdr = s.dHdr ∧ t.dW = s.dW ∧ t.dH = s.dH ∧ t.dRem = s.dRem ∧ t.dIdx = s.dIdx) ∧
    (i ≠ .reset → (∀ c info, t.port.resp ≠ some (.error c info)) → t.err = s.err ∧ t.einfo = s.einfo)

/-- 00_scope.md R14, R201, 20_memory.md R57: every operation answers, takes nothing back that was emitted, emits only
where its rule says so, and changes neither the configuration nor the commands still waiting. -/
def Obligations.OutputsOnlyGrow : Prop :=
  ∀ (i : Instr) (s t : State), exec i s = .next t →
    t.cfg = s.cfg ∧ t.port.cmds = s.port.cmds ∧ t.port.resp ≠ none ∧
    (∃ bs, t.port.bytesOut = s.port.bytesOut ++ bs ∧ (emitsBytes i = false → bs = [])) ∧
    (∃ ps, t.port.pixelsOut = s.port.pixelsOut ++ ps ∧ (writesPixels i = false → ps = []))

/-- 20_memory.md R62, 70_reset_and_hazards.md R196: once the code table is built no operation but RESET writes the tree,
the table or the distribution. -/
def Obligations.TreeImmutableInUse : Prop :=
  ∀ (i : Instr) (s t : State), treeInUse s.phase → i ≠ .reset → exec i s = .next t →
    t.node = s.node ∧ t.root = s.root ∧ t.code = s.code ∧ t.dist = s.dist

/-- The list that holds CODE stays in its canonical form (10_state.md R35; the form is the model's, log 7). -/
def Obligations.CodeTableStaysCanonical : Prop :=
  ∀ (i : Instr) (s t : State), codeWf s.code → exec i s = .next t → codeWf t.code

/-! ## Data formats -/

/-- 00_scope.md R13: the bits of a byte, the byte of eight bits, and the packing of bits. -/
def Obligations.BitsPackMostSignificantFirst : Prop :=
  (∀ b : Byte, bitsOf b = (List.range 8).map fun j => b.getLsbD (7 - j)) ∧
  (∀ s : Bits, s.length = 8 →
    (byteOf s).toNat = ((List.range 8).map fun j => ((s[j]?).getD false).toNat * 2 ^ (7 - j)).sum) ∧
  (∀ s : Bits, (pack s).length = (s.length + 7) / 8) ∧
  (∀ (s : Bits) (k : Nat) (b : Byte), (pack s)[k / 8]? = some b →
    b.getLsbD (7 - k % 8) = (s[k]?).getD false)

/-- 00_scope.md R12: big-endian assembly and emission of a `u32`, each the inverse of the other. -/
def Obligations.HeaderFieldsBigEndian : Prop :=
  (∀ b0 b1 b2 b3 : Byte,
    (be32 b0 b1 b2 b3).toNat = b0.toNat * 2 ^ 24 + b1.toNat * 2 ^ 16 + b2.toNat * 2 ^ 8 + b3.toNat) ∧
  (∀ v : U32, (be32bytes v).map BitVec.toNat =
    [v.toNat / 2 ^ 24, v.toNat / 2 ^ 16 % 2 ^ 8, v.toNat / 2 ^ 8 % 2 ^ 8, v.toNat % 2 ^ 8]) ∧
  (∀ (v : U32) (b0 b1 b2 b3 : Byte), be32bytes v = [b0, b1, b2, b3] → be32 b0 b1 b2 b3 = v)

/-- 00_scope.md R15: the two inverse laws for every configuration, and the rotations of the default order. -/
def Obligations.ChannelPermutationsInverse : Prop :=
  ∀ (c : Config) (v : U32),
    toNative c (toStorage c v) = v ∧ toStorage c (toNative c v) = v ∧
    (c.order = .argb →
      (toStorage c v).toNat = v.toNat * 2 ^ 8 % 2 ^ 32 + v.toNat / 2 ^ 24 ∧
      (toNative c v).toNat = v.toNat / 2 ^ 8 + v.toNat % 2 ^ 8 * 2 ^ 24)

/-! ## The system operations -/

/-- 10_state.md R40: the reset values, and that RESET leaves the same. The configuration and the port are the model's own
(log 1, 3, 4). -/
def Obligations.ResetValues : Prop :=
  State.reset.phase.code = 0 ∧ errCode State.reset.err = 0 ∧ State.reset.einfo = 0 ∧ State.reset.root = none ∧
  State.reset.cur = none ∧ State.reset.npix = 0 ∧ State.reset.eW = 0 ∧ State.reset.eH = 0 ∧ State.reset.eRem = 0 ∧
  State.reset.eAcc = [] ∧ State.reset.dHb = 0 ∧ State.reset.dHdr = [] ∧ State.reset.dW = 0 ∧ State.reset.dH = 0 ∧
  State.reset.dRem = 0 ∧ State.reset.dIdx = 0 ∧ State.reset.dist = [] ∧ State.reset.node = [] ∧
  State.reset.pq = [] ∧ (∀ sym, codeGet State.reset.code sym = none) ∧
  ∀ s : State, exec .reset s = answered .nothing { State.reset with cfg := s.cfg, port := s.port }

/-- 46_system.md R160, 70_reset_and_hazards.md R191: RESET has a step in every state and reaches the reset state; what was
emitted stays emitted. -/
def Obligations.ResetReachesResetState : Prop :=
  ∀ s : State, exec .reset s = answered .nothing
    { cfg := s.cfg, phase := .scan, err := none, einfo := 0, root := none, cur := none, npix := 0,
      eW := 0, eH := 0, eRem := 0, eAcc := [], dHb := 0, dHdr := [], dW := 0, dH := 0, dRem := 0, dIdx := 0,
      dist := [], node := [], pq := [], code := [], port := s.port }

/-- 46_system.md R161: STATUS has a step in every state, answers the registers and writes none. -/
def Obligations.StatusReadsRegisters : Prop :=
  ∀ s : State, exec .status s = answered
    (.status
      { phase := s.phase.code
        err :=
          match s.err with
          | none => 0
          | some .emptyInput => 1
          | some .truncatedHeader => 2
          | some .dimensionMismatch => 3
          | some .unknownSymbol => 4
          | some .corruptStream => 5
        einfo := s.einfo, npix := s.npix, lenDist := s.dist.length, lenNode := s.node.length, lenPq := s.pq.length,
        root := s.root, cur := s.cur, eW := s.eW, eH := s.eH, eRem := s.eRem, lenEAcc := s.eAcc.length, dHb := s.dHb,
        dW := s.dW, dH := s.dH, dRem := s.dRem, dIdx := s.dIdx }) s

/-! ## The frequency counter -/

/-- 40_distribution.md R100: SCAN, with its three refusals. -/
def Obligations.ScanCountsOnePixel : Prop :=
  ∀ (px : U32) (s : State),
    (s.phase ≠ .scan → exec (.scan px) s = refusedWith .wrongPhase s) ∧
    (s.phase = .scan → s.npix.toNat = 2 ^ 64 - 1 → exec (.scan px) s = refusedWith .countOverflow s) ∧
    (s.phase = .scan → s.npix.toNat ≠ 2 ^ 64 - 1 →
      ((∀ e ∈ s.dist, e.symbol ≠ toStorage s.cfg px) → s.dist.length = s.cfg.maxSyms →
        exec (.scan px) s = refusedWith .capacity s) ∧
      ((∀ e ∈ s.dist, e.symbol ≠ toStorage s.cfg px) → s.dist.length ≠ s.cfg.maxSyms →
        exec (.scan px) s = answered .nothing
          { s with
            dist := s.dist ++ [{ symbol := toStorage s.cfg px, count := 1 }]
            npix := BitVec.ofNat 64 (s.npix.toNat + 1) }) ∧
      (∀ (before after : List DistEntry) (e : DistEntry), s.dist = before ++ e :: after →
        e.symbol = toStorage s.cfg px → (∀ e' ∈ before, e'.symbol ≠ toStorage s.cfg px) →
        e.count.toNat < 2 ^ 64 - 1 →
        exec (.scan px) s = answered .nothing
          { s with
            dist := before ++ { e with count := BitVec.ofNat 64 (e.count.toNat + 1) } :: after
            npix := BitVec.ofNat 64 (s.npix.toNat + 1) }))

/-- 40_distribution.md R101: PRIO, with its error. -/
def Obligations.PrioQueuesOneLeafPerSymbol : Prop :=
  ∀ s : State,
    (s.phase ≠ .scan → exec .prio s = refusedWith .wrongPhase s) ∧
    (s.phase = .scan → s.dist = [] → exec .prio s = failed .emptyInput 0 s) ∧
    (s.phase = .scan → s.dist ≠ [] → s.node = [] →
      ∃ (nodes : List NodeRec) (pq : List Nat) (records : List NodeRec),
        nodes = s.dist.map (fun e => { symbol := e.symbol, frequency := e.count, left := none, right := none }) ∧
        pq.Perm (List.range s.dist.length) ∧ pq.Pairwise (keyBefore nodes) ∧
        records.map some = pq.map (fun k => nodes[k]?) ∧
        exec .prio s = answered (.queue pq records) { s with node := nodes, pq := pq, phase := .queue })

/-! ## The tree builder -/

/-- 41_tree_builder.md R110: MERGE, with its refusals; in a sorted queue the merged node goes behind every entry of equal
frequency and the queue stays sorted. -/
def Obligations.MergeJoinsTwoLowest : Prop :=
  ∀ s : State,
    (s.phase ≠ .queue → exec .merge s = refusedWith .wrongPhase s) ∧
    (s.phase = .queue → s.pq.length < 2 → exec .merge s = refusedWith .queueTooShort s) ∧
    (∀ (a b : Nat) (rest : List Nat) (na nb : NodeRec), s.phase = .queue → s.pq = a :: b :: rest →
      s.node[a]? = some na → s.node[b]? = some nb → (∀ k ∈ rest, k < s.node.length) →
      s.pq.Pairwise (keyBefore s.node) → na.frequency.toNat + nb.frequency.toNat < 2 ^ 64 →
      ∃ (record : NodeRec) (lower upper : List Nat),
        record = { symbol := 0, frequency := BitVec.ofNat 64 (na.frequency.toNat + nb.frequency.toNat),
                   left := some a, right := some b } ∧
        rest = lower ++ upper ∧
        (∀ k ∈ lower, freqAt s.node k ≤ na.frequency.toNat + nb.frequency.toNat) ∧
        (∀ k ∈ upper, na.frequency.toNat + nb.frequency.toNat < freqAt s.node k) ∧
        (lower ++ s.node.length :: upper).Pairwise (keyBefore (s.node ++ [record])) ∧
        exec .merge s = answered (.node s.node.length record)
          { s with node := s.node ++ [record], pq := lower ++ s.node.length :: upper })

/-- 41_tree_builder.md R111: MKROOT, with its refusals; the root is the node of highest index. -/
def Obligations.MkrootTakesTheLastNode : Prop :=
  ∀ s : State,
    (s.phase ≠ .queue → exec .mkroot s = refusedWith .wrongPhase s) ∧
    (s.phase = .queue → s.pq.length ≠ 1 → exec .mkroot s = refusedWith .queueNotSingle s) ∧
    (∀ (k : Nat) (n : NodeRec), s.phase = .queue → s.pq = [k] → s.node[k]? = some n →
      exec .mkroot s = answered (.node k n) { s with root := some k, cur := some k, pq := [], phase := .tree } ∧
      (Inv s → k = s.node.length - 1))

/-! ## The code table -/

/-- 42_code_table.md R120: after GENCODE the code of a symbol is the path from the root to its leaf, and no other symbol
has a code. That the pairs are listed by rising symbol (`codeWf`) is the model's choice (log 7); R120 gives them no
order. -/
def Obligations.GencodeMapsSymbolsToPaths : Prop :=
  ∀ s : State,
    (s.phase ≠ .tree → exec .gencode s = refusedWith .wrongPhase s) ∧
    (Inv s → s.phase = .tree →
      ∃ (r : Nat) (pairs : List (Symbol × Bits)), s.root = some r ∧ codeWf pairs ∧
        (∀ (sym : Symbol) (bits : Bits), (sym, bits) ∈ pairs ↔
          ∃ k n, follow s.node r bits = some k ∧ s.node[k]? = some n ∧ leafRecord n ∧ n.symbol = sym) ∧
        exec .gencode s = answered (.codes pairs) { s with code := pairs, phase := .ready })

/-- 42_code_table.md R121: LOOKUP; a miss is an answer. With a built tree the table hits exactly the scanned symbols, and
with the empty code exactly in a tree of one leaf. -/
def Obligations.LookupReadsTheTable : Prop :=
  ∀ (sym : Symbol) (s : State),
    (s.phase ≠ .ready → exec (.lookup sym) s = refusedWith .wrongPhase s) ∧
    (s.phase = .ready → codeWf s.code →
      (∀ bits, (sym, bits) ∈ s.code → exec (.lookup sym) s = answered (.hit bits) s) ∧
      ((∀ bits, (sym, bits) ∉ s.code) → exec (.lookup sym) s = answered .miss s)) ∧
    (Inv s → s.phase = .ready →
      ((∃ bits, (sym, bits) ∈ s.code) ↔ ∃ e ∈ s.dist, e.symbol = sym) ∧
      ((sym, []) ∈ s.code → s.dist.length = 1) ∧
      (∀ e, s.dist = [e] → e.symbol = sym → (sym, []) ∈ s.code))

/-- 42_code_table.md R122: no code is a prefix of another, and distinct symbols have distinct codes. -/
def Obligations.CodesPrefixFree : Prop :=
  ∀ s : State, Inv s → ∀ p ∈ s.code, ∀ q ∈ s.code, p.1 ≠ q.1 → ¬ p.2 <+: q.2 ∧ p.2 ≠ q.2

/-- 42_code_table.md R123: the lengths of the codes, and that the code is complete. -/
def Obligations.CodeLengthsComplete : Prop :=
  ∀ s : State, Inv s → treeInUse s.phase →
    s.code.length = s.dist.length ∧
    (s.dist.length = 1 → ∀ p ∈ s.code, p.2.length = 0) ∧
    (2 ≤ s.dist.length → ∀ p ∈ s.code, 1 ≤ p.2.length ∧ p.2.length ≤ s.dist.length - 1) ∧
    (s.code.map fun p => ((1 : ℚ) / 2) ^ p.2.length).sum = 1

/-! ## The automaton -/

/-- 43_automaton.md R131: CURRST. -/
def Obligations.CurrstSetsCursorToRoot : Prop :=
  ∀ s : State,
    (s.phase ≠ .ready → exec .currst s = refusedWith .wrongPhase s) ∧
    (s.phase = .ready → exec .currst s = answered .nothing { s with cur := s.root })

/-- 43_automaton.md R130, R132: STEP. From a leaf the bit is applied at the root; a missing child sets the cursor to the
root and raises CorruptStreamError, which in a built tree of two or more leaves never happens. -/
def Obligations.StepMovesTheCursor : Prop :=
  (∀ (bit : Bit) (s : State), s.phase ≠ .ready → exec (.step bit) s = refusedWith .wrongPhase s) ∧
  (∀ (bit : Bit) (s : State) (c r c1 : Nat) (nc n1 : NodeRec), s.phase = .ready → s.cur = some c → s.root = some r →
    s.node[c]? = some nc → (leafRecord nc → c1 = r) → (¬ leafRecord nc → c1 = c) → s.node[c1]? = some n1 →
    (∀ (k : Nat) (n : NodeRec), childOf bit n1 = some k → s.node[k]? = some n →
      exec (.step bit) s = answered (.moved k n (decide (leafRecord n))) { s with cur := some k }) ∧
    (childOf bit n1 = none →
      exec (.step bit) s = failed .corruptStream (BitVec.ofNat 64 c1) { s with cur := s.root })) ∧
  (∀ (bit : Bit) (s t : State) (c : Cause) (info : U64), Inv s → s.phase = .ready → 2 ≤ s.dist.length →
    exec (.step bit) s = .next t → t.port.resp ≠ some (.error c info))

/-- 43_automaton.md R133: with two or more leaves no STEP ever raises CorruptStreamError. -/
def Obligations.AutomatonTotalOnBuiltTrees : Prop :=
  ∀ (bit : Bit) (s : State), Inv s → s.phase = .ready → 2 ≤ s.dist.length →
    ∃ k n, s.node[k]? = some n ∧
      exec (.step bit) s = answered (.moved k n (decide (leafRecord n))) { s with cur := some k }

/-- 43_automaton.md R134: the bits of a code, one per STEP, reach the symbol's leaf at the last bit and no leaf before. -/
def Obligations.StepsFollowOneCode : Prop :=
  ∀ (s : State) (sym : Symbol) (bits : Bits) (c : Nat) (nc : NodeRec), Inv s → s.phase = .ready → s.cur = some c →
    s.node[c]? = some nc → (s.root = some c ∨ leafRecord nc) → (sym, bits) ∈ s.code → bits ≠ [] →
    (∃ t k n, runPrims (bits.map .step) s = .next t ∧ t.port.resp = some (.ok (.moved k n true)) ∧ n.symbol = sym ∧
      t.cur = some k) ∧
    (∀ shorter, shorter <+: bits → shorter ≠ [] → shorter ≠ bits →
      ∃ t k n, runPrims (shorter.map .step) s = .next t ∧ t.port.resp = some (.ok (.moved k n false)))

/-! ## The decoder -/

/-- 44_decoder.md R140: DECBEGIN. -/
def Obligations.DecbeginOpensSession : Prop :=
  ∀ s : State,
    (s.phase ≠ .ready → exec .decbegin s = refusedWith .wrongPhase s) ∧
    (s.phase = .ready → exec .decbegin s = answered .nothing
      { s with dHb := 0, dHdr := [], dW := 0, dH := 0, dRem := 0, dIdx := 0, cur := s.root, phase := .dec })

/-- 44_decoder.md R141, the header: seven bytes are kept; the eighth gives the dimensions and the pixel count, and with a
leaf as root writes every pixel at once. -/
def Obligations.DecbyteTakesHeader : Prop :=
  ∀ (b : Byte) (s : State) (r : Nat),
    (s.phase ≠ .dec → exec (.decbyte b) s = refusedWith .wrongPhase s) ∧
    (s.phase = .dec → s.root = some r → s.dHb.toNat < 7 →
      exec (.decbyte b) s = answered (.pixels [])
        { s with dHdr := s.dHdr ++ [b], dHb := BitVec.ofNat 4 (s.dHb.toNat + 1) }) ∧
    (∀ (b0 b1 b2 b3 b4 b5 b6 : Byte) (n : NodeRec) (w h : U32), s.phase = .dec → s.root = some r →
      s.node[r]? = some n → s.dHb.toNat = 7 → s.dHdr = [b0, b1, b2, b3, b4, b5, b6] →
      w.toNat = b0.toNat * 2 ^ 24 + b1.toNat * 2 ^ 16 + b2.toNat * 2 ^ 8 + b3.toNat →
      h.toNat = b4.toNat * 2 ^ 24 + b5.toNat * 2 ^ 16 + b6.toNat * 2 ^ 8 + b.toNat →
      (¬ leafRecord n →
        exec (.decbyte b) s = answered (.pixels [])
          { s with dHdr := s.dHdr ++ [b], dHb := 8, dW := w, dH := h, dIdx := 0,
                   dRem := BitVec.ofNat 64 (w.toNat * h.toNat) }) ∧
      (leafRecord n →
        ∃ ps, pixelWrites ps = (List.range (w.toNat * h.toNat)).map (fun i =>
            (i % w.toNat, i / w.toNat, toNative s.cfg n.symbol)) ∧
          exec (.decbyte b) s = answered (.pixels ps) (drawing ps
            { s with dHdr := s.dHdr ++ [b], dHb := 8, dW := w, dH := h,
                     dIdx := BitVec.ofNat 64 (w.toNat * h.toNat), dRem := 0 })))

/-- 44_decoder.md R141, a body byte: with no pixel left it changes nothing; otherwise, in a state that a run reaches, it
never fails, feeds its bits to the automaton, most significant first, until none or no pixel is left, writes one pixel per
leaf reached, at the next positions, in the native colour of the leaf, which is that of a scanned symbol, and moves only
the cursor and the two counters. -/
def Obligations.DecbyteWritesNextPixels : Prop :=
  ∀ (b : Byte) (s : State),
    (∀ r, s.phase = .dec → s.root = some r → 8 ≤ s.dHb.toNat → s.dRem = 0 →
      exec (.decbyte b) s = answered (.pixels []) s) ∧
    (Inv s → s.phase = .dec → 8 ≤ s.dHb.toNat → s.dRem ≠ 0 →
      ∃ (r c k : Nat) (fed skipped : Bits) (ps : List PixelRun) (vs : List U32),
        s.root = some r ∧ s.cur = some c ∧ bitsOf b = fed ++ skipped ∧ Feeds s r c s.dRem.toNat fed k vs ∧
        (skipped ≠ [] → vs.length = s.dRem.toNat) ∧
        vs.length ≤ 8 ∧ vs.length ≤ s.dRem.toNat ∧ k < s.node.length ∧
        (∀ v ∈ vs, ∃ e ∈ s.dist, v = toNative s.cfg e.symbol) ∧
        pixelWrites ps = placedFrom s.dIdx.toNat s.dW.toNat vs ∧
        exec (.decbyte b) s = answered (.pixels ps) (drawing ps
          { s with cur := some k, dIdx := BitVec.ofNat 64 (s.dIdx.toNat + vs.length),
                   dRem := BitVec.ofNat 64 (s.dRem.toNat - vs.length) }))

/-- 60_exceptions.md R175, 44_decoder.md R141: DECBYTE fails exactly at a bit that selects an absent child, with that
child's parent as EINFO. The pixels of the bits before it are written, at the next positions and in the colours of the
leaves reached, and counted; the failing bit has only the effect CUR <- ROOT, and the bits after it have none. A D_IDX so
high that the count would leave 64 bits is in no state that a run reaches (R16, log 8). -/
def Obligations.CorruptByteKeepsEarlierPixels : Prop :=
  ∀ (b : Byte) (s : State),
    (∀ (t : State) (c : Cause) (info : U64), exec (.decbyte b) s = .next t → t.port.resp = some (.error c info) →
      c = .corruptStream ∧ ∃ vs c1, failsInByte s b vs c1 ∧ info = BitVec.ofNat 64 c1) ∧
    (∀ (vs : List U32) (c1 : Nat), failsInByte s b vs c1 → s.dIdx.toNat + vs.length < 2 ^ 64 →
      vs.length < 8 ∧
      ∃ ps : List PixelRun, pixelWrites ps = placedFrom s.dIdx.toNat s.dW.toNat vs ∧
        exec (.decbyte b) s = failed .corruptStream (BitVec.ofNat 64 c1) (drawing ps
          { s with cur := s.root, dIdx := BitVec.ofNat 64 (s.dIdx.toNat + vs.length),
                   dRem := BitVec.ofNat 64 (s.dRem.toNat - vs.length) }))

/-- 44_decoder.md R142: DECEND, with its two errors. -/
def Obligations.DecendClosesSession : Prop :=
  ∀ s : State,
    (s.phase ≠ .dec → exec .decend s = refusedWith .wrongPhase s) ∧
    (s.phase = .dec → s.dHb.toNat < 8 →
      exec .decend s = failed .truncatedHeader (BitVec.ofNat 64 s.dHb.toNat) s) ∧
    (s.phase = .dec → 8 ≤ s.dHb.toNat → s.dRem ≠ 0 → exec .decend s = failed .dimensionMismatch s.dIdx s) ∧
    (s.phase = .dec → 8 ≤ s.dHb.toNat → s.dRem = 0 →
      exec .decend s = answered (.size s.dW s.dH) { s with phase := .ready })

/-! ## The encoder -/

/-- 45_encoder.md R150: ENCHDR. -/
def Obligations.EnchdrEmitsHeader : Prop :=
  ∀ (w h : U32) (s : State),
    (s.phase ≠ .ready → exec (.enchdr w h) s = refusedWith .wrongPhase s) ∧
    (s.phase = .ready →
      ∃ bs : List Byte,
        bs.map BitVec.toNat =
          [w.toNat / 2 ^ 24, w.toNat / 2 ^ 16 % 2 ^ 8, w.toNat / 2 ^ 8 % 2 ^ 8, w.toNat % 2 ^ 8,
           h.toNat / 2 ^ 24, h.toNat / 2 ^ 16 % 2 ^ 8, h.toNat / 2 ^ 8 % 2 ^ 8, h.toNat % 2 ^ 8] ∧
        exec (.enchdr w h) s = answered (.bytes bs) (emitting bs
          { s with eW := w, eH := h, eRem := BitVec.ofNat 64 (w.toNat * h.toNat), eAcc := [], phase := .enc }))

/-- 45_encoder.md R151: ENCPIX, with its refusals and its error. The bytes that leave and the bits that stay are, in
order, the pending bits and the code. -/
def Obligations.EncpixAppendsOneCode : Prop :=
  ∀ (px : U32) (s : State),
    (s.phase ≠ .enc → exec (.encpix px) s = refusedWith .wrongPhase s) ∧
    (s.phase = .enc → s.eRem = 0 → exec (.encpix px) s = refusedWith .countExhausted s) ∧
    (s.phase = .enc → s.eRem ≠ 0 → codeWf s.code → (∀ bits, (toStorage s.cfg px, bits) ∉ s.code) →
      exec (.encpix px) s = failed .unknownSymbol (BitVec.ofNat 64 (toStorage s.cfg px).toNat) s) ∧
    (∀ bits, s.phase = .enc → s.eRem ≠ 0 → codeWf s.code → (toStorage s.cfg px, bits) ∈ s.code →
      ∃ (bs : List Byte) (acc : Bits),
        bs.flatMap bitsOf ++ acc = s.eAcc ++ bits ∧ acc.length < 8 ∧
        exec (.encpix px) s = answered (.bytes bs) (emitting bs
          { s with eAcc := acc, eRem := BitVec.ofNat 64 (s.eRem.toNat - 1) }))

/-- 45_encoder.md R152: ENCEND, with its refusals; the pending bits take the high-order positions of the last byte. -/
def Obligations.EncendPadsLastByte : Prop :=
  ∀ s : State,
    (s.phase ≠ .enc → exec .encend s = refusedWith .wrongPhase s) ∧
    (s.phase = .enc → s.eRem ≠ 0 → exec .encend s = refusedWith .countNotExhausted s) ∧
    (s.phase = .enc → s.eRem = 0 → s.eAcc = [] →
      exec .encend s = answered (.bytes []) { s with phase := .ready }) ∧
    (s.phase = .enc → s.eRem = 0 → s.eAcc ≠ [] → s.eAcc.length ≤ 7 →
      ∃ b : Byte, bitsOf b = s.eAcc ++ List.replicate (8 - s.eAcc.length) false ∧
        exec .encend s = answered (.bytes [b]) (emitting [b] { s with eAcc := [], phase := .ready }))

/-! ## The invariant of every run -/

/-- 10_state.md R37, R40: the invariant holds after reset, with any configuration. -/
def Obligations.InvariantHoldsAtReset : Prop :=
  Inv State.reset ∧ ∀ c : Config, c.wellFormed = true → Inv { State.reset with cfg := c }

/-- 10_state.md R36, R37: every step keeps the invariant, whatever the host has issued. -/
def Obligations.StepKeepsInvariant : Prop :=
  ∀ s t : State, Inv s → step s = .next t → Inv t

/-- 00_scope.md R14, 10_state.md R36: in a state of the invariant every operation answers; the model's own stops lie
outside. -/
def Obligations.OperationsAlwaysAnswer : Prop :=
  ∀ (i : Instr) (s : State), Inv s → ∃ t, exec i s = .next t

/-- 70_reset_and_hazards.md R200 "always terminate", R201: whatever a host issues, from reset and with any configuration,
the block never stops, and the invariant holds all along. -/
def Obligations.ReachableStatesRunOn : Prop :=
  ∀ s : State, Reachable s → Inv s ∧ ∃ t, step s = .next t

/-- 00_scope.md R9, 20_memory.md R59: the tables never outgrow their capacities, and no code is longer than
`MAX_CODE_LEN`. -/
def Obligations.TablesWithinCapacity : Prop :=
  ∀ s : State, Inv s →
    s.dist.length ≤ s.cfg.maxSyms ∧ s.node.length ≤ s.cfg.nodeCap ∧ s.pq.length ≤ s.dist.length ∧
    (∀ k, s.root = some k ∨ s.cur = some k ∨ k ∈ s.pq → k < s.node.length) ∧
    ∀ p ∈ s.code, p.2.length ≤ s.cfg.maxCodeLen

/-! ## The macro-operations and the laws of the codec -/

/-- 30_encoding.md R87: a sequence stops at the first primitive that does not answer `ok`, with its answer and its
outputs; otherwise it goes on from the state that primitive leaves. -/
def Obligations.SequencesStopAtFirstFailure : Prop :=
  ∀ (i : Instr) (is : List Instr) (s t : State), exec i s = .next t →
    ((∃ out, t.port.resp = some (.ok out)) → runPrims (i :: is) s = runPrims is t) ∧
    ((∀ out, t.port.resp ≠ some (.ok out)) → runPrims (i :: is) s = .next t)

/-- 40_distribution.md R103: what SCANALL from reset leaves. -/
def Obligations.ScanallCountsCorpus : Prop :=
  ∀ (c : Config) (ps : List U32), c.wellFormed = true → ps.length < 2 ^ 64 →
    (ps.map (toStorage c)).dedup.length ≤ c.maxSyms →
    ∃ t, runMacro (.scanall ps) { State.reset with cfg := c } = .next t ∧
      t.port.resp = some (.ok .nothing) ∧ t.phase = .scan ∧ t.npix.toNat = ps.length ∧
      (t.dist.map DistEntry.symbol).Nodup ∧
      (∀ sym, (∃ e ∈ t.dist, e.symbol = sym) ↔ sym ∈ ps.map (toStorage c)) ∧
      (∀ e ∈ t.dist, e.count.toNat = (ps.map (toStorage c)).count e.symbol) ∧
      (t.dist.map DistEntry.symbol).Pairwise
        (fun a b => (ps.map (toStorage c)).idxOf a < (ps.map (toStorage c)).idxOf b)

/-- 41_tree_builder.md R112, R113: what BUILD leaves. -/
def Obligations.BuildMakesOneTree : Prop :=
  ∀ s : State, Inv s → s.phase = .scan →
    (s.dist = [] → runMacro .build s = failed .emptyInput 0 s) ∧
    (s.dist ≠ [] →
      ∃ (t : State) (pairs : List (Symbol × Bits)), runMacro .build s = .next t ∧
        t.port.resp = some (.ok (.codes pairs)) ∧ t.phase = .ready ∧ t.code = pairs ∧
        t.dist = s.dist ∧ t.npix = s.npix ∧ t.node.length = 2 * s.dist.length - 1 ∧
        t.node.take s.dist.length = s.dist.map leafOf ∧
        t.root = some (2 * s.dist.length - 2) ∧ t.cur = t.root ∧
        freqAt t.node (2 * s.dist.length - 2) = s.npix.toNat ∧
        (∀ k n, s.dist.length ≤ k → t.node[k]? = some n →
          ∃ l r, n.left = some l ∧ n.right = some r ∧ l < k ∧ r < k ∧ n.symbol = 0 ∧
            n.frequency.toNat = freqAt t.node l + freqAt t.node r) ∧
        (∀ j k, s.dist.length ≤ j → j ≤ k → k < t.node.length → freqAt t.node j ≤ freqAt t.node k))

/-- 41_tree_builder.md R114: the tree and the codes are a function of DIST alone. -/
def Obligations.BuildDependsOnDistAlone : Prop :=
  ∀ s s' t t' : State, Inv s → Inv s' → s.phase = .scan → s'.phase = .scan → s.dist = s'.dist →
    runMacro .build s = .next t → runMacro .build s' = .next t' →
    t.node = t'.node ∧ t.root = t'.root ∧ t.code = t'.code

/-- 44_decoder.md R144: DECODE of a file whose body begins with the codes of `syms`; with fewer codes than pixels, and no
further code, the file is too short. -/
def Obligations.DecodeReadsCodesInOrder : Prop :=
  ∀ (s : State) (w h : U32) (body : List Byte) (syms : List Symbol) (rest : Bits),
    Inv s → s.phase = .ready → 2 ≤ s.dist.length → (∀ x ∈ syms, ∃ e ∈ s.dist, e.symbol = x) →
    body.flatMap bitsOf = codesOf s.code syms ++ rest → syms.length ≤ w.toNat * h.toNat →
    (syms.length < w.toNat * h.toNat → ∀ p ∈ s.code, ¬ p.2 <+: rest) →
    ∃ (t : State) (ps : List PixelRun), runMacro (.decode (headerBytes w h ++ body)) s = .next t ∧
      t.port.pixelsOut = s.port.pixelsOut ++ ps ∧
      pixelWrites ps = rowMajor w (syms.map (toNative s.cfg)) ∧
      (syms.length = w.toNat * h.toNat → t.port.resp = some (.ok (.size w h)) ∧ t.phase = .ready) ∧
      (syms.length < w.toNat * h.toNat →
        t.port.resp = some (.error .dimensionMismatch (BitVec.ofNat 64 syms.length)) ∧ t.phase = .fault)

/-- 44_decoder.md R145: DECODE with a tree of one leaf reads no body. -/
def Obligations.DecodeOneColourIgnoresBody : Prop :=
  ∀ (s : State) (w h : U32) (body : List Byte) (e : DistEntry), Inv s → s.phase = .ready → s.dist = [e] →
    ∃ (t : State) (ps : List PixelRun), runMacro (.decode (headerBytes w h ++ body)) s = .next t ∧
      t.port.resp = some (.ok (.size w h)) ∧ t.port.pixelsOut = s.port.pixelsOut ++ ps ∧
      pixelWrites ps = rowMajor w (List.replicate (w.toNat * h.toNat) (toNative s.cfg e.symbol))

/-- 44_decoder.md R146: a file of fewer than eight bytes. -/
def Obligations.DecodeShortFileFails : Prop :=
  ∀ (s : State) (bytes : List Byte), Inv s → s.phase = .ready → bytes.length < 8 →
    ∃ t, runMacro (.decode bytes) s = .next t ∧
      t.port.resp = some (.error .truncatedHeader (BitVec.ofNat 64 bytes.length)) ∧
      t.port.pixelsOut = s.port.pixelsOut

/-- 45_encoder.md R154, R155: the file that ENCODE emits, and its length. -/
def Obligations.EncodeEmitsPackedCodes : Prop :=
  ∀ (s : State) (w h : U32) (ps : List U32), Inv s → s.phase = .ready → ps.length = w.toNat * h.toNat →
    (∀ p ∈ ps, ∃ e ∈ s.dist, e.symbol = toStorage s.cfg p) →
    ∃ (t : State) (file : List Byte), runMacro (.encode w h ps) s = .next t ∧ t.phase = .ready ∧
      (∃ out, t.port.resp = some (.ok out)) ∧
      t.port.bytesOut = s.port.bytesOut ++ file ∧
      file = headerBytes w h ++ pack (codesOf s.code (ps.map (toStorage s.cfg))) ∧
      file.length = 8 + ((codesOf s.code (ps.map (toStorage s.cfg))).length + 7) / 8

/-- 45_encoder.md R156: DECODE of the result of ENCODE writes exactly the pixels that were encoded, in order. -/
def Obligations.DecodeOfEncodeIsTheImage : Prop :=
  ∀ (s : State) (w h : U32) (ps : List U32), Inv s → s.phase = .ready → ps.length = w.toNat * h.toNat →
    (∀ p ∈ ps, ∃ e ∈ s.dist, e.symbol = toStorage s.cfg p) →
    ∃ (t u : State) (file : List Byte) (writes : List PixelRun), runMacro (.encode w h ps) s = .next t ∧
      t.port.bytesOut = s.port.bytesOut ++ file ∧
      runMacro (.decode file) t = .next u ∧ u.port.resp = some (.ok (.size w h)) ∧
      u.port.pixelsOut = t.port.pixelsOut ++ writes ∧ pixelWrites writes = rowMajor w ps
end

