-- ==== Sys2Proof/Laws/State.lean ====
section
/-! SUPPORT. One lemma per field of the state and per named update of it, true by unfolding, so that no later proof
unfolds an update. -/

namespace Sys2Proof.Machine

variable (s : State)

/-! ## respond -/
@[simp] theorem respond_cfg (r : Response) : (respond r s).cfg = s.cfg := rfl
@[simp] theorem respond_phase (r : Response) : (respond r s).phase = s.phase := rfl
@[simp] theorem respond_err (r : Response) : (respond r s).err = s.err := rfl
@[simp] theorem respond_einfo (r : Response) : (respond r s).einfo = s.einfo := rfl
@[simp] theorem respond_root (r : Response) : (respond r s).root = s.root := rfl
@[simp] theorem respond_cur (r : Response) : (respond r s).cur = s.cur := rfl
@[simp] theorem respond_npix (r : Response) : (respond r s).npix = s.npix := rfl
@[simp] theorem respond_eW (r : Response) : (respond r s).eW = s.eW := rfl
@[simp] theorem respond_eH (r : Response) : (respond r s).eH = s.eH := rfl
@[simp] theorem respond_eRem (r : Response) : (respond r s).eRem = s.eRem := rfl
@[simp] theorem respond_eAcc (r : Response) : (respond r s).eAcc = s.eAcc := rfl
@[simp] theorem respond_dHb (r : Response) : (respond r s).dHb = s.dHb := rfl
@[simp] theorem respond_dHdr (r : Response) : (respond r s).dHdr = s.dHdr := rfl
@[simp] theorem respond_dW (r : Response) : (respond r s).dW = s.dW := rfl
@[simp] theorem respond_dH (r : Response) : (respond r s).dH = s.dH := rfl
@[simp] theorem respond_dRem (r : Response) : (respond r s).dRem = s.dRem := rfl
@[simp] theorem respond_dIdx (r : Response) : (respond r s).dIdx = s.dIdx := rfl
@[simp] theorem respond_dist (r : Response) : (respond r s).dist = s.dist := rfl
@[simp] theorem respond_node (r : Response) : (respond r s).node = s.node := rfl
@[simp] theorem respond_pq (r : Response) : (respond r s).pq = s.pq := rfl
@[simp] theorem respond_code (r : Response) : (respond r s).code = s.code := rfl
@[simp] theorem respond_cmds (r : Response) : (respond r s).port.cmds = s.port.cmds := rfl
@[simp] theorem respond_resp (r : Response) : (respond r s).port.resp = some r := rfl
@[simp] theorem respond_bytesOut (r : Response) : (respond r s).port.bytesOut = s.port.bytesOut := rfl
@[simp] theorem respond_pixelsOut (r : Response) : (respond r s).port.pixelsOut = s.port.pixelsOut := rfl

/-! ## byteOut -/
@[simp] theorem byteOut_cfg (bs : List Byte) : (byteOut bs s).cfg = s.cfg := rfl
@[simp] theorem byteOut_phase (bs : List Byte) : (byteOut bs s).phase = s.phase := rfl
@[simp] theorem byteOut_err (bs : List Byte) : (byteOut bs s).err = s.err := rfl
@[simp] theorem byteOut_einfo (bs : List Byte) : (byteOut bs s).einfo = s.einfo := rfl
@[simp] theorem byteOut_root (bs : List Byte) : (byteOut bs s).root = s.root := rfl
@[simp] theorem byteOut_cur (bs : List Byte) : (byteOut bs s).cur = s.cur := rfl
@[simp] theorem byteOut_npix (bs : List Byte) : (byteOut bs s).npix = s.npix := rfl
@[simp] theorem byteOut_eW (bs : List Byte) : (byteOut bs s).eW = s.eW := rfl
@[simp] theorem byteOut_eH (bs : List Byte) : (byteOut bs s).eH = s.eH := rfl
@[simp] theorem byteOut_eRem (bs : List Byte) : (byteOut bs s).eRem = s.eRem := rfl
@[simp] theorem byteOut_eAcc (bs : List Byte) : (byteOut bs s).eAcc = s.eAcc := rfl
@[simp] theorem byteOut_dHb (bs : List Byte) : (byteOut bs s).dHb = s.dHb := rfl
@[simp] theorem byteOut_dHdr (bs : List Byte) : (byteOut bs s).dHdr = s.dHdr := rfl
@[simp] theorem byteOut_dW (bs : List Byte) : (byteOut bs s).dW = s.dW := rfl
@[simp] theorem byteOut_dH (bs : List Byte) : (byteOut bs s).dH = s.dH := rfl
@[simp] theorem byteOut_dRem (bs : List Byte) : (byteOut bs s).dRem = s.dRem := rfl
@[simp] theorem byteOut_dIdx (bs : List Byte) : (byteOut bs s).dIdx = s.dIdx := rfl
@[simp] theorem byteOut_dist (bs : List Byte) : (byteOut bs s).dist = s.dist := rfl
@[simp] theorem byteOut_node (bs : List Byte) : (byteOut bs s).node = s.node := rfl
@[simp] theorem byteOut_pq (bs : List Byte) : (byteOut bs s).pq = s.pq := rfl
@[simp] theorem byteOut_code (bs : List Byte) : (byteOut bs s).code = s.code := rfl
@[simp] theorem byteOut_cmds (bs : List Byte) : (byteOut bs s).port.cmds = s.port.cmds := rfl
@[simp] theorem byteOut_resp (bs : List Byte) : (byteOut bs s).port.resp = s.port.resp := rfl
@[simp] theorem byteOut_bytesOut (bs : List Byte) : (byteOut bs s).port.bytesOut = s.port.bytesOut ++ bs := rfl
@[simp] theorem byteOut_pixelsOut (bs : List Byte) : (byteOut bs s).port.pixelsOut = s.port.pixelsOut := rfl

/-! ## setPixels -/
@[simp] theorem setPixels_cfg (ps : List PixelRun) : (setPixels ps s).cfg = s.cfg := rfl
@[simp] theorem setPixels_phase (ps : List PixelRun) : (setPixels ps s).phase = s.phase := rfl
@[simp] theorem setPixels_err (ps : List PixelRun) : (setPixels ps s).err = s.err := rfl
@[simp] theorem setPixels_einfo (ps : List PixelRun) : (setPixels ps s).einfo = s.einfo := rfl
@[simp] theorem setPixels_root (ps : List PixelRun) : (setPixels ps s).root = s.root := rfl
@[simp] theorem setPixels_cur (ps : List PixelRun) : (setPixels ps s).cur = s.cur := rfl
@[simp] theorem setPixels_npix (ps : List PixelRun) : (setPixels ps s).npix = s.npix := rfl
@[simp] theorem setPixels_eW (ps : List PixelRun) : (setPixels ps s).eW = s.eW := rfl
@[simp] theorem setPixels_eH (ps : List PixelRun) : (setPixels ps s).eH = s.eH := rfl
@[simp] theorem setPixels_eRem (ps : List PixelRun) : (setPixels ps s).eRem = s.eRem := rfl
@[simp] theorem setPixels_eAcc (ps : List PixelRun) : (setPixels ps s).eAcc = s.eAcc := rfl
@[simp] theorem setPixels_dHb (ps : List PixelRun) : (setPixels ps s).dHb = s.dHb := rfl
@[simp] theorem setPixels_dHdr (ps : List PixelRun) : (setPixels ps s).dHdr = s.dHdr := rfl
@[simp] theorem setPixels_dW (ps : List PixelRun) : (setPixels ps s).dW = s.dW := rfl
@[simp] theorem setPixels_dH (ps : List PixelRun) : (setPixels ps s).dH = s.dH := rfl
@[simp] theorem setPixels_dRem (ps : List PixelRun) : (setPixels ps s).dRem = s.dRem := rfl
@[simp] theorem setPixels_dIdx (ps : List PixelRun) : (setPixels ps s).dIdx = s.dIdx := rfl
@[simp] theorem setPixels_dist (ps : List PixelRun) : (setPixels ps s).dist = s.dist := rfl
@[simp] theorem setPixels_node (ps : List PixelRun) : (setPixels ps s).node = s.node := rfl
@[simp] theorem setPixels_pq (ps : List PixelRun) : (setPixels ps s).pq = s.pq := rfl
@[simp] theorem setPixels_code (ps : List PixelRun) : (setPixels ps s).code = s.code := rfl
@[simp] theorem setPixels_cmds (ps : List PixelRun) : (setPixels ps s).port.cmds = s.port.cmds := rfl
@[simp] theorem setPixels_resp (ps : List PixelRun) : (setPixels ps s).port.resp = s.port.resp := rfl
@[simp] theorem setPixels_bytesOut (ps : List PixelRun) : (setPixels ps s).port.bytesOut = s.port.bytesOut := rfl
@[simp] theorem setPixels_pixelsOut (ps : List PixelRun) : (setPixels ps s).port.pixelsOut = s.port.pixelsOut ++ ps := rfl

/-! ## afterWalk -/
@[simp] theorem afterWalk_cfg (w : Walk) : (afterWalk w s).cfg = s.cfg := rfl
@[simp] theorem afterWalk_phase (w : Walk) : (afterWalk w s).phase = s.phase := rfl
@[simp] theorem afterWalk_err (w : Walk) : (afterWalk w s).err = s.err := rfl
@[simp] theorem afterWalk_einfo (w : Walk) : (afterWalk w s).einfo = s.einfo := rfl
@[simp] theorem afterWalk_root (w : Walk) : (afterWalk w s).root = s.root := rfl
@[simp] theorem afterWalk_cur (w : Walk) : (afterWalk w s).cur = some w.cur := rfl
@[simp] theorem afterWalk_npix (w : Walk) : (afterWalk w s).npix = s.npix := rfl
@[simp] theorem afterWalk_eW (w : Walk) : (afterWalk w s).eW = s.eW := rfl
@[simp] theorem afterWalk_eH (w : Walk) : (afterWalk w s).eH = s.eH := rfl
@[simp] theorem afterWalk_eRem (w : Walk) : (afterWalk w s).eRem = s.eRem := rfl
@[simp] theorem afterWalk_eAcc (w : Walk) : (afterWalk w s).eAcc = s.eAcc := rfl
@[simp] theorem afterWalk_dHb (w : Walk) : (afterWalk w s).dHb = s.dHb := rfl
@[simp] theorem afterWalk_dHdr (w : Walk) : (afterWalk w s).dHdr = s.dHdr := rfl
@[simp] theorem afterWalk_dW (w : Walk) : (afterWalk w s).dW = s.dW := rfl
@[simp] theorem afterWalk_dH (w : Walk) : (afterWalk w s).dH = s.dH := rfl
@[simp] theorem afterWalk_dRem (w : Walk) : (afterWalk w s).dRem = w.rem := rfl
@[simp] theorem afterWalk_dIdx (w : Walk) : (afterWalk w s).dIdx = w.idx := rfl
@[simp] theorem afterWalk_dist (w : Walk) : (afterWalk w s).dist = s.dist := rfl
@[simp] theorem afterWalk_node (w : Walk) : (afterWalk w s).node = s.node := rfl
@[simp] theorem afterWalk_pq (w : Walk) : (afterWalk w s).pq = s.pq := rfl
@[simp] theorem afterWalk_code (w : Walk) : (afterWalk w s).code = s.code := rfl
@[simp] theorem afterWalk_port (w : Walk) : (afterWalk w s).port = s.port := rfl

/-! ## issue -/
@[simp] theorem issue_cfg (w : CmdWord) : (issue w s).cfg = s.cfg := rfl
@[simp] theorem issue_phase (w : CmdWord) : (issue w s).phase = s.phase := rfl
@[simp] theorem issue_err (w : CmdWord) : (issue w s).err = s.err := rfl
@[simp] theorem issue_einfo (w : CmdWord) : (issue w s).einfo = s.einfo := rfl
@[simp] theorem issue_root (w : CmdWord) : (issue w s).root = s.root := rfl
@[simp] theorem issue_cur (w : CmdWord) : (issue w s).cur = s.cur := rfl
@[simp] theorem issue_npix (w : CmdWord) : (issue w s).npix = s.npix := rfl
@[simp] theorem issue_eW (w : CmdWord) : (issue w s).eW = s.eW := rfl
@[simp] theorem issue_eH (w : CmdWord) : (issue w s).eH = s.eH := rfl
@[simp] theorem issue_eRem (w : CmdWord) : (issue w s).eRem = s.eRem := rfl
@[simp] theorem issue_eAcc (w : CmdWord) : (issue w s).eAcc = s.eAcc := rfl
@[simp] theorem issue_dHb (w : CmdWord) : (issue w s).dHb = s.dHb := rfl
@[simp] theorem issue_dHdr (w : CmdWord) : (issue w s).dHdr = s.dHdr := rfl
@[simp] theorem issue_dW (w : CmdWord) : (issue w s).dW = s.dW := rfl
@[simp] theorem issue_dH (w : CmdWord) : (issue w s).dH = s.dH := rfl
@[simp] theorem issue_dRem (w : CmdWord) : (issue w s).dRem = s.dRem := rfl
@[simp] theorem issue_dIdx (w : CmdWord) : (issue w s).dIdx = s.dIdx := rfl
@[simp] theorem issue_dist (w : CmdWord) : (issue w s).dist = s.dist := rfl
@[simp] theorem issue_node (w : CmdWord) : (issue w s).node = s.node := rfl
@[simp] theorem issue_pq (w : CmdWord) : (issue w s).pq = s.pq := rfl
@[simp] theorem issue_code (w : CmdWord) : (issue w s).code = s.code := rfl
@[simp] theorem issue_cmds (w : CmdWord) : (issue w s).port.cmds = s.port.cmds ++ [w] := rfl
@[simp] theorem issue_resp (w : CmdWord) : (issue w s).port.resp = s.port.resp := rfl
@[simp] theorem issue_bytesOut (w : CmdWord) : (issue w s).port.bytesOut = s.port.bytesOut := rfl
@[simp] theorem issue_pixelsOut (w : CmdWord) : (issue w s).port.pixelsOut = s.port.pixelsOut := rfl

/-! ## issueNext -/
@[simp] theorem issueNext_cfg (w : CmdWord) : (issueNext w s).cfg = s.cfg := rfl
@[simp] theorem issueNext_phase (w : CmdWord) : (issueNext w s).phase = s.phase := rfl
@[simp] theorem issueNext_err (w : CmdWord) : (issueNext w s).err = s.err := rfl
@[simp] theorem issueNext_einfo (w : CmdWord) : (issueNext w s).einfo = s.einfo := rfl
@[simp] theorem issueNext_root (w : CmdWord) : (issueNext w s).root = s.root := rfl
@[simp] theorem issueNext_cur (w : CmdWord) : (issueNext w s).cur = s.cur := rfl
@[simp] theorem issueNext_npix (w : CmdWord) : (issueNext w s).npix = s.npix := rfl
@[simp] theorem issueNext_eW (w : CmdWord) : (issueNext w s).eW = s.eW := rfl
@[simp] theorem issueNext_eH (w : CmdWord) : (issueNext w s).eH = s.eH := rfl
@[simp] theorem issueNext_eRem (w : CmdWord) : (issueNext w s).eRem = s.eRem := rfl
@[simp] theorem issueNext_eAcc (w : CmdWord) : (issueNext w s).eAcc = s.eAcc := rfl
@[simp] theorem issueNext_dHb (w : CmdWord) : (issueNext w s).dHb = s.dHb := rfl
@[simp] theorem issueNext_dHdr (w : CmdWord) : (issueNext w s).dHdr = s.dHdr := rfl
@[simp] theorem issueNext_dW (w : CmdWord) : (issueNext w s).dW = s.dW := rfl
@[simp] theorem issueNext_dH (w : CmdWord) : (issueNext w s).dH = s.dH := rfl
@[simp] theorem issueNext_dRem (w : CmdWord) : (issueNext w s).dRem = s.dRem := rfl
@[simp] theorem issueNext_dIdx (w : CmdWord) : (issueNext w s).dIdx = s.dIdx := rfl
@[simp] theorem issueNext_dist (w : CmdWord) : (issueNext w s).dist = s.dist := rfl
@[simp] theorem issueNext_node (w : CmdWord) : (issueNext w s).node = s.node := rfl
@[simp] theorem issueNext_pq (w : CmdWord) : (issueNext w s).pq = s.pq := rfl
@[simp] theorem issueNext_code (w : CmdWord) : (issueNext w s).code = s.code := rfl
@[simp] theorem issueNext_cmds (w : CmdWord) : (issueNext w s).port.cmds = w :: s.port.cmds := rfl
@[simp] theorem issueNext_resp (w : CmdWord) : (issueNext w s).port.resp = s.port.resp := rfl
@[simp] theorem issueNext_bytesOut (w : CmdWord) : (issueNext w s).port.bytesOut = s.port.bytesOut := rfl
@[simp] theorem issueNext_pixelsOut (w : CmdWord) : (issueNext w s).port.pixelsOut = s.port.pixelsOut := rfl

end Sys2Proof.Machine
end

