-- ==== Sys2Proof/Laws/Ops.lean ====
section
/-! SUPPORT. One lemma for each shared operation that says once what it does. -/

namespace Sys2Proof.Machine

/-! ## Ends of an operation -/

@[simp] theorem answer_eq_next {o : Output} {s t : State} : answer o s = .next t ↔ t = respond (.ok o) s := by
  simp [answer, eq_comm]

@[simp] theorem refuse_eq_next {r : Reason} {s t : State} : refuse r s = .next t ↔ t = respond (.refused r) s := by
  simp [refuse, eq_comm]

@[simp] theorem raise_eq_next {c : Cause} {info : U64} {s t : State} :
    raise c info s = .next t ↔
      t = respond (.error c info) { s with err := some c, einfo := info, phase := .fault } := by
  simp [raise, eq_comm]

@[simp] theorem answerPixels_eq_next {ps : List PixelRun} {s t : State} :
    answerPixels ps s = .next t ↔ t = respond (.ok (.pixels ps)) (setPixels ps s) := by
  simp [answerPixels]

@[simp] theorem answerBytes_eq_next {bs : List Byte} {s t : State} :
    answerBytes bs s = .next t ↔ t = respond (.ok (.bytes bs)) (byteOut bs s) := by
  simp [answerBytes]

theorem inPhase_of_eq {p : Phase} {s : State} (h : s.phase = p) (body : Result) : inPhase p s body = body := by
  simp [inPhase, h]

theorem inPhase_of_ne {p : Phase} {s : State} (h : s.phase ≠ p) (body : Result) :
    inPhase p s body = refuse .wrongPhase s := by
  simp [inPhase, h]

/-- The two ways out of the phase test. -/
theorem inPhase_next {p : Phase} {s t : State} {body : Result} (h : inPhase p s body = .next t) :
    (s.phase = p ∧ body = .next t) ∨ (s.phase ≠ p ∧ t = respond (.refused .wrongPhase) s) := by
  by_cases hp : s.phase = p
  · exact .inl ⟨hp, by rwa [inPhase_of_eq hp] at h⟩
  · exact .inr ⟨hp, by simpa [inPhase_of_ne hp] using h⟩

/-! ## Numbers -/

theorem exact64_toNat {n : Nat} (h : n < 2 ^ 64) : (exact64 n).toNat = n := by
  rw [exact64, if_pos h, BitVec.toNat_ofNat, Nat.mod_eq_of_lt h]

/-- The product of two `u32` fits (R16 (c)). -/
theorem pixelCount_toNat (w h : U32) : (pixelCount w h).toNat = w.toNat * h.toNat := by
  apply exact64_toNat
  have hw : w.toNat ≤ 2 ^ 32 - 1 := Nat.le_sub_one_of_lt w.isLt
  have hh : h.toNat ≤ 2 ^ 32 - 1 := Nat.le_sub_one_of_lt h.isLt
  calc w.toNat * h.toNat ≤ (2 ^ 32 - 1) * (2 ^ 32 - 1) := Nat.mul_le_mul hw hh
    _ < 2 ^ 64 := by norm_num

/-! ## The code table (log 7) -/

theorem codeSet_mem {c : List (Symbol × Bits)} {sym : Symbol} {bits : Bits} {p : Symbol × Bits}
    (h : p ∈ codeSet c sym bits) : p = (sym, bits) ∨ p ∈ c := by
  induction c with
  | nil => simpa [codeSet] using h
  | cons q rest ih =>
    obtain ⟨t, old⟩ := q
    simp only [codeSet] at h
    split at h
    · simpa using h
    · split at h
      · simp only [List.mem_cons] at h ⊢; tauto
      · simp only [List.mem_cons] at h ⊢
        rcases h with h | h
        · exact .inr (.inl h)
        · rcases ih h with h | h <;> tauto

/-- Writing CODE keeps its canonical form. -/
theorem codeSet_wf {c : List (Symbol × Bits)} (h : codeWf c) (sym : Symbol) (bits : Bits) :
    codeWf (codeSet c sym bits) := by
  induction c with
  | nil => simp [codeSet]
  | cons q rest ih =>
    obtain ⟨t, old⟩ := q
    have hr : codeWf rest := (List.pairwise_cons.1 h).2
    have ht := (List.pairwise_cons.1 h).1
    simp only [codeSet]
    split
    · rename_i hlt
      refine List.pairwise_cons.2 ⟨fun p hp => ?_, h⟩
      rcases List.mem_cons.1 hp with rfl | hp
      · exact hlt
      · exact hlt.trans (ht p hp)
    · split
      · rename_i heq
        subst heq
        exact List.pairwise_cons.2 ⟨ht, hr⟩
      · rename_i hlt hne
        refine List.pairwise_cons.2 ⟨fun p hp => ?_, ih hr⟩
        rcases codeSet_mem hp with rfl | hp
        · have : sym.toNat ≠ t.toNat := fun e => hne (BitVec.eq_of_toNat_eq e)
          show t.toNat < sym.toNat
          omega
        · exact ht p hp

theorem codeSetAll_wf {c : List (Symbol × Bits)} (h : codeWf c) (ps : List (Symbol × Bits)) :
    codeWf (codeSetAll c ps) := by
  induction ps generalizing c with
  | nil => exact h
  | cons p ps ih => exact ih (codeSet_wf h p.1 p.2)

@[simp] theorem codeGet_nil (sym : Symbol) : codeGet [] sym = none := rfl

theorem codeGet_cons (p : Symbol × Bits) (c : List (Symbol × Bits)) (sym : Symbol) :
    codeGet (p :: c) sym = if p.1 = sym then some p.2 else codeGet c sym := by
  by_cases h : p.1 = sym
  · simp [codeGet, h]
  · simp [codeGet, h]

/-- Read after write: the written symbol. -/
theorem codeGet_codeSet_self (c : List (Symbol × Bits)) (sym : Symbol) (bits : Bits) :
    codeGet (codeSet c sym bits) sym = some bits := by
  induction c with
  | nil => simp [codeSet, codeGet_cons]
  | cons q rest ih =>
    obtain ⟨t, old⟩ := q
    simp only [codeSet]
    split
    · simp [codeGet_cons]
    · split
      · simp [codeGet_cons]
      · rename_i hne
        have : ¬ t = sym := fun e => hne e.symm
        simp [codeGet_cons, this, ih]

/-- Read after write: every other symbol. -/
theorem codeGet_codeSet_ne (c : List (Symbol × Bits)) {sym other : Symbol} (bits : Bits) (h : other ≠ sym) :
    codeGet (codeSet c sym bits) other = codeGet c other := by
  have hs : ¬ sym = other := fun e => h e.symm
  induction c with
  | nil => simp [codeSet, codeGet_cons, hs]
  | cons q rest ih =>
    obtain ⟨t, old⟩ := q
    simp only [codeSet]
    split
    · simp [codeGet_cons, hs]
    · split
      · rename_i heq
        subst heq
        simp [codeGet_cons, hs]
      · simp [codeGet_cons, ih]

/-! ## The queue (R34) -/

theorem keyLe_iff {nodes : List NodeRec} {a b : Nat} :
    keyLe nodes a b = true ↔ freqAt nodes a < freqAt nodes b ∨ (freqAt nodes a = freqAt nodes b ∧ a ≤ b) := by
  simp [keyLe]

theorem keyLe_total (nodes : List NodeRec) (a b : Nat) : keyLe nodes a b = true ∨ keyLe nodes b a = true := by
  simp only [keyLe_iff]; omega

theorem keyLe_trans {nodes : List NodeRec} {a b c : Nat} (h : keyLe nodes a b = true) (h' : keyLe nodes b c = true) :
    keyLe nodes a c = true := by
  simp only [keyLe_iff] at *; omega

theorem sortByKey_perm (nodes : List NodeRec) (ks : List Nat) : (sortByKey nodes ks).Perm ks :=
  List.perm_insertionSort _ ks

theorem pqInsert_perm (nodes : List NodeRec) (f : Nat) (m : Nat) (rest : List Nat) :
    (pqInsert nodes f m rest).Perm (m :: rest) := by
  unfold pqInsert
  generalize rest.countP _ = p
  calc rest.take p ++ [m] ++ rest.drop p
      = rest.take p ++ ([m] ++ rest.drop p) := by simp
    _ |>.Perm ([m] ++ rest.drop p ++ rest.take p) := List.perm_append_comm
    _ |>.Perm (m :: rest) := by
        have : (rest.drop p ++ rest.take p).Perm rest := by
          simpa using (List.perm_append_comm (l₁ := rest.drop p) (l₂ := rest.take p))
        simpa using this

/-! ## The tree (R36) -/

theorem freqAt_append {nodes more : List NodeRec} {k : Nat} (h : k < nodes.length) :
    freqAt (nodes ++ more) k = freqAt nodes k := by
  simp [freqAt, List.getElem?_append_left h]

/-- More fuel and more records change no tree. -/
theorem treeOf_mono {nodes : List NodeRec} (more : List NodeRec) {fuel : Nat} {k : Nat} {t : Tree}
    (h : treeOf nodes fuel k = some t) {fuel' : Nat} (hf : fuel ≤ fuel') :
    treeOf (nodes ++ more) fuel' k = some t := by
  induction fuel generalizing k t fuel' with
  | zero => simp [treeOf] at h
  | succ fuel ih =>
    obtain ⟨g, rfl⟩ : ∃ g, fuel' = g + 1 := ⟨fuel' - 1, by omega⟩
    have hg : fuel ≤ g := by omega
    simp only [treeOf] at h ⊢
    cases hk : nodes[k]? with
    | none => simp [hk] at h
    | some n =>
      have hlt : k < nodes.length := (List.getElem?_eq_some_iff.1 hk).1
      rw [hk] at h
      rw [List.getElem?_append_left hlt, hk]
      rcases hl : n.left with _ | l <;> rcases hr : n.right with _ | r <;> simp only [hl, hr] at h ⊢
      · exact h
      · exact absurd h (by simp)
      · exact absurd h (by simp)
      · rcases ha : treeOf nodes fuel l with _ | a
        · simp [ha] at h
        · rcases hb : treeOf nodes fuel r with _ | b
          · simp [ha, hb] at h
          · rw [ih ha hg, ih hb hg]
            simpa [ha, hb] using h

theorem tableTree_append {nodes : List NodeRec} (more : List NodeRec) {k : Nat} {t : Tree}
    (h : tableTree nodes k = some t) : tableTree (nodes ++ more) k = some t :=
  treeOf_mono more h (by simp)

/-- The symbols of the codes are those of the leaves, left to right. -/
theorem codes_symbols (t : Tree) : t.codes.map Prod.fst = t.leaves.map Prod.fst := by
  induction t with
  | leaf sym f => rfl
  | node f l r ihl ihr => simp [Tree.codes, Tree.leaves, ihl, ihr, Function.comp_def]

/-- The strict order of PQ, in numbers. -/
theorem keyLt_iff {nodes : List NodeRec} {a b : Nat} :
    (keyLe nodes a b = true ∧ a ≠ b) ↔
      freqAt nodes a < freqAt nodes b ∨ (freqAt nodes a = freqAt nodes b ∧ a < b) := by
  by_cases hab : a = b
  · simp [hab]
  · simp only [keyLe_iff]; omega

/-- PRIO's sort gives PQ its form: ascending by the key, each index once (R34, R101). -/
theorem sortByKey_wf (nodes : List NodeRec) {ks : List Nat} (h : ks.Nodup) : pqWf nodes (sortByKey nodes ks) := by
  have hs : (sortByKey nodes ks).Pairwise fun a b => keyLe nodes a b = true := by
    have : Std.Total fun a b => keyLe nodes a b = true := ⟨keyLe_total nodes⟩
    have : IsTrans Nat fun a b => keyLe nodes a b = true := ⟨fun _ _ _ => keyLe_trans⟩
    exact List.pairwise_insertionSort (fun a b => keyLe nodes a b = true) ks
  exact hs.and ((sortByKey_perm nodes ks).nodup_iff.2 h)

/-- Only the records of the indices in PQ matter to its form. -/
theorem pqWf_append {nodes : List NodeRec} (more : List NodeRec) {pq : List Nat} (hb : ∀ k ∈ pq, k < nodes.length) :
    pqWf (nodes ++ more) pq ↔ pqWf nodes pq := by
  refine List.Pairwise.iff_of_mem fun {a b} ha hb' => ?_
  simp only [keyLe_iff, freqAt_append (hb a ha), freqAt_append (hb b hb')]

/-- Where the node goes: behind the entries of frequency at most `f`, before the others. -/
theorem pqInsert_split {nodes : List NodeRec} {rest : List Nat} {m : Nat} (f : Nat) (h : pqWf nodes rest) :
    ∃ lo hi, rest = lo ++ hi ∧ pqInsert nodes f m rest = lo ++ m :: hi ∧
      (∀ k ∈ lo, freqAt nodes k ≤ f) ∧ ∀ k ∈ hi, f < freqAt nodes k := by
  induction rest with
  | nil => exact ⟨[], [], rfl, rfl, by simp, by simp⟩
  | cons k rest ih =>
    obtain ⟨hk, hr⟩ := List.pairwise_cons.1 h
    by_cases hf : freqAt nodes k ≤ f
    · obtain ⟨lo, hi, h1, h2, h3, h4⟩ := ih hr
      refine ⟨k :: lo, hi, by simp [h1], ?_, by simpa [hf] using h3, h4⟩
      have : pqInsert nodes f m (k :: rest) = k :: pqInsert nodes f m rest := by
        simp [pqInsert, List.countP_cons_of_pos, hf]
      rw [this, h2, List.cons_append]
    · have hall : ∀ j ∈ k :: rest, f < freqAt nodes j := by
        intro j hj
        rcases List.mem_cons.1 hj with rfl | hj
        · omega
        · have := keyLt_iff.1 (hk j hj)
          omega
      have h0 : (k :: rest).countP (fun e => decide (freqAt nodes e ≤ f)) = 0 :=
        List.countP_eq_zero.2 fun j hj => by simpa using hall j hj
      exact ⟨[], k :: rest, rfl, by simp [pqInsert, h0], by simp, hall⟩

/-- In a sorted queue the entries of frequency at most `f` are a prefix, and the next node, of frequency `f`, goes
behind them: PQ keeps its form (R34, R110). -/
theorem pqInsert_wf {nodes : List NodeRec} {record : NodeRec} {rest : List Nat} (hb : ∀ k ∈ rest, k < nodes.length)
    (h : pqWf nodes rest) :
    pqWf (nodes ++ [record]) (pqInsert nodes record.frequency.toNat nodes.length rest) := by
  have hf : freqAt (nodes ++ [record]) nodes.length = record.frequency.toNat := by simp [freqAt]
  obtain ⟨lo, hi, hsplit, hins, hlo, hhi⟩ := pqInsert_split (m := nodes.length) record.frequency.toNat h
  rw [hins]
  have hw := (pqWf_append [record] hb).2 h
  rw [hsplit] at hw hb
  obtain ⟨h1, h2, h3⟩ := List.pairwise_append.1 hw
  refine List.pairwise_append.2 ⟨h1, List.pairwise_cons.2 ⟨fun k hk => ?_, h2⟩, fun a ha b hb' => ?_⟩
  · have hkb := hb k (by simp [hk])
    rw [keyLt_iff, hf, freqAt_append hkb]
    exact .inl (hhi k hk)
  · rcases List.mem_cons.1 hb' with rfl | hb'
    · have hab := hb a (by simp [ha])
      rw [keyLt_iff, hf, freqAt_append hab]
      have := hlo a ha
      omega
    · exact h3 a ha b hb'

/-! ## The distribution (R32) -/

/-- SCAN of a new symbol keeps the form of DIST. -/
theorem distAppend_wf {d : List DistEntry} (h : distWf d) {sym : Symbol} (hn : ∀ e ∈ d, e.symbol ≠ sym) :
    distWf (d ++ [{ symbol := sym, count := 1 }]) := by
  refine ⟨?_, fun e he => ?_⟩
  · rw [List.map_append, List.nodup_append]
    refine ⟨h.1, by simp, ?_⟩
    simpa using hn
  · rcases List.mem_append.1 he with he | he
    · exact h.2 e he
    · obtain rfl := List.mem_singleton.1 he
      simp

/-- Counting a symbol again keeps every symbol. -/
theorem distBump_symbols (d : List DistEntry) (j : Nat) :
    (distBump d j).map DistEntry.symbol = d.map DistEntry.symbol := by
  induction d generalizing j with
  | nil => simp [distBump]
  | cons e d ih => cases j <;> simp_all [distBump]

/-- SCAN of a known symbol keeps the form of DIST while its count fits. -/
theorem distBump_wf {d : List DistEntry} (h : distWf d) {j : Nat}
    (hc : ∀ e ∈ d[j]?, e.count.toNat + 1 < 2 ^ 64) : distWf (distBump d j) := by
  refine ⟨by rw [distBump_symbols]; exact h.1, ?_⟩
  have h2 := h.2
  clear h
  induction d generalizing j with
  | nil => simp [distBump]
  | cons e d ih =>
    cases j with
    | zero =>
      intro e' he'
      simp only [distBump, List.modify_zero_cons, List.mem_cons] at he'
      rcases he' with rfl | he'
      · have := hc e (by simp)
        simp only [exact64_toNat this]; omega
      · exact h2 e' (by simp [he'])
    | succ j =>
      intro e' he'
      simp only [distBump, List.modify_succ_cons, List.mem_cons] at he'
      rcases he' with rfl | he'
      · exact h2 e' (by simp)
      · exact ih (j := j) (by simpa using hc) (fun e he => h2 e (by simp [he])) e' he'

/-! ## The reset state -/

theorem memory_wf_reset : Memory.wf State.reset := by
  simp [Memory.wf, distWf, codeWf, pqWf, State.reset]

/-! ## Bits and channels (R12, R13, R15) -/

@[simp] theorem bitsOf_length (b : Byte) : (bitsOf b).length = 8 := rfl

@[simp] theorem be32bytes_length (v : U32) : (be32bytes v).length = 4 := rfl

@[simp] theorem headerBytes_length (w h : U32) : (headerBytes w h).length = 8 := rfl

theorem fullBytes_length (s : Bits) : (fullBytes s).length = s.length / 8 := by simp [fullBytes]

theorem restBits_length (s : Bits) : (restBits s).length = s.length % 8 := by
  simp only [restBits, List.length_drop]; omega

/-! ## The channel order (R15, log 4) -/

theorem append_byte_toNat {n : Nat} (a : BitVec n) (b : Byte) : (a ++ b).toNat = a.toNat * 2 ^ 8 + b.toNat := by
  rw [BitVec.toNat_append, ← Nat.shiftLeft_add_eq_or_of_lt b.isLt, Nat.shiftLeft_eq]

/-- Four bytes as one number, the first the most significant. -/
theorem append_toNat (a b c d : Byte) :
    (a ++ b ++ c ++ d).toNat = a.toNat * 2 ^ 24 + b.toNat * 2 ^ 16 + c.toNat * 2 ^ 8 + d.toNat := by
  simp only [append_byte_toNat]
  ring

theorem ofBytes_toNat (f : Fin 4 → Byte) :
    (ofBytes f).toNat = (f 3).toNat * 2 ^ 24 + (f 2).toNat * 2 ^ 16 + (f 1).toNat * 2 ^ 8 + (f 0).toNat :=
  append_toNat (f 3) (f 2) (f 1) (f 0)

theorem byteAt_toNat (v : U32) (k : Fin 4) : (byteAt v k).toNat = v.toNat / 2 ^ (8 * k.val) % 2 ^ 8 := by
  simp [byteAt, Nat.shiftRight_eq_div_pow]

@[simp] theorem byteAt_ofBytes (f : Fin 4 → Byte) (k : Fin 4) : byteAt (ofBytes f) k = f k := by
  apply BitVec.eq_of_toNat_eq
  rw [byteAt_toNat, ofBytes_toNat]
  have h0 := (f 0).isLt
  have h1 := (f 1).isLt
  have h2 := (f 2).isLt
  fin_cases k <;> simp <;> omega

@[simp] theorem ofBytes_byteAt (v : U32) : (ofBytes fun k => byteAt v k) = v := by
  apply BitVec.eq_of_toNat_eq
  simp only [byteAt_toNat, ofBytes_toNat]
  have := v.isLt
  simp
  omega

/-- An exchange undoes itself. -/
@[simp] theorem applyExchange_involutive (x : Exchange) (v : U32) : applyExchange x (applyExchange x v) = v := by
  cases x with
  | bytes i j => simp [applyExchange]
  | values a b => simp [applyExchange]

theorem foldl_exchanges (xs : List Exchange) (v : U32) :
    xs.foldr applyExchange (xs.foldl (fun u x => applyExchange x u) v) = v := by
  induction xs generalizing v with
  | nil => rfl
  | cons x xs ih => simp [ih]

theorem foldr_exchanges (xs : List Exchange) (v : U32) :
    xs.foldl (fun u x => applyExchange x u) (xs.foldr applyExchange v) = v := by
  induction xs generalizing v with
  | nil => rfl
  | cons x xs ih => simp [ih]

/-- Every permutation of the 32-bit values is a sequence of exchanges. -/
theorem exchanges_cover (e : Equiv.Perm U32) : ∃ xs : List Exchange, ∀ v, xs.foldl (fun u x => applyExchange x u) v = e v := by
  have : Finite U32 := Finite.of_injective (fun v : U32 => v.toFin) (fun a b h => BitVec.toFin_inj.1 h)
  induction e using Equiv.Perm.swap_induction_on with
  | one => exact ⟨[], fun v => rfl⟩
  | swap_mul f x y h ih =>
    obtain ⟨xs, hx⟩ := ih
    refine ⟨xs ++ [.values x y], fun v => ?_⟩
    rw [List.foldl_append, hx]; rfl
/-- Every pair with the two inverse laws of R15 is the pair of some configuration (log 4). -/
theorem every_pair_configurable (toS toN : U32 → U32) (h : ∀ v, toN (toS v) = v) (h' : ∀ v, toS (toN v) = v)
    (maxSyms : Nat) :
    ∃ order, ∀ v, toStorage { maxSyms, order } v = toS v ∧ toNative { maxSyms, order } v = toN v := by
  obtain ⟨xs, hx⟩ := exchanges_cover ⟨toS, toN, h, h'⟩
  refine ⟨.exchanges xs, fun v => ⟨hx v, ?_⟩⟩
  have := foldr_exchanges xs v
  rw [hx] at this
  show xs.foldr applyExchange v = toN v
  rw [← h (xs.foldr applyExchange v)]
  exact congrArg toN this

end Sys2Proof.Machine
end

