-- ==== Sys2Proof/Laws/Exec.lean ====
section
/-! SUPPORT. One inversion lemma per operation: if it answers a next state, then one of the listed cases holds. A later
proof cites it and does not unfold the meaning. -/

namespace Sys2Proof.Machine

variable {s t : State}

/-- The response `refused(WrongPhase)` of an operation that has a step in `p` only. -/
abbrev OutOfPhase (p : Phase) (s t : State) : Prop := s.phase ≠ p ∧ t = respond (.refused .wrongPhase) s

/-- What `raise` leaves (60_exceptions.md R172). -/
abbrev raised (c : Cause) (info : U64) (s : State) : State :=
  respond (.error c info) { s with err := some c, einfo := info, phase := .fault }

theorem execReset_cases (h : execReset s = .next t) :
    t = respond (.ok .nothing) { State.reset with cfg := s.cfg, port := s.port } := by
  simpa [execReset, hardwareReset] using h

theorem execStatus_cases (h : execStatus s = .next t) : t = respond (.ok (.status (statusView s))) s := by
  simpa [execStatus] using h

theorem execScan_cases {px : U32} (h : execScan px s = .next t) :
    OutOfPhase .scan s t ∨
    (s.phase = .scan ∧
      ((s.npix.toNat = 2 ^ 64 - 1 ∧ t = respond (.refused .countOverflow) s) ∨
       (s.npix.toNat ≠ 2 ^ 64 - 1 ∧ distFind s.dist (toStorage s.cfg px) = none ∧ s.dist.length = s.cfg.maxSyms ∧
          t = respond (.refused .capacity) s) ∨
       (s.npix.toNat ≠ 2 ^ 64 - 1 ∧
          ∃ d, ((∃ j, distFind s.dist (toStorage s.cfg px) = some j ∧ d = distBump s.dist j) ∨
                (distFind s.dist (toStorage s.cfg px) = none ∧ s.dist.length ≠ s.cfg.maxSyms ∧
                  d = s.dist ++ [{ symbol := toStorage s.cfg px, count := 1 }])) ∧
               t = respond (.ok .nothing) { s with dist := d, npix := exact64 (s.npix.toNat + 1) }))) := by
  rcases inPhase_next h with ⟨hp, h⟩ | hw
  · refine .inr ⟨hp, ?_⟩
    by_cases hn : s.npix.toNat = 2 ^ 64 - 1
    · rw [if_pos hn] at h
      exact .inl ⟨hn, by simpa using h⟩
    rw [if_neg hn] at h
    rcases hf : distFind s.dist (toStorage s.cfg px) with _ | j <;> simp only [hf] at h
    · by_cases hc : s.dist.length = s.cfg.maxSyms
      · rw [if_pos hc] at h
        exact .inr (.inl ⟨hn, rfl, hc, by simpa using h⟩)
      · rw [if_neg hc] at h
        exact .inr (.inr ⟨hn, _, .inr ⟨rfl, hc, rfl⟩, by simpa [countPixel] using h⟩)
    · exact .inr (.inr ⟨hn, _, .inl ⟨j, rfl, rfl⟩, by simpa [countPixel] using h⟩)
  · exact .inl hw

theorem execPrio_cases (h : execPrio s = .next t) :
    OutOfPhase .scan s t ∨
    (s.phase = .scan ∧
      ((s.dist = [] ∧ t = raised .emptyInput 0 s) ∨
       (s.dist ≠ [] ∧
          ∃ nodes pq, nodes = s.node ++ s.dist.map leafOf ∧ pq = sortByKey nodes (List.range s.dist.length) ∧
            t = respond (.ok (.queue pq (pq.filterMap fun k => nodes[k]?)))
              { s with node := nodes, pq := pq, phase := .queue }))) := by
  rcases inPhase_next h with ⟨hp, h⟩ | hw
  · refine .inr ⟨hp, ?_⟩
    by_cases hd : s.dist = []
    · simp only [hd, List.length_nil, if_true] at h
      exact .inl ⟨hd, by simpa using h⟩
    · rw [if_neg (by simpa using hd)] at h
      exact .inr ⟨hd, _, _, rfl, rfl, by simpa using h⟩
  · exact .inl hw

theorem execMerge_cases (h : execMerge s = .next t) :
    OutOfPhase .queue s t ∨
    (s.phase = .queue ∧
      ((s.pq.length < 2 ∧ t = respond (.refused .queueTooShort) s) ∨
       (∃ a b rest na nb, s.pq = a :: b :: rest ∧ s.node[a]? = some na ∧ s.node[b]? = some nb ∧
          (∀ k ∈ rest, k < s.node.length) ∧
          t = respond (.ok (.node s.node.length (mergedRec a b na nb)))
            { s with
              node := s.node ++ [mergedRec a b na nb]
              pq := pqInsert s.node (mergedRec a b na nb).frequency.toNat s.node.length rest }))) := by
  rcases inPhase_next h with ⟨hp, h⟩ | hw
  · refine .inr ⟨hp, ?_⟩
    rcases hq : s.pq with _ | ⟨a, _ | ⟨b, rest⟩⟩ <;> simp only [hq] at h
    · exact .inl ⟨by simp, by simpa using h⟩
    · exact .inl ⟨by simp, by simpa using h⟩
    · rcases ha : s.node[a]? with _ | na <;> rcases hb : s.node[b]? with _ | nb <;> simp only [ha, hb] at h
      · exact absurd h (by simp)
      · exact absurd h (by simp)
      · exact absurd h (by simp)
      · rcases hf : firstAbsent s.node rest with _ | k <;> simp only [hf] at h
        · refine .inr ⟨a, b, rest, na, nb, rfl, ha, hb, fun k hk => ?_, by simpa using h⟩
          have := List.find?_eq_none.1 hf k hk
          simpa using this
        · exact absurd h (by simp)
  · exact .inl hw

theorem execMkroot_cases (h : execMkroot s = .next t) :
    OutOfPhase .queue s t ∨
    (s.phase = .queue ∧
      ((s.pq.length ≠ 1 ∧ t = respond (.refused .queueNotSingle) s) ∨
       (∃ k n, s.pq = [k] ∧ s.node[k]? = some n ∧
          t = respond (.ok (.node k n)) { s with root := some k, cur := some k, pq := [], phase := .tree }))) := by
  rcases inPhase_next h with ⟨hp, h⟩ | hw
  · refine .inr ⟨hp, ?_⟩
    rcases hq : s.pq with _ | ⟨k, _ | ⟨b, rest⟩⟩ <;> simp only [hq] at h
    · exact .inl ⟨by simp, by simpa using h⟩
    · rcases hk : s.node[k]? with _ | n <;> simp only [hk] at h
      · exact absurd h (by simp)
      · exact .inr ⟨k, n, rfl, hk, by simpa using h⟩
    · exact .inl ⟨by simp, by simpa using h⟩
  · exact .inl hw

theorem execGencode_cases (h : execGencode s = .next t) :
    OutOfPhase .tree s t ∨
    (s.phase = .tree ∧
      ∃ r tr, s.root = some r ∧ tableTree s.node r = some tr ∧ (tr.codes.map Prod.fst).Nodup ∧
        t = respond (.ok (.codes (codeSetAll [] tr.codes)))
          { s with code := codeSetAll s.code tr.codes, phase := .ready }) := by
  rcases inPhase_next h with ⟨hp, h⟩ | hw
  · refine .inr ⟨hp, ?_⟩
    rcases hr : s.root with _ | r <;> simp only [hr] at h
    · exact absurd h (by simp)
    · rcases ht : tableTree s.node r with _ | tr <;> simp only [ht] at h
      · exact absurd h (by simp)
      · by_cases hn : (tr.codes.map Prod.fst).Nodup
        · rw [if_pos hn] at h
          exact ⟨r, tr, rfl, ht, hn, by simpa using h⟩
        · rw [if_neg hn] at h
          exact absurd h (by simp)
  · exact .inl hw

theorem execLookup_cases {sym : Symbol} (h : execLookup sym s = .next t) :
    OutOfPhase .ready s t ∨
    (s.phase = .ready ∧
      ((∃ bits, codeGet s.code sym = some bits ∧ t = respond (.ok (.hit bits)) s) ∨
       (codeGet s.code sym = none ∧ t = respond (.ok .miss) s))) := by
  rcases inPhase_next h with ⟨hp, h⟩ | hw
  · refine .inr ⟨hp, ?_⟩
    rcases hc : codeGet s.code sym with _ | bits <;> simp only [hc] at h
    · exact .inr ⟨rfl, by simpa using h⟩
    · exact .inl ⟨bits, rfl, by simpa using h⟩
  · exact .inl hw

theorem execCurrst_cases (h : execCurrst s = .next t) :
    OutOfPhase .ready s t ∨ (s.phase = .ready ∧ t = respond (.ok .nothing) { s with cur := s.root }) := by
  rcases inPhase_next h with ⟨hp, h⟩ | hw
  · exact .inr ⟨hp, by simpa using h⟩
  · exact .inl hw

theorem execStep_cases {bit : Bit} (h : execStep bit s = .next t) :
    OutOfPhase .ready s t ∨
    (s.phase = .ready ∧ ∃ c r, s.cur = some c ∧ s.root = some r ∧
      ((∃ k n, advance s.node r c bit = .moved k ∧ s.node[k]? = some n ∧
          t = respond (.ok (.moved k n n.isLeaf)) { s with cur := some k }) ∨
       (∃ c1, advance s.node r c bit = .missing c1 ∧
          t = raised .corruptStream (BitVec.ofNat 64 c1) { s with cur := s.root }))) := by
  rcases inPhase_next h with ⟨hp, h⟩ | hw
  · refine .inr ⟨hp, ?_⟩
    rcases hc : s.cur with _ | c <;> rcases hr : s.root with _ | r <;> simp only [hc, hr] at h
    · exact absurd h (by simp)
    · exact absurd h (by simp)
    · exact absurd h (by simp)
    · refine ⟨c, r, rfl, rfl, ?_⟩
      rcases ha : advance s.node r c bit with k | c1 | k <;> simp only [ha] at h
      · rcases hk : s.node[k]? with _ | n <;> simp only [hk] at h
        · exact absurd h (by simp)
        · exact .inl ⟨k, n, rfl, hk, by simpa [hr] using h⟩
      · exact .inr ⟨c1, rfl, by simpa [hr] using h⟩
      · exact absurd h (by simp)
  · exact .inl hw

theorem execDecbegin_cases (h : execDecbegin s = .next t) :
    OutOfPhase .ready s t ∨
    (s.phase = .ready ∧
      t = respond (.ok .nothing)
        { s with dHb := 0, dHdr := [], dW := 0, dH := 0, dRem := 0, dIdx := 0, cur := s.root, phase := .dec }) := by
  rcases inPhase_next h with ⟨hp, h⟩ | hw
  · exact .inr ⟨hp, by simpa using h⟩
  · exact .inl hw

/-- The pixel writes and the response of an operation that writes pixels. -/
abbrev wrote (ps : List PixelRun) (s : State) : State := respond (.ok (.pixels ps)) (setPixels ps s)

theorem startPixels_cases {r : Nat} {w h : U32} (hs : startPixels r w h s = .next t) :
    ∃ n, s.node[r]? = some n ∧
      ((n.isLeaf = true ∧
          t = wrote (fillRuns (pixelCount w h).toNat w.toNat (toNative s.cfg n.symbol))
            { s with dW := w, dH := h, dIdx := pixelCount w h, dRem := 0 }) ∨
       (n.isLeaf = false ∧ t = wrote [] { s with dW := w, dH := h, dIdx := 0, dRem := pixelCount w h })) := by
  unfold startPixels at hs
  rcases hn : s.node[r]? with _ | n <;> simp only [hn] at hs
  · exact absurd hs (by simp)
  · refine ⟨n, rfl, ?_⟩
    rcases hl : n.isLeaf with _ | _ <;> simp only [hl] at hs
    · exact .inr ⟨rfl, by simpa using hs⟩
    · exact .inl ⟨rfl, by simpa using hs⟩

theorem headerByte_cases {r : Nat} {b : Byte} (h : headerByte r b s = .next t) :
    (s.dHb + 1 ≠ 8 ∧ t = wrote [] { s with dHdr := s.dHdr ++ [b], dHb := s.dHb + 1 }) ∨
    (s.dHb + 1 = 8 ∧ ∃ b0 b1 b2 b3 b4 b5 b6 b7, s.dHdr ++ [b] = [b0, b1, b2, b3, b4, b5, b6, b7] ∧
      startPixels r (be32 b0 b1 b2 b3) (be32 b4 b5 b6 b7) { s with dHdr := s.dHdr ++ [b], dHb := s.dHb + 1 }
        = .next t) := by
  unfold headerByte at h
  by_cases h8 : s.dHb + 1 = 8
  · refine .inr ⟨h8, ?_⟩
    simp only [h8, if_true] at h ⊢
    split at h
    · exact ⟨_, _, _, _, _, _, _, _, ‹_›, h⟩
    · exact absurd h (by simp)
  · simp only [h8, if_false] at h
    exact .inl ⟨h8, by simpa using h⟩

theorem bodyByte_cases {r : Nat} {b : Byte} (h : bodyByte r b s = .next t) :
    (s.dRem = 0 ∧ t = wrote [] s) ∨
    (s.dRem ≠ 0 ∧ ∃ c, s.cur = some c ∧
      ((∃ w, walkBits s r (bitsOf b) { cur := c, idx := s.dIdx, rem := s.dRem, writes := [] } = .done w ∧
          t = wrote w.writes (afterWalk w s)) ∨
       (∃ w c1, walkBits s r (bitsOf b) { cur := c, idx := s.dIdx, rem := s.dRem, writes := [] } = .missing w c1 ∧
          t = raised .corruptStream (BitVec.ofNat 64 c1)
            (setPixels w.writes { afterWalk w s with cur := s.root })))) := by
  unfold bodyByte at h
  by_cases h0 : s.dRem = 0
  · rw [if_pos h0] at h
    exact .inl ⟨h0, by simpa using h⟩
  · rw [if_neg h0] at h
    refine .inr ⟨h0, ?_⟩
    rcases hc : s.cur with _ | c <;> simp only [hc] at h
    · exact absurd h (by simp)
    · refine ⟨c, rfl, ?_⟩
      rcases hw : walkBits s r (bitsOf b) { cur := c, idx := s.dIdx, rem := s.dRem, writes := [] } with w | ⟨w, c1⟩ | k <;>
        simp only [hw] at h
      · exact .inl ⟨w, rfl, by simpa using h⟩
      · exact .inr ⟨w, c1, rfl, raise_eq_next.1 h⟩
      · exact absurd h (by simp)

theorem execDecbyte_cases {b : Byte} (h : execDecbyte b s = .next t) :
    OutOfPhase .dec s t ∨
    (s.phase = .dec ∧ ∃ r, s.root = some r ∧
      ((s.dHb.toNat < 8 ∧ headerByte r b s = .next t) ∨ (¬ s.dHb.toNat < 8 ∧ bodyByte r b s = .next t))) := by
  rcases inPhase_next h with ⟨hp, h⟩ | hw
  · refine .inr ⟨hp, ?_⟩
    rcases hr : s.root with _ | r <;> simp only [hr] at h
    · exact absurd h (by simp)
    · refine ⟨r, rfl, ?_⟩
      by_cases h8 : s.dHb.toNat < 8
      · rw [if_pos h8] at h
        exact .inl ⟨h8, h⟩
      · rw [if_neg h8] at h
        exact .inr ⟨h8, h⟩
  · exact .inl hw

theorem execDecend_cases (h : execDecend s = .next t) :
    OutOfPhase .dec s t ∨
    (s.phase = .dec ∧
      ((s.dHb.toNat < 8 ∧ t = raised .truncatedHeader (s.dHb.setWidth 64) s) ∨
       (8 ≤ s.dHb.toNat ∧ 0 < s.dRem.toNat ∧ t = raised .dimensionMismatch s.dIdx s) ∨
       (8 ≤ s.dHb.toNat ∧ s.dRem.toNat = 0 ∧ t = respond (.ok (.size s.dW s.dH)) { s with phase := .ready }))) := by
  rcases inPhase_next h with ⟨hp, h⟩ | hw
  · refine .inr ⟨hp, ?_⟩
    by_cases h8 : s.dHb.toNat < 8
    · rw [if_pos h8] at h
      exact .inl ⟨h8, by simpa using h⟩
    rw [if_neg h8] at h
    by_cases h0 : 0 < s.dRem.toNat
    · rw [if_pos h0] at h
      exact .inr (.inl ⟨by omega, h0, by simpa using h⟩)
    · rw [if_neg h0] at h
      exact .inr (.inr ⟨by omega, by omega, by simpa using h⟩)
  · exact .inl hw

/-- The bytes and the response of an operation that emits bytes. -/
abbrev emitted (bs : List Byte) (s : State) : State := respond (.ok (.bytes bs)) (byteOut bs s)

theorem execEnchdr_cases {w h : U32} (hs : execEnchdr w h s = .next t) :
    OutOfPhase .ready s t ∨
    (s.phase = .ready ∧
      t = emitted (headerBytes w h)
        { s with eW := w, eH := h, eRem := pixelCount w h, eAcc := [], phase := .enc }) := by
  rcases inPhase_next hs with ⟨hp, hs⟩ | hw
  · exact .inr ⟨hp, by simpa using hs⟩
  · exact .inl hw

theorem execEncpix_cases {px : U32} (h : execEncpix px s = .next t) :
    OutOfPhase .enc s t ∨
    (s.phase = .enc ∧
      ((s.eRem = 0 ∧ t = respond (.refused .countExhausted) s) ∨
       (s.eRem ≠ 0 ∧ codeGet s.code (toStorage s.cfg px) = none ∧
          t = raised .unknownSymbol ((toStorage s.cfg px).setWidth 64) s) ∨
       (s.eRem ≠ 0 ∧ ∃ bits, codeGet s.code (toStorage s.cfg px) = some bits ∧
          t = emitted (fullBytes (s.eAcc ++ bits))
            { s with eAcc := restBits (s.eAcc ++ bits), eRem := s.eRem - 1 }))) := by
  rcases inPhase_next h with ⟨hp, h⟩ | hw
  · refine .inr ⟨hp, ?_⟩
    by_cases h0 : s.eRem = 0
    · rw [if_pos h0] at h
      exact .inl ⟨h0, by simpa using h⟩
    rw [if_neg h0] at h
    rcases hc : codeGet s.code (toStorage s.cfg px) with _ | bits <;> simp only [hc] at h
    · exact .inr (.inl ⟨h0, rfl, by simpa using h⟩)
    · exact .inr (.inr ⟨h0, bits, rfl, by simpa using h⟩)
  · exact .inl hw

theorem execEncend_cases (h : execEncend s = .next t) :
    OutOfPhase .enc s t ∨
    (s.phase = .enc ∧
      ((0 < s.eRem.toNat ∧ t = respond (.refused .countNotExhausted) s) ∨
       (s.eRem.toNat = 0 ∧ s.eAcc.length ≤ 8 ∧
          t = emitted (if s.eAcc.length = 0 then [] else [byteOf (padToByte s.eAcc)])
            { s with eAcc := [], phase := .ready }))) := by
  rcases inPhase_next h with ⟨hp, h⟩ | hw
  · refine .inr ⟨hp, ?_⟩
    by_cases h0 : 0 < s.eRem.toNat
    · rw [if_pos h0] at h
      exact .inl ⟨h0, by simpa using h⟩
    rw [if_neg h0] at h
    by_cases h8 : 8 < s.eAcc.length
    · rw [if_pos h8] at h
      exact absurd h (by simp)
    · rw [if_neg h8] at h
      exact .inr ⟨by omega, by omega, by simpa using h⟩
  · exact .inl hw

/-- A walk through bits ends with as many pixel writes more as it has taken off the pixels left. -/
theorem walkBits_writes {r : Nat} {bits : Bits} {w w' : Walk}
    (h : walkBits s r bits w = .done w' ∨ ∃ c1, walkBits s r bits w = .missing w' c1) :
    ∃ ps : List PixelRun, w'.writes = w.writes ++ ps ∧ ps.length ≤ bits.length ∧
      w'.rem.toNat + ps.length = w.rem.toNat := by
  induction bits generalizing w with
  | nil =>
    rcases h with h | ⟨c1, h⟩
    · simp only [walkBits, WalkEnd.done.injEq] at h
      subst h
      exact ⟨[], by simp⟩
    · simp [walkBits] at h
  | cons bit bits ih =>
    simp only [walkBits] at h
    by_cases h0 : w.rem = 0
    · simp only [h0, if_true, WalkEnd.done.injEq, reduceCtorEq, exists_false, or_false] at h
      subst h
      exact ⟨[], by simp⟩
    have hpos : 0 < w.rem.toNat := by
      rcases Nat.eq_zero_or_pos w.rem.toNat with h' | h'
      · exact absurd (BitVec.eq_of_toNat_eq (by simpa using h')) h0
      · exact h'
    simp only [if_neg h0] at h
    rcases hb : walkBit s r bit w with w1 | ⟨w1, c1⟩ | k
    · have hstep : ∃ ps : List PixelRun, w1.writes = w.writes ++ ps ∧ ps.length ≤ 1 ∧
          w1.rem.toNat + ps.length = w.rem.toNat := by
        unfold walkBit at hb
        rcases ha : advance s.node r w.cur bit with k | c1 | k <;> simp only [ha] at hb
        · rcases hk : s.node[k]? with _ | n <;> simp only [hk] at hb
          · exact absurd hb (by simp)
          · rcases hl : n.isLeaf with _ | _ <;> simp only [hl] at hb
            · simp only [Bool.false_eq_true, if_false, WalkEnd.done.injEq] at hb
              subst hb
              exact ⟨[], by simp⟩
            · simp only [if_true, WalkEnd.done.injEq] at hb
              subst hb
              refine ⟨_, rfl, by simp, ?_⟩
              simp only [List.length_cons, List.length_nil]
              have h1 : (1 : U64) ≤ w.rem := hpos
              rw [BitVec.toNat_sub_of_le h1]
              show w.rem.toNat - 1 + (0 + 1) = w.rem.toNat
              omega
        · exact absurd hb (by simp)
        · exact absurd hb (by simp)
      obtain ⟨p1, hw1, hl1, hr1⟩ := hstep
      simp only [hb] at h
      obtain ⟨p2, hw2, hl2, hr2⟩ := ih h
      refine ⟨p1 ++ p2, by simp [hw2, hw1], by simp only [List.length_append, List.length_cons]; omega, ?_⟩
      simp only [List.length_append]
      omega
    · simp only [hb, reduceCtorEq, WalkEnd.missing.injEq, false_or] at h
      obtain ⟨c2, h, -⟩ := h
      subst h
      have : w1 = w := by
        unfold walkBit at hb
        rcases ha : advance s.node r w.cur bit with k | c1 | k <;> simp only [ha] at hb
        · rcases hk : s.node[k]? with _ | n <;> simp only [hk] at hb
          · exact absurd hb (by simp)
          · rcases hl : n.isLeaf with _ | _ <;> simp [hl] at hb
        · simp only [WalkEnd.missing.injEq] at hb
          exact hb.1.symm
        · exact absurd hb (by simp)
      subst this
      exact ⟨[], by simp⟩
    · simp [hb] at h

/-! ## The automaton and the walk, in the terms of the claims -/

theorem isLeaf_iff {n : NodeRec} : n.isLeaf = true ↔ leafRecord n := by
  simp [NodeRec.isLeaf, leafRecord]

/-- What `advance` answers (R130). -/
theorem advance_of_appliedAt {nodes : List NodeRec} {r c c1 : Nat} {n1 : NodeRec} (h : appliedAt nodes r c c1 n1)
    (bit : Bit) :
    advance nodes r c bit =
      match childOf bit n1 with
      | some k => .moved k
      | none => .missing c1 := by
  obtain ⟨n, hn, hr, hc, h1⟩ := h
  have hc1 : (if n.isLeaf = true then r else c) = c1 := by
    by_cases hl : leafRecord n
    · rw [if_pos (isLeaf_iff.2 hl), hr hl]
    · rw [if_neg (fun h => hl (isLeaf_iff.1 h)), hc hl]
  rcases hb : childOf bit n1 with _ | k <;> simp only [childOf] at hb <;> simp only [advance, hn, hc1, h1, hb]

/-- `advance` answers a move or a missing child only so. -/
theorem appliedAt_of_advance {nodes : List NodeRec} {r c : Nat} {bit : Bit}
    (h : ∀ k, advance nodes r c bit ≠ .absent k) : ∃ c1 n1, appliedAt nodes r c c1 n1 := by
  unfold advance at h
  rcases hn : nodes[c]? with _ | n <;> simp only [hn] at h
  · exact absurd rfl (h c)
  rcases h1 : nodes[if n.isLeaf = true then r else c]? with _ | n1 <;> simp only [h1] at h
  · exact absurd rfl (h _)
  refine ⟨_, n1, n, hn, fun hl => ?_, fun hl => ?_, h1⟩
  · rw [if_pos (isLeaf_iff.2 hl)]
  · rw [if_neg (fun h => hl (isLeaf_iff.1 h))]

theorem goesTo_of_advance {nodes : List NodeRec} {r c k : Nat} {bit : Bit} {n : NodeRec}
    (h : advance nodes r c bit = .moved k) (hk : nodes[k]? = some n) : goesTo nodes r c bit k n := by
  obtain ⟨c1, n1, ha⟩ := appliedAt_of_advance (nodes := nodes) (r := r) (c := c) (bit := bit) (by simp [h])
  have := advance_of_appliedAt ha bit
  rw [h] at this
  rcases hb : childOf bit n1 with _ | k' <;> rw [hb] at this
  · exact absurd this (by simp)
  · obtain rfl : k = k' := by simpa using this
    exact ⟨hk, c1, n1, ha, hb⟩

theorem advance_of_goesTo {nodes : List NodeRec} {r c k : Nat} {bit : Bit} {n : NodeRec}
    (h : goesTo nodes r c bit k n) : advance nodes r c bit = .moved k := by
  obtain ⟨-, c1, n1, ha, hb⟩ := h
  rw [advance_of_appliedAt ha, hb]

theorem advance_missing {nodes : List NodeRec} {r c c1 : Nat} {bit : Bit} :
    advance nodes r c bit = .missing c1 ↔ stuckAt nodes r c bit c1 := by
  constructor
  · intro h
    obtain ⟨c2, n1, ha⟩ := appliedAt_of_advance (nodes := nodes) (r := r) (c := c) (bit := bit) (by simp [h])
    have := advance_of_appliedAt ha bit
    rw [h] at this
    rcases hb : childOf bit n1 with _ | k' <;> rw [hb] at this
    · obtain rfl : c1 = c2 := by simpa using this
      exact ⟨n1, ha, hb⟩
    · exact absurd this (by simp)
  · rintro ⟨n1, ha, hb⟩
    rw [advance_of_appliedAt ha, hb]

theorem rem_ne_zero {v : U64} (h : 0 < v.toNat) : v ≠ 0 := by
  rintro rfl
  exact absurd h (by simp)

/-- A walk feeds the bits one by one (R141). -/
theorem walkBits_of_feeds {r c left k : Nat} {bits : Bits} {vs : List U32} (h : Feeds s r c left bits k vs)
    (w : Walk) (rest : Bits) (hc : w.cur = c) (hl : w.rem.toNat = left) (hi : w.idx.toNat + vs.length < 2 ^ 64) :
    ∃ ps : List PixelRun, pixelWrites ps = placedFrom w.idx.toNat s.dW.toNat vs ∧
      walkBits s r (bits ++ rest) w = walkBits s r rest
        { cur := k
          idx := BitVec.ofNat 64 (w.idx.toNat + vs.length)
          rem := BitVec.ofNat 64 (left - vs.length)
          writes := w.writes ++ ps } := by
  induction h generalizing w with
  | nil =>
    subst hc hl
    exact ⟨[], rfl, by simp⟩
  | @inner c left bit bits k k' n vs hpos hg hn h ih =>
    have hb : walkBit s r bit w = .done { w with cur := k } := by
      have hnl : n.isLeaf = false := by simpa [← isLeaf_iff] using hn
      simp [walkBit, hc, advance_of_goesTo hg, hg.1, hnl]
    obtain ⟨ps, hps, hw⟩ := ih { w with cur := k } rfl hl hi
    refine ⟨ps, hps, ?_⟩
    rw [List.cons_append, walkBits, if_neg (rem_ne_zero (hl ▸ hpos)), hb]
    exact hw
  | @leaf c left bit bits k k' n vs hpos hg hn h ih =>
    have hi' : w.idx.toNat + 1 + vs.length < 2 ^ 64 := by
      rw [List.length_cons] at hi; omega
    have hidx : (exact64 (w.idx.toNat + 1)).toNat = w.idx.toNat + 1 := exact64_toNat (by omega)
    have hrem : (w.rem - 1).toNat = left - 1 := by
      have h1 : (1 : U64) ≤ w.rem := by show 1 ≤ w.rem.toNat; omega
      rw [BitVec.toNat_sub_of_le h1, hl]; rfl
    obtain ⟨ps, hps, hw⟩ := ih
      { cur := k, idx := exact64 (w.idx.toNat + 1), rem := w.rem - 1,
        writes := w.writes ++
          [{ first := w.idx.toNat, count := 1, width := s.dW.toNat, value := toNative s.cfg n.symbol }] }
      rfl hrem (by rw [hidx]; exact hi')
    refine ⟨{ first := w.idx.toNat, count := 1, width := s.dW.toNat, value := toNative s.cfg n.symbol } :: ps, ?_, ?_⟩
    · simp only [hidx] at hps
      simp only [pixelWrites, List.flatMap_cons] at hps ⊢
      rw [hps]
      simp [PixelRun.writes, placedFrom]
    · have hb : walkBit s r bit w = .done
          { cur := k, idx := exact64 (w.idx.toNat + 1), rem := w.rem - 1,
            writes := w.writes ++
              [{ first := w.idx.toNat, count := 1, width := s.dW.toNat, value := toNative s.cfg n.symbol }] } := by
        simp [walkBit, hc, advance_of_goesTo hg, hg.1, isLeaf_iff.2 hn]
      rw [List.cons_append, walkBits, if_neg (rem_ne_zero (hl ▸ hpos)), hb]
      simp only [hw, hidx, List.length_cons]
      congr 2
      · congr 1; omega
      · congr 1; omega
      · simp

/-- Each fed bit reaches at most one leaf, and each leaf takes a pixel off. -/
theorem feeds_length {r c left k : Nat} {bits : Bits} {vs : List U32} (h : Feeds s r c left bits k vs) :
    vs.length ≤ bits.length ∧ vs.length ≤ left := by
  induction h with
  | nil => simp
  | inner hl hg hn h ih => simp only [List.length_cons]; omega
  | leaf hl hg hn h ih => simp only [List.length_cons]; omega

/-- Where a walk ends, and what was fed on the way: all bits, or those up to the last pixel, or those before a bit that
selects an absent child. -/
theorem feeds_of_walkBits {r : Nat} {bits : Bits} {w : Walk} :
    (∀ w', walkBits s r bits w = .done w' →
      ∃ fed skipped vs, bits = fed ++ skipped ∧ Feeds s r w.cur w.rem.toNat fed w'.cur vs ∧
        vs.length ≤ w.rem.toNat ∧ (skipped ≠ [] → vs.length = w.rem.toNat)) ∧
    (∀ w' c1, walkBits s r bits w = .missing w' c1 →
      ∃ fed bit skipped vs k, bits = fed ++ bit :: skipped ∧ Feeds s r w.cur w.rem.toNat fed k vs ∧
        vs.length < w.rem.toNat ∧ stuckAt s.node r k bit c1) := by
  induction bits generalizing w with
  | nil =>
    refine ⟨fun w' h => ?_, fun w' c1 h => absurd h (by simp [walkBits])⟩
    obtain rfl : w = w' := by simpa [walkBits] using h
    exact ⟨[], [], [], rfl, .nil, by simp, by simp⟩
  | cons bit bits ih =>
    by_cases h0 : w.rem = 0
    · refine ⟨fun w' h => ?_, fun w' c1 h => absurd h (by simp [walkBits, h0])⟩
      obtain rfl : w = w' := by simpa [walkBits, h0] using h
      exact ⟨[], bit :: bits, [], rfl, .nil, by simp, by simp [h0]⟩
    have hpos : 0 < w.rem.toNat := by
      rcases Nat.eq_zero_or_pos w.rem.toNat with h' | h'
      · exact absurd (BitVec.eq_of_toNat_eq (by simpa using h')) h0
      · exact h'
    simp only [walkBits, if_neg h0]
    unfold walkBit
    rcases ha : advance s.node r w.cur bit with k | c1 | k
    · rcases hk : s.node[k]? with _ | n
      · simp [hk]
      have hg := goesTo_of_advance ha hk
      by_cases hl : leafRecord n
      · have hrem : (w.rem - 1).toNat = w.rem.toNat - 1 := by
          have h1 : (1 : U64) ≤ w.rem := hpos
          rw [BitVec.toNat_sub_of_le h1]; rfl
        simp only [hk, isLeaf_iff.2 hl, if_true]
        refine ⟨fun w' h => ?_, fun w' c1 h => ?_⟩
        · obtain ⟨fed, skipped, vs, hb, hf, hle, hs⟩ := ih.1 w' h
          simp only [hrem] at hf hle hs
          refine ⟨bit :: fed, skipped, _, by rw [hb]; rfl, .leaf hpos hg hl hf, ?_, fun h => ?_⟩
          · rw [List.length_cons]; omega
          · have := hs h
            rw [List.length_cons]; omega
        · obtain ⟨fed, b', skipped, vs, k', hb, hf, hlt, hst⟩ := ih.2 w' c1 h
          simp only [hrem] at hf hlt
          refine ⟨bit :: fed, b', skipped, _, k', by rw [hb]; rfl, .leaf hpos hg hl hf, ?_, hst⟩
          rw [List.length_cons]; omega
      · have hnl : n.isLeaf = false := by simpa [← isLeaf_iff] using hl
        simp only [hk, hnl, Bool.false_eq_true, if_false]
        refine ⟨fun w' h => ?_, fun w' c1 h => ?_⟩
        · obtain ⟨fed, skipped, vs, hb, hf, hle, hs⟩ := ih.1 w' h
          exact ⟨bit :: fed, skipped, vs, by rw [hb]; rfl, .inner hpos hg hl hf, hle, hs⟩
        · obtain ⟨fed, b', skipped, vs, k', hb, hf, hlt, hst⟩ := ih.2 w' c1 h
          exact ⟨bit :: fed, b', skipped, vs, k', by rw [hb]; rfl, .inner hpos hg hl hf, hlt, hst⟩
    · refine ⟨fun w' h => absurd h (by simp), fun w' c2 h => ?_⟩
      obtain ⟨-, rfl⟩ : w = w' ∧ c1 = c2 := by simpa using h
      exact ⟨[], bit, bits, [], w.cur, rfl, .nil, by simpa using hpos, advance_missing.1 ha⟩
    · simp

end Sys2Proof.Machine
end

