-- ==== Sys2Proof/Laws/PerInstr.lean ====
section
/-! SUPPORT. Facts about every operation as syntax, one lemma per constructor. -/

namespace Sys2Proof.Laws.OpField

/-- The operation is well formed, its code stands in `op` (R80, R84), and the bits of `arg` that its format does not use
are zero in its word (R82). -/
def Statement (i : Instr) : Prop :=
  i.wellFormed = true ∧ opField (encode i) = i.opcode ∧ i.arg &&& i.argMask = i.arg

/-- The code of a word is the code it was put together with. -/
theorem opField_append (op : BitVec 8) (arg : BitVec 64) : opField (op ++ arg) = op := by
  apply BitVec.eq_of_toNat_eq
  simp only [opField, BitVec.extractLsb'_toNat, BitVec.toNat_append, Nat.shiftLeft_eq]
  rw [← Nat.shiftLeft_eq, Nat.shiftRight_or_distrib, Nat.shiftLeft_shiftRight]
  rw [Nat.shiftRight_eq_div_pow, Nat.div_eq_of_lt arg.isLt]
  simpa using op.isLt

theorem zeroArg (i : Instr) (h : i.wellFormed = true) (ha : i.arg = 0) : Statement i :=
  ⟨h, opField_append _ _, by simp [ha]⟩

theorem lowMask (v : U32) : v.setWidth 64 &&& (0x00000000FFFFFFFF : U64) = v.setWidth 64 := by
  apply BitVec.eq_of_toNat_eq
  simp only [BitVec.toNat_and, BitVec.toNat_setWidth]
  rw [show BitVec.toNat (0x00000000FFFFFFFF : U64) = 2 ^ 32 - 1 from rfl, Nat.and_two_pow_sub_one_eq_mod]
  have := v.isLt
  omega

theorem reset : Statement .reset := zeroArg _ rfl rfl
theorem status : Statement .status := zeroArg _ rfl rfl
theorem scan (px : U32) : Statement (.scan px) := ⟨rfl, opField_append _ _, lowMask px⟩
theorem prio : Statement .prio := zeroArg _ rfl rfl
theorem merge : Statement .merge := zeroArg _ rfl rfl
theorem mkroot : Statement .mkroot := zeroArg _ rfl rfl
theorem gencode : Statement .gencode := zeroArg _ rfl rfl
theorem lookup (sym : Symbol) : Statement (.lookup sym) := ⟨rfl, opField_append _ _, lowMask sym⟩
theorem currst : Statement .currst := zeroArg _ rfl rfl
theorem step (bit : Bit) : Statement (.step bit) := ⟨rfl, opField_append _ _, by cases bit <;> decide⟩
theorem decbegin : Statement .decbegin := zeroArg _ rfl rfl
theorem decbyte (b : Byte) : Statement (.decbyte b) := by
  refine ⟨rfl, opField_append _ _, ?_⟩
  apply BitVec.eq_of_toNat_eq
  simp only [Instr.arg, Instr.argMask, BitVec.toNat_and, BitVec.toNat_setWidth]
  rw [show BitVec.toNat (0x00000000000000FF : U64) = 2 ^ 8 - 1 from rfl, Nat.and_two_pow_sub_one_eq_mod]
  have := b.isLt
  omega
theorem decend : Statement .decend := zeroArg _ rfl rfl
theorem enchdr (w h : U32) : Statement (.enchdr w h) := by
  refine ⟨rfl, opField_append _ _, ?_⟩
  exact BitVec.and_allOnes (x := Instr.arg (.enchdr w h))
theorem encpix (px : U32) : Statement (.encpix px) := ⟨rfl, opField_append _ _, lowMask px⟩
theorem encend : Statement .encend := zeroArg _ rfl rfl

end Sys2Proof.Laws.OpField
end

