-- ==== Sys2Proof/Machine/Assembly.lean ====
section
/-! DEFINITION. The assembler's syntax (30_encoding.md R86): one operation per line, the mnemonic in capitals, operands
separated by commas, decimal or 0x hexadecimal numbers, a comment from the semicolon on (log 12). -/

namespace Sys2Proof.Machine

/-- The value of a digit, hexadecimal digits included. -/
def digitValue (c : Char) : Option Nat :=
  if '0'.toNat ≤ c.toNat ∧ c.toNat ≤ '9'.toNat then some (c.toNat - '0'.toNat)
  else if 'a'.toNat ≤ c.toNat ∧ c.toNat ≤ 'f'.toNat then some (c.toNat - 'a'.toNat + 10)
  else if 'A'.toNat ≤ c.toNat ∧ c.toNat ≤ 'F'.toNat then some (c.toNat - 'A'.toNat + 10)
  else none

/-- The number that digits spell in a base, the most significant first. -/
def readDigits (base : Nat) : List Char → Nat → Option Nat
  | [], acc => some acc
  | c :: cs, acc =>
    match digitValue c with
    | none => none
    | some d => if d < base then readDigits base cs (base * acc + d) else none

/-- A number: decimal, or hexadecimal after `0x`. -/
def readNumber : List Char → Option Nat
  | [] => none
  | ['0', 'x'] => none
  | '0' :: 'x' :: ds => readDigits 16 ds 0
  | ds => readDigits 10 ds 0

/-- A blank between the parts of a line. -/
def isBlank (c : Char) : Bool := c == ' ' || c == '\t'

/-- `cs` without blanks at its ends. -/
def trimBlanks (cs : List Char) : List Char := ((cs.dropWhile isBlank).reverse.dropWhile isBlank).reverse

/-- The parts of `cs` between commas. -/
def splitCommas : List Char → List (List Char)
  | [] => [[]]
  | c :: cs =>
    if c = ',' then [] :: splitCommas cs
    else
      match splitCommas cs with
      | [] => [[c]]
      | part :: parts => (c :: part) :: parts

/-- The operands after the mnemonic. -/
def readOperands (cs : List Char) : Option (List Nat) :=
  if trimBlanks cs = [] then some [] else (splitCommas cs).mapM fun p => readNumber (trimBlanks p)

/-- An operand of `n` bits; a number that does not fit is no operand of that format (R82). -/
def fitOperand (n v : Nat) : Option (BitVec n) := if v < 2 ^ n then some (BitVec.ofNat n v) else none

/-- The operation of a mnemonic and its operands (R84). -/
def assembleOp (name : List Char) : List Nat → Option Instr
  | [] =>
    [Instr.reset, .status, .prio, .merge, .mkroot, .gencode, .currst, .decbegin, .decend, .encend].find?
      fun i => i.mnemonic.toList == name
  | [v] =>
    if name = "SCAN".toList then (fitOperand 32 v).map .scan
    else if name = "LOOKUP".toList then (fitOperand 32 v).map .lookup
    else if name = "ENCPIX".toList then (fitOperand 32 v).map .encpix
    else if name = "DECBYTE".toList then (fitOperand 8 v).map .decbyte
    else if name = "STEP".toList then (fitOperand 1 v).map fun b => .step (b.getLsbD 0)
    else none
  | [w, h] =>
    if name = "ENCHDR".toList then
      match fitOperand 32 w, fitOperand 32 h with
      | some w', some h' => some (.enchdr w' h')
      | _, _ => none
    else none
  | _ => none

/-- One line: `none` where it is no line of the syntax, `some none` where it holds no operation. -/
def assembleLine (line : String) : Option (Option Instr) :=
  let cs := trimBlanks (line.toList.takeWhile fun c => c != ';')
  if cs = [] then some none
  else
    match readOperands (cs.dropWhile fun c => !isBlank c) with
    | none => none
    | some ops => (assembleOp (cs.takeWhile fun c => !isBlank c) ops).map some

/-- The command words of a program, one line each; `none` where a line is no line of the syntax. -/
def assemble (lines : List String) : Option (List CmdWord) :=
  (lines.mapM assembleLine).map fun ops => (ops.filterMap id).map encode

end Sys2Proof.Machine
end

