-- ==== Sys2Proof/Tests/Slice0.lean ====
section
/-! SUPPORT. Tests on the vectors of 95_test_vectors.md (their numbers stand at each), the refusals of WellFormed, and for
every statement with hypotheses a concrete state that meets them, at the edges of each clause. -/

namespace Sys2Proof.Tests

open Sys2Proof Sys2Proof.Machine Sys2Proof.Machine.Claims

/-! ## Small states -/

/-- The leaf of a symbol. -/
def lf (sym : Symbol) (f : U64) : NodeRec := ⟨sym, f, none, none⟩

/-- The internal node of two children. -/
def inner (f : U64) (l r : Nat) : NodeRec := ⟨0, f, some l, some r⟩

/-- S1a after its four SCANs. -/
def scanned : State := { State.reset with dist := [⟨0xFF0000FF, 3⟩, ⟨0x00FF00FF, 1⟩], npix := 4 }

/-- S1a after PRIO. -/
def queued : State :=
  { scanned with phase := .queue, node := [lf 0xFF0000FF 3, lf 0x00FF00FF 1], pq := [1, 0] }

/-- S1a after MERGE. -/
def merged : State :=
  { scanned with phase := .queue, node := [lf 0xFF0000FF 3, lf 0x00FF00FF 1, inner 4 1 0], pq := [2] }

/-- S1a after MKROOT. -/
def rooted : State := { merged with phase := .tree, pq := [], root := some 2, cur := some 2 }

/-- S1a after GENCODE. -/
def ready : State := { rooted with phase := .ready, code := [(0x00FF00FF, [false]), (0xFF0000FF, [true])] }

/-- S1a in an encode session of two by two pixels, two of them coded. -/
def encoding : State := { ready with phase := .enc, eW := 2, eH := 2, eRem := 2, eAcc := [true, true] }

/-- S1a in a decode session of two by two pixels, the header received. -/
def decoding : State :=
  { ready with phase := .dec, dHb := 8, dHdr := [0, 0, 0, 2, 0, 0, 0, 2], dW := 2, dH := 2, dRem := 4 }

/-- S1a in a decode session, seven header bytes received. -/
def sevenBytes : State := { ready with phase := .dec, dHb := 7, dHdr := [0, 0, 0, 2, 0, 0, 0] }

/-- V35: one colour scanned, the tree a leaf. -/
def oneColour : State :=
  { State.reset with
    phase := .ready, dist := [⟨0x0000FFFF, 6⟩], npix := 6, node := [lf 0x0000FFFF 6], root := some 0, cur := some 0,
    code := [(0x0000FFFF, [])] }

/-- V82: S1a after a colour the tree does not know. -/
def failedEnc : State :=
  { ready with phase := .fault, err := some .unknownSymbol, einfo := 0xFFFF, eW := 2, eH := 1, eRem := 1,
               eAcc := [true] }

/-- V45: a state that no run reaches, a root with one child. -/
def halfTree : State :=
  { State.reset with phase := .ready, node := [lf 0x336699FF 1, ⟨0, 1, some 0, none⟩], root := some 1, cur := some 1 }

/-- V62: the decode session on the tree of V45. -/
def halfTreeDec : State :=
  { halfTree with phase := .dec, dHb := 8, dHdr := [0, 0, 0, 3, 0, 0, 0, 1], dW := 3, dH := 1, dRem := 3 }

/-- V11: the distribution of five symbols. -/
def fiveScanned : State :=
  { State.reset with
    dist := [⟨0x11111101, 5⟩, ⟨0x11111102, 2⟩, ⟨0x11111103, 1⟩, ⟨0x11111104, 1⟩, ⟨0x11111105, 2⟩], npix := 11 }

/-- V20: the tree of V11. -/
def fiveReady : State :=
  { fiveScanned with
    phase := .ready, root := some 8, cur := some 8,
    node := [lf 0x11111101 5, lf 0x11111102 2, lf 0x11111103 1, lf 0x11111104 1, lf 0x11111105 2, inner 2 2 3,
             inner 4 1 4, inner 6 5 6, inner 11 0 7],
    code := [(0x11111101, [false]), (0x11111102, [true, true, false]), (0x11111103, [true, false, false]),
             (0x11111104, [true, false, true]), (0x11111105, [true, true, true])] }

/-- A field of the next state. -/
def after {α : Type} (r : Result) (f : State → α) : Option α := (nextState r).map f

/-! ## The command word (R80 to R85) and the assembler (R86) -/

-- each word written out from the operation map: eight bits of op, then arg
theorem test_decode_system :
    decode 0x000000000000000000 = some .reset ∧ decode 0x010000000000000000 = some .status := by decide
theorem test_decode_counter :
    decode 0x0200000000FFFF0000 = some (.scan 0xFFFF0000) ∧ decode 0x030000000000000000 = some .prio := by decide
theorem test_decode_builder :
    decode 0x040000000000000000 = some .merge ∧ decode 0x050000000000000000 = some .mkroot := by decide
theorem test_decode_codes :
    decode 0x060000000000000000 = some .gencode ∧
    decode 0x0700000000FF0000FF = some (.lookup 0xFF0000FF) := by decide
theorem test_decode_automaton :
    decode 0x080000000000000000 = some .currst ∧ decode 0x090000000000000001 = some (.step true) ∧
    decode 0x09FFFFFFFFFFFFFFFE = some (.step false) := by decide
theorem test_decode_decoder :
    decode 0x0A0000000000000000 = some .decbegin ∧ decode 0x0B00000000000000D0 = some (.decbyte 0xD0) ∧
    decode 0x0C0000000000000000 = some .decend := by decide
theorem test_decode_encoder :
    decode 0x0D0000000B00000001 = some (.enchdr 11 1) ∧ decode 0x0E00000000FF00FF00 = some (.encpix 0xFF00FF00) ∧
    decode 0x0F0000000000000000 = some .encend := by decide
-- V5: the unused bits are ignored; V84: illegal codes
theorem test_decode_ignored_bits : decode 0x02DEADBEEF80112233 = some (.scan 0x80112233) := by decide
theorem test_decode_illegal :
    decode 0x100000000000000000 = none ∧ decode 0xFF0000000000001234 = none ∧
    decode 0x80FFFFFFFFFFFFFFFF = none := by decide
theorem test_encode_words :
    encode (.enchdr 2 2) = 0x0D0000000200000002 ∧ encode (.decbyte 0xA5) = 0x0B00000000000000A5 ∧
    encode (.scan 0xFFFF0000) = 0x0200000000FFFF0000 := by decide
-- R84: the rows of the table, no two of which overlap
theorem test_table_rows_disjoint :
    opTable.Pairwise fun a b => (a.pattern ^^^ b.pattern) &&& a.mask &&& b.mask ≠ 0 := by decide
theorem test_table_rows_decode :
    opTable.map (fun r => (decode r.pattern).map Instr.mnemonic) = opTable.map fun r => some r.mnemonic := by decide
theorem test_decode_table_word :
    decodeTableWord 72 0x0200000000FFFF0000 = some (.scan 0xFFFF0000) ∧ decodeTableWord 73 0 = none := by decide
-- R86, the lines of program P1
theorem test_assemble_lines :
    assemble ["RESET", "SCAN 0xFFFF0000 ; red", "ENCHDR 2, 2", "; nothing"] =
      some [0x000000000000000000, 0x0200000000FFFF0000, 0x0D0000000200000002] := by decide
theorem test_assemble_refuses : assemble ["DECBYTE 256"] = none ∧ assemble ["scan 1"] = none := by decide

/-! ## WellFormed -/

theorem test_wellFormed_refuses_no_symbols : Config.wellFormed ⟨0, .argb⟩ = false := by decide
theorem test_wellFormed_refuses_too_many_symbols : Config.wellFormed ⟨2 ^ 32 + 1, .argb⟩ = false := by decide
theorem test_wellFormed_refuses_short_image : Macro.wellFormed (.encode 2 2 [1, 2, 3]) = false := by decide
theorem test_wellFormed_accepts_default : Config.wellFormed Config.default = true := by decide

/-! ## The operations -/

-- R15: native opaque red, and the same colour in other native orders: stored 0xFF0000FF. R G B A, B G R A, A B G R
theorem test_native_orders :
    toStorage ⟨1, .argb⟩ 0xFFFF0000 = 0xFF0000FF ∧ toStorage ⟨1, .exchanges []⟩ 0xFF0000FF = 0xFF0000FF ∧
    toStorage ⟨1, .exchanges [.bytes 1 3]⟩ 0x0000FFFF = 0xFF0000FF ∧
    toStorage ⟨1, .exchanges [.bytes 0 3, .bytes 1 2]⟩ 0xFF0000FF = 0xFF0000FF ∧
    toStorage ⟨1, .exchanges [.bytes 0 3, .bytes 1 2]⟩ 0x80112233 = 0x33221180 ∧
    toNative ⟨1, .exchanges [.bytes 0 3, .values 5 6]⟩ 5 = 0x06000000 := by decide
-- R21: of the 16 x 7 pairs 28 have a step (95_test_vectors.md section 2.7)
theorem test_phase_table :
    ([Phase.scan, .queue, .tree, .ready, .enc, .dec, .fault].map fun p =>
      ([Instr.reset, .status, .scan 0, .prio, .merge, .mkroot, .gencode, .lookup 0, .currst, .step false, .decbegin,
        .decbyte 0, .decend, .enchdr 0 0, .encpix 0, .encend].filter (hasStep p)).length) =
      [4, 4, 3, 7, 4, 4, 2] := by decide
-- V85, V86
theorem test_reset : nextState (exec .reset { encoding with eAcc := [true, false, true] }) =
    some { State.reset with port := { Port.empty with resp := some (.ok .nothing) } } := by decide
-- V82
theorem test_status : after (exec .status failedEnc) (fun t => t.port.resp) =
    some (some (.ok (.status ⟨6, 4, 0xFFFF, 4, 2, 3, 0, some 2, some 2, 2, 1, 1, 1, 0, 0, 0, 0, 0⟩))) := by decide
-- V1, V4
theorem test_scan_new : after (exec (.scan 0x80112233) State.reset) (fun t => (t.dist, t.npix)) =
    some ([⟨0x11223380, 1⟩], 1) := by decide
theorem test_scan_known :
    after (exec (.scan 0xFFFF0000) scanned) (fun t => (t.dist, t.npix)) =
      some ([⟨0xFF0000FF, 4⟩, ⟨0x00FF00FF, 1⟩], 5) := by decide
-- V11, V8
theorem test_prio : after (exec .prio fiveScanned) (fun t => (t.pq, t.phase)) = some ([2, 3, 1, 4, 0], .queue) := by
  decide
theorem test_prio_empty : after (exec .prio State.reset) (fun t => (t.err, t.phase, t.node)) =
    some (some .emptyInput, .fault, []) := by decide
-- V20, first pass: node 5 goes behind the leaves 1 and 4 of equal frequency; V27
theorem test_merge :
    after (exec .merge { fiveReady with phase := .queue, node := fiveReady.node.take 5, pq := [2, 3, 1, 4, 0] })
      (fun t => (t.pq, t.node[5]?)) = some ([1, 4, 5, 0], some (inner 2 2 3)) := by decide
theorem test_merge_too_short : after (exec .merge merged) (fun t => (t.port.resp, t.pq)) =
    some (some (.refused .queueTooShort), [2]) := by decide
-- V26, V25
theorem test_mkroot : after (exec .mkroot merged) (fun t => (t.root, t.cur, t.pq, t.phase)) =
    some (some 2, some 2, [], .tree) := by decide
theorem test_mkroot_not_single : after (exec .mkroot queued) (fun t => (t.port.resp, t.root)) =
    some (some (.refused .queueNotSingle), none) := by decide
-- V30, V35
theorem test_gencode : after (exec .gencode { fiveReady with phase := .tree, code := [] }) (fun t => t.code) =
    some [(0x11111101, [false]), (0x11111102, [true, true, false]), (0x11111103, [true, false, false]),
          (0x11111104, [true, false, true]), (0x11111105, [true, true, true])] := by decide
theorem test_gencode_one_colour :
    after (exec .gencode { oneColour with phase := .tree, code := [] }) (fun t => (t.code, t.phase)) =
      some ([(0x0000FFFF, [])], .ready) := by decide
-- V36, V38
theorem test_lookup_hit : after (exec (.lookup 0xFF0000FF) ready) (fun t => t.port.resp) =
    some (some (.ok (.hit [true]))) := by decide
theorem test_lookup_miss : after (exec (.lookup 0) ready) (fun t => (t.port.resp, t.err, t.phase)) =
    some (some (.ok .miss), none, .ready) := by decide
-- V42
theorem test_currst : after (exec .currst { fiveReady with cur := some 7 }) (fun t => t.cur) = some (some 8) := by decide
-- V41, fourth row; V45, second bit
theorem test_step_from_leaf : after (exec (.step false) { fiveReady with cur := some 2 }) (fun t => (t.cur, t.port.resp)) =
    some (some 0, some (.ok (.moved 0 (lf 0x11111101 5) true))) := by decide
theorem test_step_missing : after (exec (.step true) { halfTree with cur := some 0 }) (fun t => (t.cur, t.err, t.einfo)) =
    some (some 1, some .corruptStream, 1) := by decide
-- R140
theorem test_decbegin : after (exec .decbegin { decoding with phase := .ready, cur := some 0 })
    (fun t => (t.cur, t.dHb, t.dRem, t.phase)) = some (some 2, 0, 0, .dec) := by decide
-- V50, the byte 0x5F; V62
theorem test_decbyte_body :
    after (exec (.decbyte 0x5F)
        { fiveReady with phase := .dec, dHb := 8, dW := 4, dH := 2, dIdx := 4, dRem := 4, cur := some 2 })
      (fun t => (pixelWrites t.port.pixelsOut, t.cur, t.dIdx, t.dRem)) =
      some ([(0, 1, 0x01111111), (1, 1, 0x04111111), (2, 1, 0x05111111)], some 7, 7, 1) := by decide
theorem test_decbyte_corrupt :
    after (exec (.decbyte 0x40) halfTreeDec)
      (fun t => (pixelWrites t.port.pixelsOut, t.cur, t.dRem, t.port.resp)) =
      some ([(0, 0, 0xFF336699)], some 1, 2, some (.error .corruptStream 1)) := by decide
-- V55, V54
theorem test_decend_short_body : after (exec .decend decoding) (fun t => (t.port.resp, t.dRem)) =
    some (some (.error .dimensionMismatch 0), 4) := by decide
theorem test_decend_short_header : after (exec .decend sevenBytes) (fun t => (t.err, t.einfo, t.phase)) =
    some (some .truncatedHeader, 7, .fault) := by decide
-- V70
theorem test_enchdr : after (exec (.enchdr 0x0102 0x01000000) ready) (fun t => (t.port.bytesOut, t.eRem, t.phase)) =
    some ([0, 0, 1, 2, 1, 0, 0, 0], 4328521728, .enc) := by decide
-- R151's example; V73
theorem test_encpix : after (exec (.encpix 0xFF00FF00) encoding) (fun t => (t.eAcc, t.eRem, t.port.bytesOut)) =
    some ([true, true, false], 1, []) := by decide
theorem test_encpix_unknown : after (exec (.encpix 0xFF0000FF) encoding) (fun t => (t.err, t.einfo, t.eAcc)) =
    some (some .unknownSymbol, 0xFFFF, [true, true]) := by decide
-- R152's example
theorem test_encend :
    after (exec .encend { encoding with eRem := 0, eAcc := [true, true, false, true] })
      (fun t => (t.port.bytesOut, t.eAcc, t.phase)) = some ([0xD0], [], .ready) := by decide
-- V84, one step: an illegal word in FAULT
theorem test_step_illegal : after (step (failedEnc.withFetchWord 72 0x100000000000000000)) (fun t => (t.port.resp, t.phase)) =
    some (some (.refused .illegalOpcode), .fault) := by decide
-- R153, P3: one colour encodes to the header alone; R143, the decoded pixel (0,0)
theorem test_encode_macro : after (runMacro (.encode 1 1 [0xFF0000FF]) oneColour) (fun t => t.port.bytesOut) =
    some [0, 0, 0, 1, 0, 0, 0, 1] := by decide
theorem test_decode_macro :
    after (runMacro (.decode [0, 0, 0, 1, 0, 0, 0, 1]) oneColour) (fun t => rasterAt (pixelWrites t.port.pixelsOut) 0 0) =
      some (some 0xFF0000FF) := by decide
-- R102: SCANALL of no pixel answers ok
theorem test_scanall_empty : after (runMacro (.scanall []) State.reset) (fun t => t.port.resp) =
    some (some (.ok .nothing)) := by decide

/-! ## States of the invariant -/

theorem forest_queued : Forest queued [1, 0] := by
  constructor <;> decide

theorem forest_two : Forest ready [2] := by
  constructor <;> decide

theorem forest_one : Forest oneColour [0] := by
  constructor <;> decide

theorem built_ready : Built ready 2 2 (.node 4 (.leaf 0x00FF00FF 1) (.leaf 0xFF0000FF 3)) :=
  ⟨rfl, rfl, by decide, rfl, forest_two, by decide, by decide, by decide⟩

theorem encoderInv_idle {s : State} (h : s.eAcc = []) (h' : s.eRem = 0) : EncoderInv s :=
  ⟨by simp [h], by simp [h'], fun _ _ => ⟨h, h'⟩⟩

theorem decoderInv_idle {s : State} (h1 : s.dHb = 0) (h2 : s.dHdr = []) (h3 : s.dW = 0) (h4 : s.dH = 0)
    (h5 : s.dRem = 0) (h6 : s.dIdx = 0) : DecoderInv s :=
  ⟨by simp [h1, h2], by simp [h1], fun _ => ⟨h3, h4, h5, h6⟩, by simp [h1], fun _ => h1⟩

theorem inv_scanned : Inv scanned where
  config := by decide
  errFault := by decide
  info := by decide
  distForm := by decide
  capacity := by decide
  counted := by decide
  encoder := encoderInv_idle rfl rfl
  decoder := decoderInv_idle rfl rfl rfl rfl rfl rfl
  tables := by constructor <;> rfl

theorem inv_reset : Inv State.reset where
  config := by decide
  errFault := by decide
  info := by decide
  distForm := by decide
  capacity := by decide
  counted := by decide
  encoder := encoderInv_idle rfl rfl
  decoder := decoderInv_idle rfl rfl rfl rfl rfl rfl
  tables := by constructor <;> rfl

theorem inv_queued : Inv queued where
  config := by decide
  errFault := by decide
  info := by decide
  distForm := by decide
  capacity := by decide
  counted := by decide
  encoder := encoderInv_idle rfl rfl
  decoder := decoderInv_idle rfl rfl rfl rfl rfl rfl
  tables := ⟨rfl, rfl, rfl, by decide, by decide, forest_queued⟩

theorem inv_merged : Inv merged where
  config := by decide
  errFault := by decide
  info := by decide
  distForm := by decide
  capacity := by decide
  counted := by decide
  encoder := encoderInv_idle rfl rfl
  decoder := decoderInv_idle rfl rfl rfl rfl rfl rfl
  tables := ⟨rfl, rfl, rfl, by decide, by decide, by constructor <;> decide⟩

theorem inv_rooted : Inv rooted where
  config := by decide
  errFault := by decide
  info := by decide
  distForm := by decide
  capacity := by decide
  counted := by decide
  encoder := encoderInv_idle rfl rfl
  decoder := decoderInv_idle rfl rfl rfl rfl rfl rfl
  tables := ⟨2, rfl, rfl, rfl, rfl, by constructor <;> decide⟩

theorem inv_ready : Inv ready where
  config := by decide
  errFault := by decide
  info := by decide
  distForm := by decide
  capacity := by decide
  counted := by decide
  encoder := encoderInv_idle rfl rfl
  decoder := decoderInv_idle rfl rfl rfl rfl rfl rfl
  tables := ⟨2, 2, _, built_ready⟩

theorem inv_decoding : Inv decoding where
  config := by decide
  errFault := by decide
  info := by decide
  distForm := by decide
  capacity := by decide
  counted := by decide
  encoder := encoderInv_idle rfl rfl
  decoder := by constructor <;> decide
  tables := ⟨2, 2, .node 4 (.leaf 0x00FF00FF 1) (.leaf 0xFF0000FF 3), rfl, rfl, by decide, rfl, by constructor <;> decide,
    by decide, by decide, by decide⟩

theorem inv_oneColour : Inv oneColour where
  config := by decide
  errFault := by decide
  info := by decide
  distForm := by decide
  capacity := by decide
  counted := by decide
  encoder := encoderInv_idle rfl rfl
  decoder := decoderInv_idle rfl rfl rfl rfl rfl rfl
  tables := ⟨0, 0, .leaf 0x0000FFFF 6, rfl, rfl, by decide, rfl, forest_one, by decide, by decide, by decide⟩

theorem forest_five : Forest fiveReady [8] := by
  constructor <;> decide

theorem inv_fiveReady : Inv fiveReady where
  config := by decide
  errFault := by decide
  info := by decide
  distForm := by decide
  capacity := by decide
  counted := by decide
  encoder := encoderInv_idle rfl rfl
  decoder := decoderInv_idle rfl rfl rfl rfl rfl rfl
  tables := ⟨8, 8, .node 11 (.leaf 0x11111101 5)
    (.node 6 (.node 2 (.leaf 0x11111103 1) (.leaf 0x11111104 1)) (.node 4 (.leaf 0x11111102 2) (.leaf 0x11111105 2))),
    rfl, rfl, by decide, rfl, forest_five, by decide, by decide, by decide⟩

/-! ## For every statement, a state and operands that meet its hypotheses -/

theorem hyp_DecodeEncodeAgree : decode 0x09FFFFFFFFFFFFFFFE = some (.step false) ∧
    0x09FFFFFFFFFFFFFFFE &&& careMask (.step false) = encode (.step false) := by decide

theorem hyp_IllegalAndOutOfPhaseWordsRefused :
    (issueNext 0x100000000000000000 failedEnc).port.cmds = [0x100000000000000000] ∧
    0x10 ≤ (0x100000000000000000 : CmdWord).toNat / 2 ^ 64 ∧ ¬ 0x10 ≤ (0x0FFFFFFFFFFFFFFFFF : CmdWord).toNat / 2 ^ 64 ∧
    decode 0x0F0000000000000000 = some .encend ∧ hasStep failedEnc.phase .encend = false := by decide

theorem hyp_StepRunsOldestCommand :
    (issueNext 0x040000000000000000 queued).port.cmds = [0x040000000000000000] ∧
    decode 0x040000000000000000 = some .merge := by decide

theorem hyp_StepWaitsWithoutCommand : State.reset.port.cmds = [] := rfl

theorem hyp_PhaseGovernsOperations : hasStep queued.phase .mkroot = true ∧ hasStep queued.phase .prio = false ∧
    after (exec .mkroot merged) (fun t => (t.port.resp, t.phase)) = some (some (.ok (.node 2 (inner 4 1 0))), .tree) ∧
    after (exec .mkroot queued) (fun t => t.port.resp) = some (some (.refused .queueNotSingle)) ∧
    after (exec (.encpix 0xFF0000FF) encoding) (fun t => t.port.resp) = some (some (.error .unknownSymbol 0xFFFF)) ∧
    after (exec .reset merged) (fun t => t.phase) = some .scan := by decide

theorem hyp_ErrorsLatchTheirCause :
    after (exec .prio State.reset) (fun t => t.port.resp) = some (some (.error .emptyInput 0)) ∧
    after (exec .decend sevenBytes) (fun t => t.port.resp) = some (some (.error .truncatedHeader 7)) ∧
    after (exec .decend { decoding with dRem := 1 }) (fun t => t.port.resp) = some (some (.error .dimensionMismatch 0)) ∧
    after (exec (.encpix 0xFF0000FF) encoding) (fun t => t.port.resp) = some (some (.error .unknownSymbol 0xFFFF)) ∧
    after (exec (.step true) oneColour) (fun t => t.port.resp) = some (some (.error .corruptStream 0)) ∧
    after (exec (.decbyte 0x40) halfTreeDec) (fun t => t.port.resp) = some (some (.error .corruptStream 1)) := by decide

theorem hyp_FaultEndsOnlyWithReset : failedEnc.phase = .fault ∧ Instr.encend ≠ .reset := by decide

theorem hyp_frames : (after (exec .merge queued) fun t => (t.dist, t.code, t.npix, t.root)) =
    some (queued.dist, queued.code, queued.npix, queued.root) := by decide

theorem hyp_TreeImmutableInUse : treeInUse encoding.phase ∧ Instr.encpix 0xFFFF0000 ≠ .reset ∧
    (nextState (exec (.encpix 0xFFFF0000) encoding)).isSome = true := by decide

theorem hyp_CodeTableStaysCanonical : codeWf ready.code ∧ (nextState (exec .gencode rooted)).isSome = true := by decide

theorem hyp_BitsPackMostSignificantFirst :
    byteOf [true, true, false, true, false, false, false, false] = 0xD0 ∧
    pack [true, true, false, true] = [0xD0] ∧ pack [] = [] ∧ pack (bitsOf 0x34) = [0x34] := by decide

theorem hyp_HeaderFieldsBigEndian : be32bytes 0x01020304 = [1, 2, 3, 4] ∧ be32 1 2 3 4 = 0x01020304 := by decide

theorem hyp_ChannelPermutationsInverse : Config.default.order = .argb ∧
    toStorage Config.default 0xFFFF0000 = 0xFF0000FF ∧ toNative Config.default 0xFF0000FF = 0xFFFF0000 := by decide

-- R100: the last accepted total and the refused one; a table with one free entry and a full one
theorem hyp_ScanCountsOnePixel :
    ({ scanned with npix := 0xFFFFFFFFFFFFFFFF }).npix.toNat = 2 ^ 64 - 1 ∧
    ({ scanned with npix := 0xFFFFFFFFFFFFFFFE }).npix.toNat ≠ 2 ^ 64 - 1 ∧
    (∀ e ∈ scanned.dist, e.symbol ≠ toStorage scanned.cfg 0xFF0000FF) ∧
    ({ scanned with cfg := ⟨2, .argb⟩ }).dist.length = 2 ∧
    scanned.dist = [] ++ ⟨0xFF0000FF, 3⟩ :: [⟨0x00FF00FF, 1⟩] ∧
    toStorage scanned.cfg 0xFFFF0000 = 0xFF0000FF ∧ (3 : U64).toNat < 2 ^ 64 - 1 ∧
    queued.phase ≠ .scan ∧ scanned.phase = .scan := by decide

theorem hyp_PrioQueuesOneLeafPerSymbol : scanned.phase = .scan ∧ scanned.dist ≠ [] ∧ scanned.node = [] ∧
    State.reset.dist = [] ∧ queued.phase ≠ .scan := by decide

theorem hyp_MergeJoinsTwoLowest : queued.phase = .queue ∧ queued.pq = 1 :: 0 :: [] ∧
    queued.node[1]? = some (lf 0x00FF00FF 1) ∧ queued.node[0]? = some (lf 0xFF0000FF 3) ∧
    (∀ k ∈ ([] : List Nat), k < queued.node.length) ∧ queued.pq.Pairwise (keyBefore queued.node) ∧
    (1 : U64).toNat + (3 : U64).toNat < 2 ^ 64 ∧ merged.pq.length < 2 ∧ scanned.phase ≠ .queue := by decide

theorem hyp_MkrootTakesTheLastNode : merged.phase = .queue ∧ merged.pq = [2] ∧
    merged.node[2]? = some (inner 4 1 0) ∧ queued.pq.length ≠ 1 ∧ scanned.phase ≠ .queue := by decide

theorem hyp_GencodeMapsSymbolsToPaths : Inv rooted ∧ rooted.phase = .tree ∧ ready.phase ≠ .tree :=
  ⟨inv_rooted, by decide, by decide⟩

theorem hyp_LookupReadsTheTable : Inv oneColour ∧ oneColour.phase = .ready ∧ codeWf ready.code ∧
    ((0xFF0000FF : Symbol), [true]) ∈ ready.code ∧ (∀ bits : Bits, ((0 : Symbol), bits) ∉ ready.code) ∧
    ((0x0000FFFF : Symbol), ([] : Bits)) ∈ oneColour.code ∧ oneColour.dist = [⟨0x0000FFFF, 6⟩] ∧ rooted.phase ≠ .ready :=
  ⟨inv_oneColour, by decide, by decide, by decide, by simp [ready], by decide, by decide, by decide⟩

theorem hyp_CodesPrefixFree : Inv ready ∧ ((0x00FF00FF : Symbol), [false]) ∈ ready.code ∧
    ((0xFF0000FF : Symbol), [true]) ∈ ready.code := ⟨inv_ready, by decide, by decide⟩

theorem hyp_CodeLengthsComplete : Inv ready ∧ treeInUse ready.phase ∧ 2 ≤ ready.dist.length ∧ Inv oneColour ∧
    oneColour.dist.length = 1 := ⟨inv_ready, by decide, by decide, inv_oneColour, by decide⟩

theorem hyp_CurrstSetsCursorToRoot : ready.phase = .ready ∧ decoding.phase ≠ .ready := by decide

theorem hyp_StepMovesTheCursor : ready.phase = .ready ∧ ready.cur = some 2 ∧ ready.root = some 2 ∧
    ready.node[2]? = some (inner 4 1 0) ∧ ¬ leafRecord (inner 4 1 0) ∧ childOf true (inner 4 1 0) = some 0 ∧
    ready.node[0]? = some (lf 0xFF0000FF 3) ∧ leafRecord (lf 0xFF0000FF 3) ∧
    oneColour.cur = oneColour.root ∧ childOf false (lf 0x0000FFFF 6) = none ∧ decoding.phase ≠ .ready := by decide

theorem hyp_AutomatonTotalOnBuiltTrees : Inv ready ∧ ready.phase = .ready ∧ 2 ≤ ready.dist.length :=
  ⟨inv_ready, by decide, by decide⟩

theorem hyp_StepsFollowOneCode : Inv ready ∧ ready.phase = .ready ∧ ready.cur = some 2 ∧
    ready.node[2]? = some (inner 4 1 0) ∧ ready.root = some 2 ∧ ((0xFF0000FF : Symbol), [true]) ∈ ready.code :=
  ⟨inv_ready, by decide, by decide, by decide, by decide, by decide⟩

-- a code of three bits has shorter beginnings
theorem hyp_StepsFollowOneCode_shorter : Inv fiveReady ∧ fiveReady.phase = .ready ∧ fiveReady.cur = some 8 ∧
    fiveReady.node[8]? = some (inner 11 0 7) ∧ fiveReady.root = some 8 ∧
    ((0x11111102 : Symbol), [true, true, false]) ∈ fiveReady.code ∧ [true, true] <+: [true, true, false] :=
  ⟨inv_fiveReady, by decide, by decide, by decide, by decide, by decide, by decide⟩

theorem hyp_DecbeginOpensSession : ready.phase = .ready ∧ decoding.phase ≠ .ready := by decide

theorem hyp_DecbyteTakesHeader : sevenBytes.phase = .dec ∧ sevenBytes.root = some 2 ∧
    sevenBytes.node[2]? = some (inner 4 1 0) ∧ ¬ leafRecord (inner 4 1 0) ∧ sevenBytes.dHb.toNat = 7 ∧
    sevenBytes.dHdr = [0, 0, 0, 2, 0, 0, 0] ∧ ({ sevenBytes with dHb := 6 }).dHb.toNat < 7 ∧ ready.phase ≠ .dec ∧
    oneColour.node[0]? = some (lf 0x0000FFFF 6) ∧ leafRecord (lf 0x0000FFFF 6) ∧
    (2 : U32).toNat = (0 : Byte).toNat * 2 ^ 24 + (0 : Byte).toNat * 2 ^ 16 + (0 : Byte).toNat * 2 ^ 8 + (2 : Byte).toNat := by
  decide

theorem hyp_DecbyteWritesNextPixels : Inv decoding ∧ decoding.phase = .dec ∧ 8 ≤ decoding.dHb.toNat ∧
    decoding.dRem ≠ 0 ∧ decoding.root = some 2 ∧ ({ decoding with dRem := 0 }).dRem = 0 :=
  ⟨inv_decoding, by decide, by decide, by decide, by decide, by decide⟩

-- V62: the bit 0 reaches the leaf 0, the bit 1 selects the absent right child of the root
theorem hyp_CorruptByteKeepsEarlierPixels :
    after (exec (.decbyte 0x40) halfTreeDec) (fun t => t.port.resp) = some (some (.error .corruptStream 1)) ∧
    failsInByte halfTreeDec 0x40 [0xFF336699] 1 ∧ halfTreeDec.dIdx.toNat + [(0xFF336699 : U32)].length < 2 ^ 64 := by
  refine ⟨by decide, ⟨by decide, by decide, 1, 1, 0, [false], List.replicate 6 false, true, by decide, by decide, by decide,
    ?_, by decide, ?_⟩, by decide⟩
  · exact .leaf (k := 0) (n := lf 0x336699FF 1) (by decide)
      ⟨rfl, 1, ⟨0, 1, some 0, none⟩, ⟨⟨0, 1, some 0, none⟩, rfl, by decide, by decide, rfl⟩, rfl⟩ ⟨rfl, rfl⟩ .nil
  · exact ⟨⟨0, 1, some 0, none⟩, ⟨lf 0x336699FF 1, rfl, by decide, by decide, rfl⟩, rfl⟩

theorem hyp_DecendClosesSession : sevenBytes.phase = .dec ∧ sevenBytes.dHb.toNat < 8 ∧ decoding.phase = .dec ∧
    8 ≤ decoding.dHb.toNat ∧ decoding.dRem ≠ 0 ∧ ({ decoding with dRem := 0 }).dRem = 0 ∧ ready.phase ≠ .dec := by decide

theorem hyp_EnchdrEmitsHeader : ready.phase = .ready ∧ encoding.phase ≠ .ready := by decide

theorem hyp_EncpixAppendsOneCode : encoding.phase = .enc ∧ encoding.eRem ≠ 0 ∧ codeWf encoding.code ∧
    (toStorage encoding.cfg 0xFFFF0000, [true]) ∈ encoding.code ∧
    (∀ bits : Bits, (toStorage encoding.cfg 0xFF0000FF, bits) ∉ encoding.code) ∧
    ({ encoding with eRem := 0 }).eRem = 0 ∧ ready.phase ≠ .enc := by
  refine ⟨by decide, by decide, by decide, by decide, ?_, by decide, by decide⟩
  simp [encoding, ready, rooted, merged, scanned, State.reset, Config.default, toStorage]

theorem hyp_EncendPadsLastByte : encoding.phase = .enc ∧ encoding.eRem ≠ 0 ∧ ({ encoding with eRem := 0 }).eRem = 0 ∧
    encoding.eAcc ≠ [] ∧ (List.replicate 7 true).length ≤ 7 ∧ ready.eAcc = [] ∧ ready.phase ≠ .enc := by decide

theorem hyp_InvariantHoldsAtReset : Config.wellFormed ⟨1, .exchanges [.bytes 1 3]⟩ = true := by decide

theorem hyp_StepKeepsInvariant : Inv (issueNext 0x040000000000000000 queued) ∧
    ∃ t, step (issueNext 0x040000000000000000 queued) = .next t :=
  ⟨{ inv_queued with tables := ⟨rfl, rfl, rfl, by decide, by decide, by constructor <;> decide⟩
                     encoder := encoderInv_idle rfl rfl
                     decoder := decoderInv_idle rfl rfl rfl rfl rfl rfl }, _, rfl⟩

theorem hyp_OperationsAlwaysAnswer : Inv queued ∧ Inv merged := ⟨inv_queued, inv_merged⟩

theorem hyp_ReachableStatesRunOn : Reachable (issue 0x000000000000000000 { State.reset with cfg := ⟨2, .argb⟩ }) :=
  .issue _ (.reset _ (by decide))

theorem hyp_TablesWithinCapacity : Inv ready ∧ ready.root = some 2 ∧ ((0x00FF00FF : Symbol), [false]) ∈ ready.code :=
  ⟨inv_ready, rfl, by decide⟩

theorem hyp_SequencesStopAtFirstFailure :
    after (exec .currst ready) (fun t => t.port.resp) = some (some (.ok .nothing)) ∧
    after (exec .currst decoding) (fun t => t.port.resp) = some (some (.refused .wrongPhase)) := by decide

theorem hyp_ScanallCountsCorpus : Config.wellFormed ⟨2, .argb⟩ = true ∧ [(1 : U32), 2, 1].length < 2 ^ 64 ∧
    ([(1 : U32), 2, 1].map (toStorage ⟨2, .argb⟩)).dedup.length ≤ 2 := by decide

theorem hyp_BuildMakesOneTree : Inv scanned ∧ scanned.phase = .scan ∧ scanned.dist ≠ [] ∧ Inv State.reset ∧
    State.reset.dist = [] := ⟨inv_scanned, by decide, by decide, inv_reset, by decide⟩

theorem next_of_isSome {r : Result} (h : (nextState r).isSome = true) : ∃ t, r = .next t := by
  cases r with
  | next t => exact ⟨t, rfl⟩
  | fault f => cases h
  | refused q => cases h

theorem hyp_BuildDependsOnDistAlone : Inv scanned ∧ scanned.phase = .scan ∧ ∃ t, runMacro .build scanned = .next t :=
  ⟨inv_scanned, by decide, next_of_isSome (by decide)⟩

theorem hyp_DecodeReadsCodesInOrder : Inv ready ∧ ready.phase = .ready ∧ 2 ≤ ready.dist.length ∧
    (∃ e ∈ ready.dist, e.symbol = 0xFF0000FF) ∧
    [(0xD0 : Byte)].flatMap bitsOf =
      codesOf ready.code [0xFF0000FF, 0xFF0000FF, 0x00FF00FF, 0xFF0000FF] ++ [false, false, false, false] ∧
    4 ≤ (2 : U32).toNat * (2 : U32).toNat :=
  ⟨inv_ready, by decide, by decide, by decide, by decide, by decide⟩

-- fewer codes than pixels: an empty body
theorem hyp_DecodeReadsCodesInOrder_short : ([] : List Byte).flatMap bitsOf = codesOf ready.code [] ++ [] ∧
    0 < (2 : U32).toNat * (2 : U32).toNat ∧ ∀ p ∈ ready.code, ¬ p.2 <+: [] := by decide

theorem hyp_DecodeOneColourIgnoresBody : Inv oneColour ∧ oneColour.phase = .ready ∧ oneColour.dist = [⟨0x0000FFFF, 6⟩] :=
  ⟨inv_oneColour, by decide, by decide⟩

theorem hyp_DecodeShortFileFails : Inv ready ∧ ready.phase = .ready ∧ (List.replicate 7 (0 : Byte)).length < 8 :=
  ⟨inv_ready, by decide, by decide⟩

theorem hyp_encode : Inv ready ∧ ready.phase = .ready ∧
    [(0xFFFF0000 : U32), 0xFF00FF00].length = (2 : U32).toNat * (1 : U32).toNat ∧
    (∀ p ∈ [(0xFFFF0000 : U32), 0xFF00FF00], ∃ e ∈ ready.dist, e.symbol = toStorage ready.cfg p) := by
  refine ⟨inv_ready, by decide, by decide, List.forall_mem_cons.2 ⟨?_, List.forall_mem_singleton.2 ?_⟩⟩
  · exact ⟨_, .head _, by decide⟩
  · exact ⟨_, .tail _ (.head _), by decide⟩

end Sys2Proof.Tests
end

/-! ## Data formats (R12, R13, R15)

`BE32`, the bits of a byte and their packing, and the channel order. -/

namespace Sys2Proof.Machine

/-! ### Bits and bytes (R13) -/

theorem bitsValue_append (s : Bits) (b : Bit) : bitsValue (s ++ [b]) = Nat.bit b (bitsValue s) := by
  simp [bitsValue, Nat.bit_val]

theorem bitsValue_lt (s : Bits) : bitsValue s < 2 ^ s.length := by
  induction s using List.reverseRecOn with
  | nil => simp [bitsValue]
  | append_singleton s b ih =>
    rw [bitsValue_append, Nat.bit_val, List.length_append, List.length_singleton, Nat.pow_succ]
    have := b.toNat_lt
    omega

/-- The digit of weight `2 ^ j` is the `j`-th from the end. -/
theorem bitsValue_testBit (s : Bits) (j : Nat) : (bitsValue s).testBit j = (s.reverse[j]?).getD false := by
  induction s using List.reverseRecOn generalizing j with
  | nil => simp [bitsValue]
  | append_singleton s b ih =>
    rw [bitsValue_append]
    cases j with
    | zero => simp
    | succ j => simp [Nat.testBit_bit_succ, ih]

theorem bitsValue_cons (b : Bit) (s : Bits) : bitsValue (b :: s) = b.toNat * 2 ^ s.length + bitsValue s := by
  induction s using List.reverseRecOn with
  | nil => simp [bitsValue]
  | append_singleton s c ih =>
    rw [← List.cons_append, bitsValue_append, bitsValue_append, Nat.bit_val, Nat.bit_val, ih, List.length_append,
      List.length_singleton, Nat.pow_succ]
    ring

/-- The value of a bitstring as the weighted sum that R13 writes out. -/
theorem bitsValue_eq_sum (s : Bits) :
    bitsValue s = ((List.range s.length).map fun j => ((s[j]?).getD false).toNat * 2 ^ (s.length - 1 - j)).sum := by
  induction s with
  | nil => rfl
  | cons b s ih =>
    rw [bitsValue_cons, ih, List.length_cons, List.range_succ_eq_map]
    simp [Function.comp_def, Nat.sub_sub, Nat.add_comm]

theorem byteOf_toNat {s : Bits} (h : s.length = 8) : (byteOf s).toNat = bitsValue s := by
  have hlt := bitsValue_lt s
  rw [h] at hlt
  rw [byteOf, BitVec.toNat_ofNat, Nat.mod_eq_of_lt hlt]

theorem byteOf_getLsbD {s : Bits} (h : s.length = 8) {j : Nat} (hj : j < 8) :
    (byteOf s).getLsbD (7 - j) = (s[j]?).getD false := by
  rw [BitVec.getLsbD, byteOf_toNat h, bitsValue_testBit, List.getElem?_reverse (by omega), h]
  congr 2
  omega

/-! ### Packing (R13) -/

theorem fullBytes_getElem? {s : Bits} {i : Nat} {b : Byte} (h : (fullBytes s)[i]? = some b) :
    8 * i + 8 ≤ s.length ∧ b = byteOf ((s.drop (8 * i)).take 8) := by
  obtain ⟨hi, rfl⟩ := List.getElem?_eq_some_iff.1 h
  rw [fullBytes_length] at hi
  exact ⟨by omega, by simp [fullBytes]⟩

/-- Stream bit `k` is bit `7 - k mod 8` of byte `k div 8`. -/
theorem fullBytes_getLsbD {s : Bits} {k : Nat} {b : Byte} (h : (fullBytes s)[k / 8]? = some b) :
    b.getLsbD (7 - k % 8) = (s[k]?).getD false := by
  obtain ⟨hle, rfl⟩ := fullBytes_getElem? h
  have hk : k % 8 < 8 := Nat.mod_lt k (by decide)
  rw [byteOf_getLsbD (by simp; omega) hk, List.getElem?_take_of_lt hk, List.getElem?_drop, Nat.div_add_mod]

/-- Zero bits after the end of a bitstring are not seen by a read that takes 0 beyond the end. -/
theorem getD_append_zeros (s : Bits) (n k : Nat) :
    ((s ++ List.replicate n false)[k]?).getD false = (s[k]?).getD false := by
  rw [List.getElem?_append]
  split
  · rfl
  · rename_i hk
    rw [List.getElem?_eq_none (by omega : s.length ≤ k), List.getElem?_replicate]
    split <;> rfl

theorem pack_length (s : Bits) : (pack s).length = (s.length + 7) / 8 := by
  rw [pack, fullBytes_length, List.length_append, List.length_replicate]
  omega

/-- Settles O14: a byte's value is its bits' weighted sum, and packing cuts the padded bits into groups of eight. -/
theorem bitsPackMostSignificantFirst : Obligations.BitsPackMostSignificantFirst := by
  refine ⟨fun b => rfl, fun s hs => ?_, pack_length, fun s k b hb => ?_⟩
  · have hsum := bitsValue_eq_sum s
    rw [hs] at hsum
    rw [byteOf_toNat hs, hsum]
  · rw [fullBytes_getLsbD hb, getD_append_zeros]

/-! ### Big-endian words (R12) -/

theorem be32bytes_toNat (v : U32) : (be32bytes v).map BitVec.toNat =
    [v.toNat / 2 ^ 24, v.toNat / 2 ^ 16 % 2 ^ 8, v.toNat / 2 ^ 8 % 2 ^ 8, v.toNat % 2 ^ 8] := by
  have htop : v.toNat / 2 ^ 24 % 2 ^ 8 = v.toNat / 2 ^ 24 := by have := v.isLt; omega
  simpa [be32bytes, Nat.shiftRight_eq_div_pow] using htop

/-- The bytes of a word put together again are the word. -/
theorem be32_of_be32bytes {v : U32} {b0 b1 b2 b3 : Byte} (h : be32bytes v = [b0, b1, b2, b3]) :
    be32 b0 b1 b2 b3 = v := by
  have hb := be32bytes_toNat v
  rw [h] at hb
  simp only [List.map_cons, List.map_nil, List.cons.injEq, and_true] at hb
  obtain ⟨h0, h1, h2, h3⟩ := hb
  apply BitVec.eq_of_toNat_eq
  rw [be32, append_toNat, h0, h1, h2, h3]
  omega

/-- Settles O15, by the values of the word and of its bytes as numbers. -/
theorem headerFieldsBigEndian : Obligations.HeaderFieldsBigEndian :=
  ⟨append_toNat, be32bytes_toNat, fun _ _ _ _ _ h => be32_of_be32bytes h⟩

/-! ### The channel order (R15) -/

theorem rotateLeft_eight_toNat (v : U32) :
    (v.rotateLeft 8).toNat = v.toNat * 2 ^ 8 % 2 ^ 32 + v.toNat / 2 ^ 24 := by
  have hlow : v.toNat / 2 ^ 24 < 2 ^ 8 := by have := v.isLt; omega
  have hhigh : v.toNat * 2 ^ 8 % 2 ^ 32 = (v.toNat % 2 ^ 24) <<< 8 := by rw [Nat.shiftLeft_eq]; omega
  rw [BitVec.toNat_rotateLeft, Nat.shiftRight_eq_div_pow, Nat.shiftLeft_eq]
  show v.toNat * 2 ^ 8 % 2 ^ 32 ||| v.toNat / 2 ^ 24 = _
  rw [hhigh, Nat.shiftLeft_add_eq_or_of_lt hlow]

theorem rotateRight_eight_toNat (v : U32) :
    (v.rotateRight 8).toNat = v.toNat / 2 ^ 8 + v.toNat % 2 ^ 8 * 2 ^ 24 := by
  have hlow : v.toNat / 2 ^ 8 < 2 ^ 24 := by have := v.isLt; omega
  have hhigh : v.toNat * 2 ^ 24 % 2 ^ 32 = (v.toNat % 2 ^ 8) <<< 24 := by rw [Nat.shiftLeft_eq]; omega
  rw [BitVec.toNat_rotateRight, Nat.shiftRight_eq_div_pow, Nat.shiftLeft_eq]
  show v.toNat / 2 ^ 8 ||| v.toNat * 2 ^ 24 % 2 ^ 32 = _
  rw [hhigh, Nat.or_comm, ← Nat.shiftLeft_add_eq_or_of_lt hlow, Nat.shiftLeft_eq, Nat.add_comm]

theorem rotateRight_rotateLeft_eight (v : U32) : (v.rotateLeft 8).rotateRight 8 = v := by
  apply BitVec.eq_of_toNat_eq
  have hmod : v.toNat * 2 ^ 8 % 2 ^ 32 = v.toNat % 2 ^ 24 * 2 ^ 8 := by omega
  rw [rotateRight_eight_toNat, rotateLeft_eight_toNat, hmod]
  have := v.isLt
  omega

theorem rotateLeft_rotateRight_eight (v : U32) : (v.rotateRight 8).rotateLeft 8 = v := by
  apply BitVec.eq_of_toNat_eq
  have hdiv : (v.toNat / 2 ^ 8 + v.toNat % 2 ^ 8 * 2 ^ 24) / 2 ^ 24 = v.toNat % 2 ^ 8 := by
    have := v.isLt
    omega
  have hmod : (v.toNat / 2 ^ 8 + v.toNat % 2 ^ 8 * 2 ^ 24) * 2 ^ 8 % 2 ^ 32 = v.toNat / 2 ^ 8 * 2 ^ 8 := by
    have := v.isLt
    omega
  rw [rotateLeft_eight_toNat, rotateRight_eight_toNat, hmod, hdiv]
  omega

@[simp] theorem toNative_toStorage (c : Config) (v : U32) : toNative c (toStorage c v) = v := by
  obtain ⟨m, _ | xs⟩ := c
  · exact rotateRight_rotateLeft_eight v
  · exact foldl_exchanges xs v

@[simp] theorem toStorage_toNative (c : Config) (v : U32) : toStorage c (toNative c v) = v := by
  obtain ⟨m, _ | xs⟩ := c
  · exact rotateLeft_rotateRight_eight v
  · exact foldr_exchanges xs v

theorem toStorage_of_argb {c : Config} (h : c.order = .argb) (v : U32) : toStorage c v = v.rotateLeft 8 := by
  rw [toStorage, h]

theorem toNative_of_argb {c : Config} (h : c.order = .argb) (v : U32) : toNative c v = v.rotateRight 8 := by
  rw [toNative, h]

/-- Settles O16: the two rotations undo each other, and so do the exchanges of any other order. -/
theorem channelPermutationsInverse : Obligations.ChannelPermutationsInverse := by
  refine fun c v => ⟨toNative_toStorage c v, toStorage_toNative c v, fun h => ⟨?_, ?_⟩⟩
  · rw [toStorage_of_argb h, rotateLeft_eight_toNat]
  · rw [toNative_of_argb h, rotateRight_eight_toNat]

end Sys2Proof.Machine

/-! ## The step and what an operation leaves at the port (R2, R14, R57, R201) -/

namespace Sys2Proof.Machine

open Sys2Proof.Machine.Claims

variable {s t u : State}

/-! ### The step (R2, R60) -/

theorem fetch_of_cons {w : CmdWord} {rest : List CmdWord} (h : s.port.cmds = w :: rest) :
    fetch s = some (w, { s with port := { s.port with cmds := rest } }) := by
  rw [fetch, h]

theorem step_of_decode {w : CmdWord} {rest : List CmdWord} {i : Instr} (h : s.port.cmds = w :: rest)
    (hd : decode w = some i) : step s = exec i { s with port := { s.port with cmds := rest } } := by
  simp only [step, fetch_of_cons h, hd]

/-- Settles O4: the oldest word is fetched and decoded. -/
theorem stepRunsOldestCommand : Obligations.StepRunsOldestCommand :=
  fun _ _ _ _ h hd => step_of_decode h hd

/-! ### Outputs (R11, R57, R175) -/

/-- From `s` to `t` the bytes `bs` and the pixel writes `ps` are appended to what was emitted, a response is given, and
the configuration and the waiting commands stay. -/
structure Emits (s t : State) (bs : List Byte) (ps : List PixelRun) : Prop where
  cfg : t.cfg = s.cfg
  cmds : t.port.cmds = s.port.cmds
  resp : t.port.resp ≠ none
  bytesOut : t.port.bytesOut = s.port.bytesOut ++ bs
  pixelsOut : t.port.pixelsOut = s.port.pixelsOut ++ ps

/-- A response alone emits nothing, whatever happened to the registers and tables. -/
theorem emits_respond (r : Response) (hc : u.cfg = s.cfg) (hp : u.port = s.port) : Emits s (respond r u) [] [] :=
  ⟨hc, by simp [hp], by simp, by simp [hp], by simp [hp]⟩

theorem emits_byteOut (r : Response) (bs : List Byte) (hc : u.cfg = s.cfg) (hp : u.port = s.port) :
    Emits s (respond r (byteOut bs u)) bs [] :=
  ⟨hc, by simp [hp], by simp, by simp [hp], by simp [hp]⟩

theorem emits_setPixels (r : Response) (ps : List PixelRun) (hc : u.cfg = s.cfg) (hp : u.port = s.port) :
    Emits s (respond r (setPixels ps u)) [] ps :=
  ⟨hc, by simp [hp], by simp, by simp [hp], by simp [hp]⟩

theorem emits_of_outOfPhase {p : Phase} (h : OutOfPhase p s t) : Emits s t [] [] := by
  obtain ⟨-, rfl⟩ := h
  exact emits_respond _ rfl rfl

theorem execReset_emits (h : execReset s = .next t) : Emits s t [] [] := by
  rw [execReset_cases h]
  exact emits_respond _ rfl rfl

theorem execStatus_emits (h : execStatus s = .next t) : Emits s t [] [] := by
  rw [execStatus_cases h]
  exact emits_respond _ rfl rfl

theorem execScan_emits {px : U32} (h : execScan px s = .next t) : Emits s t [] [] := by
  obtain hw | ⟨-, ⟨-, rfl⟩ | ⟨-, -, -, rfl⟩ | ⟨-, d, -, rfl⟩⟩ := execScan_cases h
  · exact emits_of_outOfPhase hw
  all_goals exact emits_respond _ rfl rfl

theorem execPrio_emits (h : execPrio s = .next t) : Emits s t [] [] := by
  obtain hw | ⟨-, ⟨-, rfl⟩ | ⟨-, nodes, pq, -, -, rfl⟩⟩ := execPrio_cases h
  · exact emits_of_outOfPhase hw
  all_goals exact emits_respond _ rfl rfl

theorem execMerge_emits (h : execMerge s = .next t) : Emits s t [] [] := by
  obtain hw | ⟨-, ⟨-, rfl⟩ | ⟨a, b, rest, na, nb, -, -, -, -, rfl⟩⟩ := execMerge_cases h
  · exact emits_of_outOfPhase hw
  all_goals exact emits_respond _ rfl rfl

theorem execMkroot_emits (h : execMkroot s = .next t) : Emits s t [] [] := by
  obtain hw | ⟨-, ⟨-, rfl⟩ | ⟨k, n, -, -, rfl⟩⟩ := execMkroot_cases h
  · exact emits_of_outOfPhase hw
  all_goals exact emits_respond _ rfl rfl

theorem execGencode_emits (h : execGencode s = .next t) : Emits s t [] [] := by
  obtain hw | ⟨-, r, tr, -, -, -, rfl⟩ := execGencode_cases h
  · exact emits_of_outOfPhase hw
  · exact emits_respond _ rfl rfl

theorem execLookup_emits {sym : Symbol} (h : execLookup sym s = .next t) : Emits s t [] [] := by
  obtain hw | ⟨-, ⟨bits, -, rfl⟩ | ⟨-, rfl⟩⟩ := execLookup_cases h
  · exact emits_of_outOfPhase hw
  all_goals exact emits_respond _ rfl rfl

theorem execCurrst_emits (h : execCurrst s = .next t) : Emits s t [] [] := by
  obtain hw | ⟨-, rfl⟩ := execCurrst_cases h
  · exact emits_of_outOfPhase hw
  · exact emits_respond _ rfl rfl

theorem execStep_emits {bit : Bit} (h : execStep bit s = .next t) : Emits s t [] [] := by
  obtain hw | ⟨-, c, r, -, -, ⟨k, n, -, -, rfl⟩ | ⟨c1, -, rfl⟩⟩ := execStep_cases h
  · exact emits_of_outOfPhase hw
  all_goals exact emits_respond _ rfl rfl

theorem execDecbegin_emits (h : execDecbegin s = .next t) : Emits s t [] [] := by
  obtain hw | ⟨-, rfl⟩ := execDecbegin_cases h
  · exact emits_of_outOfPhase hw
  · exact emits_respond _ rfl rfl

theorem startPixels_emits {r : Nat} {w h : U32} (hs : startPixels r w h u = .next t) (hc : u.cfg = s.cfg)
    (hp : u.port = s.port) : ∃ ps, Emits s t [] ps := by
  obtain ⟨n, -, ⟨-, rfl⟩ | ⟨-, rfl⟩⟩ := startPixels_cases hs
  all_goals exact ⟨_, emits_setPixels _ _ hc hp⟩

theorem headerByte_emits {r : Nat} {b : Byte} (h : headerByte r b s = .next t) : ∃ ps, Emits s t [] ps := by
  obtain ⟨-, rfl⟩ | ⟨-, b0, b1, b2, b3, b4, b5, b6, b7, -, h⟩ := headerByte_cases h
  · exact ⟨_, emits_setPixels _ _ rfl rfl⟩
  · exact startPixels_emits h rfl rfl

/-- The writes before a corrupt bit stay emitted (R175). -/
theorem bodyByte_emits {r : Nat} {b : Byte} (h : bodyByte r b s = .next t) : ∃ ps, Emits s t [] ps := by
  obtain ⟨-, rfl⟩ | ⟨-, c, -, ⟨w, -, rfl⟩ | ⟨w, c1, -, rfl⟩⟩ := bodyByte_cases h
  · exact ⟨_, emits_setPixels _ _ rfl rfl⟩
  · exact ⟨_, emits_setPixels _ _ rfl rfl⟩
  · exact ⟨w.writes, ⟨rfl, rfl, by simp, by simp, rfl⟩⟩

theorem execDecbyte_emits {b : Byte} (h : execDecbyte b s = .next t) : ∃ ps, Emits s t [] ps := by
  obtain hw | ⟨-, r, -, ⟨-, h⟩ | ⟨-, h⟩⟩ := execDecbyte_cases h
  · exact ⟨_, emits_of_outOfPhase hw⟩
  · exact headerByte_emits h
  · exact bodyByte_emits h

theorem execDecend_emits (h : execDecend s = .next t) : Emits s t [] [] := by
  obtain hw | ⟨-, ⟨-, rfl⟩ | ⟨-, -, rfl⟩ | ⟨-, -, rfl⟩⟩ := execDecend_cases h
  · exact emits_of_outOfPhase hw
  all_goals exact emits_respond _ rfl rfl

theorem execEnchdr_emits {w h : U32} (hs : execEnchdr w h s = .next t) : ∃ bs, Emits s t bs [] := by
  obtain hw | ⟨-, rfl⟩ := execEnchdr_cases hs
  · exact ⟨_, emits_of_outOfPhase hw⟩
  · exact ⟨_, emits_byteOut _ _ rfl rfl⟩

theorem execEncpix_emits {px : U32} (h : execEncpix px s = .next t) : ∃ bs, Emits s t bs [] := by
  obtain hw | ⟨-, ⟨-, rfl⟩ | ⟨-, -, rfl⟩ | ⟨-, bits, -, rfl⟩⟩ := execEncpix_cases h
  · exact ⟨_, emits_of_outOfPhase hw⟩
  · exact ⟨_, emits_respond _ rfl rfl⟩
  · exact ⟨_, emits_respond _ rfl rfl⟩
  · exact ⟨_, emits_byteOut _ _ rfl rfl⟩

theorem execEncend_emits (h : execEncend s = .next t) : ∃ bs, Emits s t bs [] := by
  obtain hw | ⟨-, ⟨-, rfl⟩ | ⟨-, -, rfl⟩⟩ := execEncend_cases h
  · exact ⟨_, emits_of_outOfPhase hw⟩
  · exact ⟨_, emits_respond _ rfl rfl⟩
  · exact ⟨_, emits_byteOut _ _ rfl rfl⟩

/-- Every operation appends to the outputs, and only the operations of R151 and R141 append anything. -/
theorem exec_emits {i : Instr} (h : exec i s = .next t) :
    ∃ bs ps, Emits s t bs ps ∧ (emitsBytes i = false → bs = []) ∧ (writesPixels i = false → ps = []) := by
  cases i with
  | reset => exact ⟨_, _, execReset_emits h, by simp⟩
  | status => exact ⟨_, _, execStatus_emits h, by simp⟩
  | scan px => exact ⟨_, _, execScan_emits h, by simp⟩
  | prio => exact ⟨_, _, execPrio_emits h, by simp⟩
  | merge => exact ⟨_, _, execMerge_emits h, by simp⟩
  | mkroot => exact ⟨_, _, execMkroot_emits h, by simp⟩
  | gencode => exact ⟨_, _, execGencode_emits h, by simp⟩
  | lookup sym => exact ⟨_, _, execLookup_emits h, by simp⟩
  | currst => exact ⟨_, _, execCurrst_emits h, by simp⟩
  | step bit => exact ⟨_, _, execStep_emits h, by simp⟩
  | decbegin => exact ⟨_, _, execDecbegin_emits h, by simp⟩
  | decbyte b =>
    obtain ⟨ps, hps⟩ := execDecbyte_emits h
    exact ⟨_, ps, hps, by simp⟩
  | decend => exact ⟨_, _, execDecend_emits h, by simp⟩
  | enchdr w h' =>
    obtain ⟨bs, hbs⟩ := execEnchdr_emits h
    exact ⟨bs, _, hbs, by simp⟩
  | encpix px =>
    obtain ⟨bs, hbs⟩ := execEncpix_emits h
    exact ⟨bs, _, hbs, by simp⟩
  | encend =>
    obtain ⟨bs, hbs⟩ := execEncend_emits h
    exact ⟨bs, _, hbs, by simp⟩

/-- Settles O11: what each operation appends, operation by operation (`exec_emits`). -/
theorem outputsOnlyGrow : Obligations.OutputsOnlyGrow := by
  intro i s t h
  obtain ⟨bs, ps, hem, hbs, hps⟩ := exec_emits h
  exact ⟨hem.cfg, hem.cmds, hem.resp, ⟨bs, hem.bytesOut, hbs⟩, ps, hem.pixelsOut, hps⟩

end Sys2Proof.Machine

/-! ## What the invariant says of the tables (R9, R36, R37, R59, R64) -/

namespace Sys2Proof.Machine

variable {s : State}

/-! ### The forest of a build -/

theorem mem_childrenOf {nodes : List NodeRec} {n : NodeRec} {bit : Bit} {k : Nat} (hn : n ∈ nodes)
    (hk : childOf bit n = some k) : k ∈ childrenOf nodes := by
  refine List.mem_flatMap.2 ⟨n, hn, List.mem_append.2 ?_⟩
  cases bit with
  | false => exact .inl (Option.mem_toList.2 hk)
  | true => exact .inr (Option.mem_toList.2 hk)

theorem Forest.root_lt {roots : List Nat} (h : Forest s roots) {k : Nat} (hk : k ∈ roots) : k < s.node.length :=
  List.mem_range.1 (h.owned.mem_iff.1 (List.mem_append_left _ hk))

/-- Every child that a record names is in the table (R64). -/
theorem Forest.child_lt {roots : List Nat} (h : Forest s roots) {n : NodeRec} {bit : Bit} {k : Nat}
    (hn : n ∈ s.node) (hk : childOf bit n = some k) : k < s.node.length :=
  List.mem_range.1 (h.owned.mem_iff.1 (List.mem_append_right _ (mem_childrenOf hn hk)))

theorem Forest.dist_le_node {roots : List Nat} (h : Forest s roots) : s.dist.length ≤ s.node.length := by
  have hlen := congrArg List.length h.leaves
  rw [List.length_take, List.length_map] at hlen
  omega

theorem Forest.roots_le_dist {roots : List Nat} (h : Forest s roots) : roots.length ≤ s.dist.length := by
  have := h.count
  have := h.dist_le_node
  omega

/-- A forest with a root left holds at most `2n - 1` nodes, so it fits the table (R9). -/
theorem Forest.node_le_nodeCap {roots : List Nat} (h : Forest s roots) (hr : roots ≠ [])
    (hc : s.dist.length ≤ s.cfg.maxSyms) : s.node.length ≤ s.cfg.nodeCap := by
  have := h.count
  have := List.length_pos_iff.2 hr
  rw [Config.nodeCap]
  omega

/-- The leaves of the one tree of a finished build are the entries of DIST (R36 (d)). -/
theorem Forest.leaves_perm {r : Nat} {tr : Tree} (h : Forest s [r]) (ht : tableTree s.node r = some tr) :
    tr.leaves.Perm (s.dist.map fun e => (e.symbol, e.count)) := by
  simpa [leavesUnder, ht] using h.symbols

theorem Forest.leaves_length {r : Nat} {tr : Tree} (h : Forest s [r]) (ht : tableTree s.node r = some tr) :
    tr.leaves.length = s.dist.length := by
  simpa using (h.leaves_perm ht).length_eq

/-- The leaf symbols are distinct, because those of DIST are. -/
theorem Forest.codes_symbols_nodup {r : Nat} {tr : Tree} (h : Forest s [r]) (ht : tableTree s.node r = some tr)
    (hd : distWf s.dist) : (tr.codes.map Prod.fst).Nodup := by
  have hperm := (h.leaves_perm ht).map Prod.fst
  rw [List.map_map] at hperm
  rw [codes_symbols, hperm.nodup_iff]
  exact hd.1

/-! ### The length of a code -/

theorem Tree.leaves_length_pos (tr : Tree) : 0 < tr.leaves.length := by
  induction tr with
  | leaf sym f => exact Nat.one_pos
  | node f l r ihl ihr => rw [Tree.leaves, List.length_append]; omega

/-- A path is shorter than the number of leaves: each edge leaves at least one leaf aside. -/
theorem Tree.code_length_lt {tr : Tree} {p : Symbol × Bits} (h : p ∈ tr.codes) : p.2.length < tr.leaves.length := by
  induction tr generalizing p with
  | leaf sym f =>
    obtain rfl := List.mem_singleton.1 h
    exact Nat.one_pos
  | node f l r ihl ihr =>
    have hl := l.leaves_length_pos
    have hr := r.leaves_length_pos
    rw [Tree.leaves, List.length_append]
    rcases List.mem_append.1 h with h | h
    all_goals obtain ⟨q, hq, rfl⟩ := List.mem_map.1 h
    · have := ihl hq
      rw [List.length_cons]; omega
    · have := ihr hq
      rw [List.length_cons]; omega

theorem codeSetAll_mem {c ps : List (Symbol × Bits)} {p : Symbol × Bits} (h : p ∈ codeSetAll c ps) :
    p ∈ c ∨ p ∈ ps := by
  induction ps generalizing c with
  | nil => exact .inl h
  | cons q ps ih =>
    rcases ih h with h | h
    · rcases codeSet_mem h with rfl | h
      · exact .inr (List.mem_cons_self ..)
      · exact .inl h
    · exact .inr (List.mem_cons_of_mem _ h)

/-! ### The tables in each phase -/

/-- The claim of O44 but for DIST, whose bound is a field of the invariant. -/
structure WithinCapacity (s : State) : Prop where
  node : s.node.length ≤ s.cfg.nodeCap
  pq : s.pq.length ≤ s.dist.length
  root : ∀ k, s.root = some k → k < s.node.length
  cur : ∀ k, s.cur = some k → k < s.node.length
  queued : ∀ k ∈ s.pq, k < s.node.length
  code : ∀ p ∈ s.code, p.2.length ≤ s.cfg.maxCodeLen

theorem Unbuilt.withinCapacity (h : Unbuilt s) : WithinCapacity s where
  node := by simp [h.node]
  pq := by simp [h.pq]
  root := by simp [h.root]
  cur := by simp [h.cur]
  queued := by simp [h.pq]
  code := by simp [h.code]

theorem Merging.withinCapacity (h : Merging s) (hc : s.dist.length ≤ s.cfg.maxSyms) : WithinCapacity s where
  node := h.forest.node_le_nodeCap h.nonempty hc
  pq := h.forest.roots_le_dist
  root := by simp [h.root]
  cur := by simp [h.cur]
  queued := fun _ hk => h.forest.root_lt hk
  code := by simp [h.code]

theorem Rooted.withinCapacity {r : Nat} (h : Rooted s r) (hc : s.dist.length ≤ s.cfg.maxSyms) :
    WithinCapacity s where
  node := h.forest.node_le_nodeCap (by simp) hc
  pq := by simp [h.pq]
  root := by simpa [h.root] using h.forest.root_lt (List.mem_singleton_self r)
  cur := by simpa [h.cur] using h.forest.root_lt (List.mem_singleton_self r)
  queued := by simp [h.pq]
  code := by simp [h.code]

theorem Built.root_lt {r c : Nat} {tr : Tree} (h : Built s r c tr) : r < s.node.length :=
  h.forest.root_lt (List.mem_singleton_self r)

theorem Built.code_length_le {r c : Nat} {tr : Tree} (h : Built s r c tr) (hc : s.dist.length ≤ s.cfg.maxSyms)
    {p : Symbol × Bits} (hp : p ∈ s.code) : p.2.length ≤ s.cfg.maxCodeLen := by
  rw [h.code] at hp
  have hcodes : p ∈ tr.codes := (codeSetAll_mem hp).resolve_left List.not_mem_nil
  have hlt := Tree.code_length_lt hcodes
  rw [h.forest.leaves_length h.tree] at hlt
  rw [Config.maxCodeLen]
  omega

theorem Built.withinCapacity {r c : Nat} {tr : Tree} (h : Built s r c tr) (hc : s.dist.length ≤ s.cfg.maxSyms) :
    WithinCapacity s where
  node := h.forest.node_le_nodeCap (by simp) hc
  pq := by simp [h.pq]
  root := by simpa [h.root] using h.root_lt
  cur := by simpa [h.cur] using h.inTable
  queued := by simp [h.pq]
  code := fun _ hp => h.code_length_le hc hp

theorem Inv.unbuilt (h : Inv s) (hp : s.phase = .scan) : Unbuilt s := by
  simpa only [TablesInv, hp] using h.tables

theorem Inv.merging (h : Inv s) (hp : s.phase = .queue) : Merging s := by
  simpa only [TablesInv, hp] using h.tables

theorem Inv.rooted (h : Inv s) (hp : s.phase = .tree) : ∃ r, Rooted s r := by
  simpa only [TablesInv, hp] using h.tables

theorem Inv.built (h : Inv s) (hp : s.phase = .ready ∨ s.phase = .enc ∨ s.phase = .dec) :
    ∃ r c tr, Built s r c tr := by
  rcases hp with hp | hp | hp
  all_goals simpa only [TablesInv, hp] using h.tables

theorem Inv.unbuilt_or_built (h : Inv s) (hp : s.phase = .fault) : Unbuilt s ∨ ∃ r c tr, Built s r c tr := by
  simpa only [TablesInv, hp] using h.tables

theorem Inv.withinCapacity (h : Inv s) : WithinCapacity s := by
  have built : (∃ r c tr, Built s r c tr) → WithinCapacity s :=
    fun ⟨_, _, _, hb⟩ => hb.withinCapacity h.capacity
  cases hp : s.phase with
  | scan => exact (h.unbuilt hp).withinCapacity
  | queue => exact (h.merging hp).withinCapacity h.capacity
  | tree =>
    obtain ⟨r, hr⟩ := h.rooted hp
    exact hr.withinCapacity h.capacity
  | ready => exact built (h.built (.inl hp))
  | enc => exact built (h.built (.inr (.inl hp)))
  | dec => exact built (h.built (.inr (.inr hp)))
  | fault => exact (h.unbuilt_or_built hp).elim Unbuilt.withinCapacity built

/-- Settles O44, phase by phase (`Inv.withinCapacity`). -/
theorem tablesWithinCapacity : Obligations.TablesWithinCapacity := by
  intro s h
  have hw := h.withinCapacity
  refine ⟨h.capacity, hw.node, hw.pq, fun k hk => ?_, hw.code⟩
  rcases hk with hk | hk | hk
  · exact hw.root k hk
  · exact hw.cur k hk
  · exact hw.queued k hk

end Sys2Proof.Machine

/-! ## Every operation answers (R14, R36, R64) -/

namespace Sys2Proof.Machine

variable {s : State}

/-- An operation comes to a next state, and not to a stop of the model. -/
def Answers (r : Result) : Prop := ∃ t, r = .next t

theorem answers_answer (o : Output) (s : State) : Answers (answer o s) := ⟨_, rfl⟩

theorem answers_refuse (q : Reason) (s : State) : Answers (refuse q s) := ⟨_, rfl⟩

theorem answers_raise (c : Cause) (info : U64) (s : State) : Answers (raise c info s) := ⟨_, rfl⟩

theorem answers_answerPixels (ps : List PixelRun) (s : State) : Answers (answerPixels ps s) := ⟨_, rfl⟩

theorem answers_answerBytes (bs : List Byte) (s : State) : Answers (answerBytes bs s) := ⟨_, rfl⟩

theorem answers_countPixel (d : List DistEntry) (s : State) : Answers (countPixel d s) := ⟨_, rfl⟩

/-- Out of phase an operation is refused, so only its body in phase matters. -/
theorem answers_inPhase {p : Phase} {body : Result} (h : s.phase = p → Answers body) :
    Answers (inPhase p s body) := by
  by_cases hp : s.phase = p
  · rw [inPhase_of_eq hp]; exact h hp
  · rw [inPhase_of_ne hp]; exact answers_refuse _ _

theorem answers_ite {c : Prop} [Decidable c] {a b : Result} (ha : c → Answers a) (hb : ¬ c → Answers b) :
    Answers (if c then a else b) := by
  split
  · exact ha ‹_›
  · exact hb ‹_›

/-! ### The automaton and the walk stay in the table -/

section Walk

variable {roots : List Nat} {r : Nat} (hf : Forest s roots) (hr : r < s.node.length)
include hf hr

/-- From a cursor in the table a bit leads to a node of the table or selects an absent child (R130). -/
theorem advance_inTable {c : Nat} (hc : c < s.node.length) (bit : Bit) :
    (∃ k, advance s.node r c bit = .moved k ∧ k < s.node.length) ∨ ∃ c1, advance s.node r c bit = .missing c1 := by
  obtain ⟨c1, n1, happ⟩ : ∃ c1 n1, appliedAt s.node r c c1 n1 := by
    have hcn := List.getElem?_eq_getElem hc
    by_cases hl : leafRecord s.node[c]
    · exact ⟨r, _, _, hcn, fun _ => rfl, fun h => absurd hl h, List.getElem?_eq_getElem hr⟩
    · exact ⟨c, _, _, hcn, fun h => absurd h hl, fun _ => rfl, hcn⟩
  have hadv := advance_of_appliedAt happ bit
  obtain ⟨n, -, -, -, hn1⟩ := happ
  rcases hchild : childOf bit n1 with _ | k <;> rw [hchild] at hadv
  · exact .inr ⟨c1, hadv⟩
  · exact .inl ⟨k, hadv, hf.child_lt (List.mem_of_getElem? hn1) hchild⟩

theorem walkBit_inTable {w : Walk} (hc : w.cur < s.node.length) (bit : Bit) :
    (∃ w', walkBit s r bit w = .done w' ∧ w'.cur < s.node.length) ∨ ∃ w' c1, walkBit s r bit w = .missing w' c1 := by
  rcases advance_inTable hf hr hc bit with ⟨k, ha, hk⟩ | ⟨c1, ha⟩
  · simp only [walkBit, ha, List.getElem?_eq_getElem hk]
    split
    all_goals exact .inl ⟨_, rfl, hk⟩
  · exact .inr ⟨w, c1, by simp only [walkBit, ha]⟩

theorem walkBits_inTable (bits : Bits) {w : Walk} (hc : w.cur < s.node.length) :
    (∃ w', walkBits s r bits w = .done w') ∨ ∃ w' c1, walkBits s r bits w = .missing w' c1 := by
  induction bits generalizing w with
  | nil => exact .inl ⟨w, rfl⟩
  | cons bit bits ih =>
    by_cases h0 : w.rem = 0
    · exact .inl ⟨w, by rw [walkBits, if_pos h0]⟩
    simp only [walkBits, if_neg h0]
    rcases walkBit_inTable hf hr hc bit with ⟨w', hw, hc'⟩ | ⟨w', c1, hw⟩
    · simp only [hw]
      exact ih hc'
    · exact .inr ⟨w', c1, by simp only [hw]⟩

end Walk

/-! ### The operations on the tables -/

theorem execScan_answers (px : U32) (s : State) : Answers (execScan px s) := by
  refine answers_inPhase fun _ => answers_ite (fun _ => answers_refuse _ _) fun _ => ?_
  cases distFind s.dist (toStorage s.cfg px) with
  | none => exact answers_ite (fun _ => answers_refuse _ _) fun _ => answers_countPixel _ _
  | some j => exact answers_countPixel _ _

theorem execPrio_answers (s : State) : Answers (execPrio s) :=
  answers_inPhase fun _ => answers_ite (fun _ => answers_raise _ _ _) fun _ => answers_answer _ _

theorem firstAbsent_eq_none {nodes : List NodeRec} {ks : List Nat} (h : ∀ k ∈ ks, k < nodes.length) :
    firstAbsent nodes ks = none :=
  List.find?_eq_none.2 fun k hk => by simpa using h k hk

/-- The indices that MERGE takes from PQ are in the table. -/
theorem execMerge_answers (h : Inv s) : Answers (execMerge s) := by
  refine answers_inPhase fun _ => ?_
  have hlt := h.withinCapacity.queued
  match hq : s.pq with
  | [] => exact answers_refuse _ _
  | [_] => exact answers_refuse _ _
  | a :: b :: rest =>
    simp only [hq, List.forall_mem_cons] at hlt
    obtain ⟨ha, hb, hrest⟩ := hlt
    simp only [List.getElem?_eq_getElem ha, List.getElem?_eq_getElem hb, firstAbsent_eq_none hrest]
    exact answers_answer _ _

theorem execMkroot_answers (h : Inv s) : Answers (execMkroot s) := by
  refine answers_inPhase fun _ => ?_
  have hlt := h.withinCapacity.queued
  match hq : s.pq with
  | [] => exact answers_refuse _ _
  | [k] =>
    rw [hq, List.forall_mem_singleton] at hlt
    simp only [List.getElem?_eq_getElem hlt]
    exact answers_answer _ _
  | _ :: _ :: _ => exact answers_refuse _ _

/-- Under ROOT the records are a tree, and its leaf symbols are those of DIST, which are distinct. -/
theorem execGencode_answers (h : Inv s) : Answers (execGencode s) := by
  refine answers_inPhase fun hp => ?_
  obtain ⟨r, hr⟩ := h.rooted hp
  obtain ⟨tr, ht⟩ := Option.isSome_iff_exists.1 (hr.forest.trees r (List.mem_singleton_self r))
  simp only [hr.root, ht, if_pos (hr.forest.codes_symbols_nodup ht h.distForm)]
  exact answers_answer _ _

theorem execLookup_answers (sym : Symbol) (s : State) : Answers (execLookup sym s) := by
  refine answers_inPhase fun _ => ?_
  cases codeGet s.code sym with
  | none => exact answers_answer _ _
  | some bits => exact answers_answer _ _

theorem execStep_answers (h : Inv s) (bit : Bit) : Answers (execStep bit s) := by
  refine answers_inPhase fun hp => ?_
  obtain ⟨r, c, tr, hb⟩ := h.built (.inl hp)
  simp only [hb.cur, hb.root]
  rcases advance_inTable hb.forest hb.root_lt hb.inTable bit with ⟨k, ha, hk⟩ | ⟨c1, ha⟩
  · simp only [ha, List.getElem?_eq_getElem hk]
    exact answers_answer _ _
  · simp only [ha]
    exact answers_raise _ _ _

/-! ### The decoder -/

theorem startPixels_answers {r : Nat} (hr : r < s.node.length) (w h : U32) : Answers (startPixels r w h s) := by
  simp only [startPixels, List.getElem?_eq_getElem hr]
  exact answers_ite (fun _ => answers_answerPixels _ _) fun _ => answers_answerPixels _ _

theorem exists_eight_of_length {l : List Byte} (h : l.length = 8) :
    ∃ b0 b1 b2 b3 b4 b5 b6 b7, l = [b0, b1, b2, b3, b4, b5, b6, b7] :=
  match l, h with
  | [_, _, _, _, _, _, _, _], _ => ⟨_, _, _, _, _, _, _, _, rfl⟩

/-- When the eighth header byte arrives, seven are held, so the header has its eight bytes (R30). -/
theorem headerByte_answers {r : Nat} (hr : r < s.node.length) (hd : s.dHdr.length = s.dHb.toNat) (b : Byte) :
    Answers (headerByte r b s) := by
  by_cases h8 : s.dHb + 1 = 8
  · have h7 : s.dHb.toNat = 7 := by
      rw [eq_sub_of_add_eq h8]; rfl
    obtain ⟨b0, b1, b2, b3, b4, b5, b6, b7, hb⟩ := exists_eight_of_length (l := s.dHdr ++ [b]) (by simp [hd, h7])
    simp only [headerByte, if_pos h8, hb]
    refine startPixels_answers ?_ _ _
    exact hr
  · simp only [headerByte, if_neg h8]
    exact answers_answerPixels _ _

theorem bodyByte_answers {roots : List Nat} {r c : Nat} (hf : Forest s roots) (hr : r < s.node.length)
    (hcur : s.cur = some c) (hc : c < s.node.length) (b : Byte) : Answers (bodyByte r b s) := by
  refine answers_ite (fun _ => answers_answerPixels _ _) fun _ => ?_
  simp only [hcur]
  rcases walkBits_inTable hf hr (bitsOf b) (w := { cur := c, idx := s.dIdx, rem := s.dRem, writes := [] }) hc with
    ⟨w, hw⟩ | ⟨w, c1, hw⟩
  · simp only [hw]
    exact answers_answerPixels _ _
  · simp only [hw]
    exact answers_raise _ _ _

theorem execDecbyte_answers (h : Inv s) (b : Byte) : Answers (execDecbyte b s) := by
  refine answers_inPhase fun hp => ?_
  obtain ⟨r, c, tr, hb⟩ := h.built (.inr (.inr hp))
  simp only [hb.root]
  exact answers_ite (fun _ => headerByte_answers hb.root_lt h.decoder.received b)
    fun _ => bodyByte_answers hb.forest hb.root_lt hb.cur hb.inTable b

theorem execDecend_answers (s : State) : Answers (execDecend s) :=
  answers_inPhase fun _ => answers_ite (fun _ => answers_raise _ _ _) fun _ =>
    answers_ite (fun _ => answers_raise _ _ _) fun _ => answers_answer _ _

/-! ### The encoder -/

theorem execEncpix_answers (px : U32) (s : State) : Answers (execEncpix px s) := by
  refine answers_inPhase fun _ => answers_ite (fun _ => answers_refuse _ _) fun _ => ?_
  cases codeGet s.code (toStorage s.cfg px) with
  | none => exact answers_raise _ _ _
  | some bits => exact answers_answerBytes _ _

/-- At most seven bits are pending (R29). -/
theorem execEncend_answers (h : Inv s) : Answers (execEncend s) := by
  have hacc := h.encoder.pending
  exact answers_inPhase fun _ => answers_ite (fun _ => answers_refuse _ _) fun _ =>
    answers_ite (fun h8 => absurd h8 (by omega)) fun _ => answers_answerBytes _ _

/-- Settles O42: operation by operation, each pattern that the model's stops stand beside matches under the
invariant. -/
theorem operationsAlwaysAnswer : Obligations.OperationsAlwaysAnswer := by
  intro i s h
  show Answers (exec i s)
  cases i with
  | reset => exact answers_answer _ _
  | status => exact answers_answer _ _
  | scan px => exact execScan_answers px s
  | prio => exact execPrio_answers s
  | merge => exact execMerge_answers h
  | mkroot => exact execMkroot_answers h
  | gencode => exact execGencode_answers h
  | lookup sym => exact execLookup_answers sym s
  | currst => exact answers_inPhase fun _ => answers_answer _ _
  | step bit => exact execStep_answers h bit
  | decbegin => exact answers_inPhase fun _ => answers_answer _ _
  | decbyte b => exact execDecbyte_answers h b
  | decend => exact execDecend_answers s
  | enchdr w h' => exact answers_inPhase fun _ => answers_answerBytes _ _
  | encpix px => exact execEncpix_answers px s
  | encend => exact execEncend_answers h

end Sys2Proof.Machine

/-! ## What every operation does to the registers and tables (R14, R21, R41) -/

namespace Sys2Proof.Machine

open Sys2Proof.Machine.Claims

variable {s t u : State} {i : Instr}

/-! ### The phase test (R21) -/

/-- Every operation but RESET and STATUS begins with the phase test. -/
theorem exec_eq_inPhase {p : Phase} (h : stepPhase i = some p) (s : State) : ∃ body, exec i s = inPhase p s body := by
  cases i with
  | reset => simp [stepPhase] at h
  | status => simp [stepPhase] at h
  | _ =>
    obtain rfl := Option.some.inj h
    exact ⟨_, rfl⟩

theorem hasStep_iff {p : Phase} : hasStep p i = true ↔ ∀ q, stepPhase i = some q → p = q := by
  unfold hasStep
  split
  · simp [*]
  · simp [*]

theorem exec_of_hasStep_false (h : hasStep s.phase i = false) : exec i s = refuse .wrongPhase s := by
  cases hq : stepPhase i with
  | none => simp [hasStep, hq] at h
  | some q =>
    obtain ⟨body, hbody⟩ := exec_eq_inPhase hq s
    rw [hbody]
    exact inPhase_of_ne (by simpa [hasStep, hq] using h) body

/-- An answer that is no refusal comes from an operation that has a step in the phase. -/
theorem hasStep_of_resp (h : exec i s = .next t) (hr : ∀ r, t.port.resp ≠ some (.refused r)) :
    hasStep s.phase i = true := by
  by_contra hs
  rw [exec_of_hasStep_false (by simpa using hs), refuse_eq_next] at h
  exact hr _ (by rw [h, respond_resp])

/-! ### The ends of an operation -/

/-- The phase after an `ok` response (R21). -/
def phaseAfter (i : Instr) (p : Phase) : Phase :=
  match i with
  | .prio => .queue
  | .mkroot => .tree
  | .gencode => .ready
  | .enchdr _ _ => .enc
  | .encend => .ready
  | .decbegin => .dec
  | .decend => .ready
  | .reset => .scan
  | .status | .scan _ | .merge | .lookup _ | .currst | .step _ | .decbyte _ | .encpix _ => p

/-- From `s` to `u` nothing has changed but what the table of R41 has `i` write, PHASE, ERR, EINFO and the port left
aside. -/
structure Frame (i : Instr) (s u : State) : Prop where
  dist : writesDist i = false → u.dist = s.dist := by simp
  node : writesNode i = false → u.node = s.node := by simp
  pq : writesPq i = false → u.pq = s.pq := by simp
  code : writesCode i = false → u.code = s.code := by simp
  root : writesRoot i = false → u.root = s.root := by simp
  cur : writesCur i = false → u.cur = s.cur := by simp
  npix : writesNpix i = false → u.npix = s.npix := by simp
  encoder : writesEncoder i = false → u.eRem = s.eRem ∧ u.eAcc = s.eAcc := by simp
  size : (∀ w h, i ≠ .enchdr w h) → i ≠ .reset → u.eW = s.eW ∧ u.eH = s.eH := by simp
  decoder : writesDecoder i = false →
    u.dHb = s.dHb ∧ u.dHdr = s.dHdr ∧ u.dW = s.dW ∧ u.dH = s.dH ∧ u.dRem = s.dRem ∧ u.dIdx = s.dIdx := by simp

/-- The three ends of an operation (R14): a refusal, which changes nothing but the response; an error, taken after
changes within the frame; `ok`, after changes within the frame, in the phase that R21 names. -/
inductive Ends (i : Instr) (s t : State) : Prop
  | refused {r : Reason} (h : t = respond (.refused r) s)
  | failed {c : Cause} {info : U64} {u : State} (h : t = raised c info u) (hf : Frame i s u)
  | ok {out : Output} {u : State} (h : t = respond (.ok out) u) (hf : Frame i s u)
      (hp : u.phase = phaseAfter i s.phase) (he : i ≠ .reset → u.err = s.err ∧ u.einfo = s.einfo)

theorem Ends.of_outOfPhase {p : Phase} (h : OutOfPhase p s t) : Ends i s t := .refused h.2

theorem execReset_ends (h : execReset s = .next t) : Ends .reset s t :=
  .ok (execReset_cases h) {} rfl (by simp)

theorem execStatus_ends (h : execStatus s = .next t) : Ends .status s t :=
  .ok (execStatus_cases h) {} rfl fun _ => ⟨rfl, rfl⟩

theorem execScan_ends {px : U32} (h : execScan px s = .next t) : Ends (.scan px) s t := by
  obtain hw | ⟨-, ⟨-, h⟩ | ⟨-, -, -, h⟩ | ⟨-, d, -, h⟩⟩ := execScan_cases h
  · exact .of_outOfPhase hw
  · exact .refused h
  · exact .refused h
  · exact .ok h {} rfl fun _ => ⟨rfl, rfl⟩

theorem execPrio_ends (h : execPrio s = .next t) : Ends .prio s t := by
  obtain hw | ⟨-, ⟨-, h⟩ | ⟨-, nodes, pq, -, -, h⟩⟩ := execPrio_cases h
  · exact .of_outOfPhase hw
  · exact .failed (u := s) h {}
  · exact .ok h {} rfl fun _ => ⟨rfl, rfl⟩

theorem execMerge_ends (h : execMerge s = .next t) : Ends .merge s t := by
  obtain hw | ⟨-, ⟨-, h⟩ | ⟨a, b, rest, na, nb, -, -, -, -, h⟩⟩ := execMerge_cases h
  · exact .of_outOfPhase hw
  · exact .refused h
  · exact .ok h {} rfl fun _ => ⟨rfl, rfl⟩

theorem execMkroot_ends (h : execMkroot s = .next t) : Ends .mkroot s t := by
  obtain hw | ⟨-, ⟨-, h⟩ | ⟨k, n, -, -, h⟩⟩ := execMkroot_cases h
  · exact .of_outOfPhase hw
  · exact .refused h
  · exact .ok h {} rfl fun _ => ⟨rfl, rfl⟩

theorem execGencode_ends (h : execGencode s = .next t) : Ends .gencode s t := by
  obtain hw | ⟨-, r, tr, -, -, -, h⟩ := execGencode_cases h
  · exact .of_outOfPhase hw
  · exact .ok h {} rfl fun _ => ⟨rfl, rfl⟩

theorem execLookup_ends {sym : Symbol} (h : execLookup sym s = .next t) : Ends (.lookup sym) s t := by
  obtain hw | ⟨-, ⟨bits, -, h⟩ | ⟨-, h⟩⟩ := execLookup_cases h
  · exact .of_outOfPhase hw
  · exact .ok h {} rfl fun _ => ⟨rfl, rfl⟩
  · exact .ok h {} rfl fun _ => ⟨rfl, rfl⟩

theorem execCurrst_ends (h : execCurrst s = .next t) : Ends .currst s t := by
  obtain hw | ⟨-, h⟩ := execCurrst_cases h
  · exact .of_outOfPhase hw
  · exact .ok h {} rfl fun _ => ⟨rfl, rfl⟩

theorem execStep_ends {bit : Bit} (h : execStep bit s = .next t) : Ends (.step bit) s t := by
  obtain hw | ⟨-, c, r, -, -, ⟨k, n, -, -, h⟩ | ⟨c1, -, h⟩⟩ := execStep_cases h
  · exact .of_outOfPhase hw
  · exact .ok h {} rfl fun _ => ⟨rfl, rfl⟩
  · exact .failed (u := { s with cur := s.root }) h {}

theorem execDecbegin_ends (h : execDecbegin s = .next t) : Ends .decbegin s t := by
  obtain hw | ⟨-, h⟩ := execDecbegin_cases h
  · exact .of_outOfPhase hw
  · exact .ok h {} rfl fun _ => ⟨rfl, rfl⟩

theorem headerByte_ends {r : Nat} {b : Byte} (h : headerByte r b s = .next t) : Ends (.decbyte b) s t := by
  obtain ⟨-, h⟩ | ⟨-, b0, b1, b2, b3, b4, b5, b6, b7, -, h⟩ := headerByte_cases h
  · exact .ok h {} rfl fun _ => ⟨rfl, rfl⟩
  · obtain ⟨n, -, ⟨-, h⟩ | ⟨-, h⟩⟩ := startPixels_cases h
    all_goals exact .ok h {} rfl fun _ => ⟨rfl, rfl⟩

theorem bodyByte_ends {r : Nat} {b : Byte} (h : bodyByte r b s = .next t) : Ends (.decbyte b) s t := by
  obtain ⟨-, h⟩ | ⟨-, c, -, ⟨w, -, h⟩ | ⟨w, c1, -, h⟩⟩ := bodyByte_cases h
  · exact .ok h {} rfl fun _ => ⟨rfl, rfl⟩
  · exact .ok h {} rfl fun _ => ⟨rfl, rfl⟩
  · exact .failed (u := setPixels w.writes { afterWalk w s with cur := s.root }) h {}

theorem execDecbyte_ends {b : Byte} (h : execDecbyte b s = .next t) : Ends (.decbyte b) s t := by
  obtain hw | ⟨-, r, -, ⟨-, h⟩ | ⟨-, h⟩⟩ := execDecbyte_cases h
  · exact .of_outOfPhase hw
  · exact headerByte_ends h
  · exact bodyByte_ends h

theorem execDecend_ends (h : execDecend s = .next t) : Ends .decend s t := by
  obtain hw | ⟨-, ⟨-, h⟩ | ⟨-, -, h⟩ | ⟨-, -, h⟩⟩ := execDecend_cases h
  · exact .of_outOfPhase hw
  · exact .failed (u := s) h {}
  · exact .failed (u := s) h {}
  · exact .ok h {} rfl fun _ => ⟨rfl, rfl⟩

theorem execEnchdr_ends {w h : U32} (hs : execEnchdr w h s = .next t) : Ends (.enchdr w h) s t := by
  obtain hw | ⟨-, hs⟩ := execEnchdr_cases hs
  · exact .of_outOfPhase hw
  · exact .ok hs {} rfl fun _ => ⟨rfl, rfl⟩

theorem execEncpix_ends {px : U32} (h : execEncpix px s = .next t) : Ends (.encpix px) s t := by
  obtain hw | ⟨-, ⟨-, h⟩ | ⟨-, -, h⟩ | ⟨-, bits, -, h⟩⟩ := execEncpix_cases h
  · exact .of_outOfPhase hw
  · exact .refused h
  · exact .failed (u := s) h {}
  · exact .ok h {} rfl fun _ => ⟨rfl, rfl⟩

theorem execEncend_ends (h : execEncend s = .next t) : Ends .encend s t := by
  obtain hw | ⟨-, ⟨-, h⟩ | ⟨-, -, h⟩⟩ := execEncend_cases h
  · exact .of_outOfPhase hw
  · exact .refused h
  · exact .ok h {} rfl fun _ => ⟨rfl, rfl⟩

theorem exec_ends (h : exec i s = .next t) : Ends i s t := by
  cases i with
  | reset => exact execReset_ends h
  | status => exact execStatus_ends h
  | scan px => exact execScan_ends h
  | prio => exact execPrio_ends h
  | merge => exact execMerge_ends h
  | mkroot => exact execMkroot_ends h
  | gencode => exact execGencode_ends h
  | lookup sym => exact execLookup_ends h
  | currst => exact execCurrst_ends h
  | step bit => exact execStep_ends h
  | decbegin => exact execDecbegin_ends h
  | decbyte b => exact execDecbyte_ends h
  | decend => exact execDecend_ends h
  | enchdr w h' => exact execEnchdr_ends h
  | encpix px => exact execEncpix_ends h
  | encend => exact execEncend_ends h

/-! ### The frames (R41) -/

theorem Frame.respond (hf : Frame i s u) (r : Response) : Frame i s (respond r u) :=
  ⟨hf.dist, hf.node, hf.pq, hf.code, hf.root, hf.cur, hf.npix, hf.encoder, hf.size, hf.decoder⟩

theorem Frame.raised (hf : Frame i s u) (c : Cause) (info : U64) : Frame i s (raised c info u) :=
  ⟨hf.dist, hf.node, hf.pq, hf.code, hf.root, hf.cur, hf.npix, hf.encoder, hf.size, hf.decoder⟩

theorem exec_frame (h : exec i s = .next t) : Frame i s t := by
  cases exec_ends h with
  | refused h => subst h; exact Frame.respond {} _
  | failed h hf => subst h; exact hf.raised _ _
  | ok h hf hp he => subst h; exact hf.respond _

/-- Settles O9: the columns of the tables in `Frame`. -/
theorem tablesWrittenOnlyAsListed : Obligations.TablesWrittenOnlyAsListed := by
  intro i s t h
  have hf := exec_frame h
  exact ⟨hf.dist, hf.node, hf.pq, hf.code⟩

/-- ERR and EINFO change by an error and by RESET only (R22, R23). -/
theorem exec_err (h : exec i s = .next t) (hi : i ≠ .reset) (hr : ∀ c info, t.port.resp ≠ some (.error c info)) :
    t.err = s.err ∧ t.einfo = s.einfo := by
  cases exec_ends h with
  | refused h => subst h; exact ⟨rfl, rfl⟩
  | failed h hf => subst h; exact absurd rfl (hr _ _)
  | ok h hf hp he => subst h; exact he hi

/-- Settles O10: the columns of the registers in `Frame`; ERR and EINFO by the kind of response. -/
theorem registersWrittenOnlyAsListed : Obligations.RegistersWrittenOnlyAsListed := by
  intro i s t h
  have hf := exec_frame h
  exact ⟨hf.root, hf.cur, hf.npix, hf.encoder, hf.size, hf.decoder, exec_err h⟩

/-- Settles O13: only GENCODE and RESET write CODE. -/
theorem codeTableStaysCanonical : Obligations.CodeTableStaysCanonical := by
  intro i s t hc h
  have hf := exec_frame h
  cases i with
  | reset =>
    rw [execReset_cases h]
    exact .nil
  | gencode =>
    obtain ⟨-, rfl⟩ | ⟨-, r, tr, -, -, -, rfl⟩ := execGencode_cases h
    · exact hc
    · exact codeSetAll_wf hc tr.codes
  | _ => rwa [hf.code rfl]

/-! ### The phases (R21) -/

theorem eq_of_resp_refused (h : exec i s = .next t) {r : Reason} (hr : t.port.resp = some (.refused r)) :
    t = respond (.refused r) s := by
  cases exec_ends h with
  | refused h' => subst h'; cases hr; rfl
  | failed h' hf => subst h'; cases hr
  | ok h' hf hp he => subst h'; cases hr

theorem phase_of_resp_error (h : exec i s = .next t) {c : Cause} {info : U64}
    (hr : t.port.resp = some (.error c info)) : t.phase = .fault := by
  cases exec_ends h with
  | refused h' => subst h'; cases hr
  | failed h' hf => subst h'; rfl
  | ok h' hf hp he => subst h'; cases hr

theorem phase_of_resp_ok (h : exec i s = .next t) {out : Output} (hr : t.port.resp = some (.ok out)) :
    t.phase = phaseAfter i s.phase := by
  cases exec_ends h with
  | refused h' => subst h'; cases hr
  | failed h' hf => subst h'; cases hr
  | ok h' hf hp he => subst h'; exact hp

/-- PHASE stays, becomes FAULT, or becomes what R21 names for an operation that has a step. -/
theorem exec_phase (h : exec i s = .next t) :
    t.phase = s.phase ∨ t.phase = .fault ∨ (hasStep s.phase i = true ∧ t.phase = phaseAfter i s.phase) := by
  cases exec_ends h with
  | refused h => subst h; exact .inl rfl
  | failed h hf => subst h; exact .inr (.inl rfl)
  | ok h' hf hp he =>
    subst h'
    exact .inr (.inr ⟨hasStep_of_resp h (by simp), hp⟩)

theorem phaseAfter_ne_scan {p : Phase} (hs : hasStep p i = true) (hi : i ≠ .reset) (hp : p ≠ .scan) :
    phaseAfter i p ≠ .scan := by
  rw [hasStep_iff] at hs
  cases i with
  | scan px => exact absurd (hs _ rfl) hp
  | reset => exact absurd rfl hi
  | status | merge | lookup _ | currst | step _ | decbyte _ | encpix _ => exact hp
  | _ => simp [phaseAfter]

/-- Settles O6: the table of R21 by `stepPhase`, the refusals by the phase test, the transitions by the three ends. -/
theorem phaseGovernsOperations : Obligations.PhaseGovernsOperations := by
  refine ⟨rfl, fun p i => ?_, fun i s h => exec_of_hasStep_false h,
    fun i s t h => ⟨fun r hr => ?_, fun c info hr => ?_, fun out hr => ?_, fun ht hs => ?_⟩⟩
  · rw [hasStep_iff]
    cases i <;> simp [stepPhase]
  · exact eq_of_resp_refused h hr
  · exact phase_of_resp_error h hr
  · exact (phase_of_resp_ok h hr).trans rfl
  · by_contra hi
    obtain h' | h' | ⟨hstep, h'⟩ := exec_phase h
    · exact hs (h' ▸ ht)
    · rw [h'] at ht; cases ht
    · exact phaseAfter_ne_scan hstep hi hs (h' ▸ ht)

end Sys2Proof.Machine

/-! ## The invariant at reset, and registers and DIST under a step (R22, R26 to R32, R37, R40) -/

namespace Sys2Proof.Machine

open Sys2Proof.Machine.Claims

variable {s t u : State} {i : Instr}

/-- Settles O17: each value as State.reset has it, and RESET's completion. -/
theorem resetValues : Obligations.ResetValues :=
  ⟨rfl, rfl, rfl, rfl, rfl, rfl, rfl, rfl, rfl, rfl, rfl, rfl, rfl, rfl, rfl, rfl, rfl, rfl, rfl, fun _ => rfl,
    fun _ => rfl⟩

/-- The reset state satisfies the invariant with every configuration and whatever stands at the port (R40). -/
theorem inv_resetState {c : Config} (hc : c.wellFormed = true) (p : Port) :
    Inv { State.reset with cfg := c, port := p } where
  config := hc
  errFault := by simp [State.reset]
  info := fun _ => rfl
  distForm := ⟨.nil, by simp [State.reset]⟩
  capacity := Nat.zero_le _
  counted := rfl
  encoder := ⟨Nat.zero_le _, Nat.zero_le _, fun _ _ => ⟨rfl, rfl⟩⟩
  decoder := ⟨rfl, Nat.zero_le _, fun _ => ⟨rfl, rfl, rfl, rfl⟩, (nomatch ·), fun _ => rfl⟩
  tables := Unbuilt.mk rfl rfl rfl rfl rfl

/-- Settles O40, by `inv_resetState`. -/
theorem invariantHoldsAtReset : Obligations.InvariantHoldsAtReset :=
  ⟨inv_resetState (c := Config.default) (by decide) Port.empty, fun _ hc => inv_resetState hc Port.empty⟩

/-! ### What the parts of the invariant depend on -/

theorem Forest.congr {roots : List Nat} (h : Forest s roots) (hd : t.dist = s.dist) (hn : t.node = s.node)
    (hp : t.npix = s.npix) : Forest t roots := by
  obtain ⟨h1, h2, h3, h4, h5, h6, h7, h8⟩ := h
  rw [← hd] at h1 h2 h3 h4 h7
  rw [← hn] at h2 h3 h4 h5 h6 h7 h8
  rw [← hp] at h8
  exact ⟨h1, h2, h3, h4, h5, h6, h7, h8⟩

theorem EncoderInv.congr (h : EncoderInv s) (hr : t.eRem = s.eRem ∧ t.eAcc = s.eAcc) (hs : t.eW = s.eW ∧ t.eH = s.eH)
    (hp : t.phase ≠ .enc → t.phase ≠ .fault → s.phase ≠ .enc ∧ s.phase ≠ .fault) : EncoderInv t where
  pending := by rw [hr.2]; exact h.pending
  remaining := by rw [hr.1, hs.1, hs.2]; exact h.remaining
  closed := fun h1 h2 => by
    rw [hr.1, hr.2]
    exact h.closed (hp h1 h2).1 (hp h1 h2).2

theorem DecoderInv.congr (h : DecoderInv s)
    (hd : t.dHb = s.dHb ∧ t.dHdr = s.dHdr ∧ t.dW = s.dW ∧ t.dH = s.dH ∧ t.dRem = s.dRem ∧ t.dIdx = s.dIdx)
    (hp : t.phase.beforeSessions = true → s.phase.beforeSessions = true) : DecoderInv t := by
  obtain ⟨hb, hh, hW, hH, hr, hi⟩ := hd
  constructor
  case early => exact fun h1 => hb ▸ h.early (hp h1)
  all_goals rw [hb]
  · rw [hh]; exact h.received
  · exact h.bound
  · rw [hW, hH, hr, hi]; exact h.unparsed
  · rw [hh, hW, hH, hr, hi]; exact h.parsed

/-! ### ERR and EINFO (R22, R23) -/

/-- An `ok` response of an operation that has a step leads to FAULT from FAULT only. -/
theorem phaseAfter_eq_fault_iff {p : Phase} (hs : hasStep p i = true) (hi : i ≠ .reset) :
    phaseAfter i p = .fault ↔ p = .fault := by
  rw [hasStep_iff] at hs
  cases i with
  | reset => exact absurd rfl hi
  | status => rfl
  | _ =>
    obtain rfl := hs _ rfl
    simp [phaseAfter]

theorem exec_errInv (h : exec i s = .next t) (hi : i ≠ .reset) (he : s.err ≠ none ↔ s.phase = .fault)
    (hn : s.err = none → s.einfo = 0) :
    (t.err ≠ none ↔ t.phase = .fault) ∧ (t.err = none → t.einfo = 0) := by
  cases exec_ends h with
  | refused h' => subst h'; exact ⟨he, hn⟩
  | failed h' hf => subst h'; simp
  | @ok out u h' hf hp hu =>
    subst h'
    obtain ⟨h1, h2⟩ := hu hi
    have hstep := hasStep_of_resp h (by simp)
    simp only [respond_err, respond_einfo, respond_phase, h1, h2, hp, phaseAfter_eq_fault_iff hstep hi]
    exact ⟨he, hn⟩

/-! ### DIST and NPIX (R26, R32) -/

/-- The part of the invariant that is about DIST. -/
structure DistInv (s : State) : Prop where
  form : distWf s.dist
  capacity : s.dist.length ≤ s.cfg.maxSyms
  counted : (s.dist.map fun e => e.count.toNat).sum = s.npix.toNat

theorem Inv.distInv (h : Inv s) : DistInv s := ⟨h.distForm, h.capacity, h.counted⟩

theorem distFind_eq_none {d : List DistEntry} {sym : Symbol} (h : distFind d sym = none) :
    ∀ e ∈ d, e.symbol ≠ sym := by
  simpa [distFind, List.findIdx?_eq_none_iff] using h

theorem distFind_lt {d : List DistEntry} {sym : Symbol} {j : Nat} (h : distFind d sym = some j) : j < d.length := by
  obtain ⟨hj, -⟩ := List.findIdx?_eq_some_iff_getElem.1 h
  exact hj

theorem distBump_length (d : List DistEntry) (j : Nat) : (distBump d j).length = d.length := by
  simp [distBump]

/-- Counting a symbol again adds one to the total while its count fits. -/
theorem distBump_counted {d : List DistEntry} {j : Nat} (hj : j < d.length)
    (hc : (d.map fun e => e.count.toNat).sum + 1 < 2 ^ 64) :
    ((distBump d j).map fun e => e.count.toNat).sum = (d.map fun e => e.count.toNat).sum + 1 := by
  induction d generalizing j with
  | nil => simp at hj
  | cons e d ih =>
    rw [List.map_cons, List.sum_cons] at hc ⊢
    cases j with
    | zero =>
      rw [distBump, List.modify_zero_cons, List.map_cons, List.sum_cons, exact64_toNat (by omega)]
      omega
    | succ j =>
      have := ih (Nat.lt_of_succ_lt_succ hj) (by omega)
      rw [distBump] at this
      rw [distBump, List.modify_succ_cons, List.map_cons, List.sum_cons, this]
      omega

theorem count_le_counted {d : List DistEntry} {e : DistEntry} (he : e ∈ d) :
    e.count.toNat ≤ (d.map fun e => e.count.toNat).sum :=
  List.single_le_sum (by simp) _ (List.mem_map_of_mem he)

/-- An accepted SCAN counts one pixel (R100). -/
theorem execScan_distInv {px : U32} (hd : DistInv s) (h : execScan px s = .next t) : DistInv t := by
  obtain ⟨hform, hcap, hcount⟩ := hd
  obtain ⟨-, rfl⟩ | ⟨-, ⟨-, rfl⟩ | ⟨-, -, -, rfl⟩ | ⟨hn, d, hcase, rfl⟩⟩ := execScan_cases h
  · exact ⟨hform, hcap, hcount⟩
  · exact ⟨hform, hcap, hcount⟩
  · exact ⟨hform, hcap, hcount⟩
  have hlt : s.npix.toNat + 1 < 2 ^ 64 := by have := s.npix.isLt; omega
  have hnpix : (exact64 (s.npix.toNat + 1)).toNat = s.npix.toNat + 1 := exact64_toNat hlt
  obtain ⟨j, hj, rfl⟩ | ⟨hnew, hroom, rfl⟩ := hcase
  · refine ⟨distBump_wf hform fun e he => ?_, ?_, ?_⟩
    · have := count_le_counted (List.mem_of_getElem? he)
      omega
    · exact (distBump_length s.dist j).trans_le hcap
    · exact (distBump_counted (distFind_lt hj) (by omega)).trans (by rw [hcount]; exact hnpix.symm)
  · refine ⟨distAppend_wf hform (distFind_eq_none hnew), ?_, ?_⟩
    · have : s.dist.length < s.cfg.maxSyms := lt_of_le_of_ne hcap hroom
      simpa using this
    · simpa [hnpix] using hcount

theorem exec_distInv (hd : DistInv s) (h : exec i s = .next t) (hi : i ≠ .reset) : DistInv t := by
  have hf := exec_frame h
  obtain ⟨bs, ps, hem, -, -⟩ := exec_emits h
  cases i with
  | reset => exact absurd rfl hi
  | scan px => exact execScan_distInv hd h
  | _ => exact ⟨hf.dist rfl ▸ hd.form, by rw [hf.dist rfl, hem.cfg]; exact hd.capacity,
      by rw [hf.dist rfl, hf.npix rfl]; exact hd.counted⟩

/-! ### The encode session (R27 to R29) -/

theorem sub_one_toNat {v : U64} (h : v ≠ 0) : (v - 1).toNat = v.toNat - 1 := by
  have h1 : (1 : U64) ≤ v := by
    have : v.toNat ≠ 0 := fun h0 => h (BitVec.eq_of_toNat_eq h0)
    exact Nat.one_le_iff_ne_zero.2 this
  rw [BitVec.toNat_sub_of_le h1]; rfl

theorem execEnchdr_encoderInv {w h : U32} (he : EncoderInv s) (hs : execEnchdr w h s = .next t) : EncoderInv t := by
  obtain ⟨-, rfl⟩ | ⟨-, rfl⟩ := execEnchdr_cases hs
  · exact he.congr ⟨rfl, rfl⟩ ⟨rfl, rfl⟩ fun h1 h2 => ⟨h1, h2⟩
  · exact ⟨Nat.zero_le _, (pixelCount_toNat w h).le, fun h1 => absurd rfl h1⟩

theorem execEncpix_encoderInv {px : U32} (he : EncoderInv s) (h : execEncpix px s = .next t) : EncoderInv t := by
  obtain ⟨-, rfl⟩ | ⟨hp, ⟨-, rfl⟩ | ⟨-, -, rfl⟩ | ⟨h0, bits, -, rfl⟩⟩ := execEncpix_cases h
  · exact he.congr ⟨rfl, rfl⟩ ⟨rfl, rfl⟩ fun h1 h2 => ⟨h1, h2⟩
  · exact he.congr ⟨rfl, rfl⟩ ⟨rfl, rfl⟩ fun h1 h2 => ⟨h1, h2⟩
  · exact he.congr ⟨rfl, rfl⟩ ⟨rfl, rfl⟩ fun _ h2 => absurd rfl h2
  · refine ⟨?_, ?_, fun h1 => absurd hp h1⟩
    · have := restBits_length (s.eAcc ++ bits)
      show (restBits (s.eAcc ++ bits)).length ≤ 7
      omega
    · have := he.remaining
      show (s.eRem - 1).toNat ≤ s.eW.toNat * s.eH.toNat
      rw [sub_one_toNat h0]
      omega

theorem execEncend_encoderInv (he : EncoderInv s) (h : execEncend s = .next t) : EncoderInv t := by
  obtain ⟨-, rfl⟩ | ⟨-, ⟨-, rfl⟩ | ⟨h0, -, rfl⟩⟩ := execEncend_cases h
  · exact he.congr ⟨rfl, rfl⟩ ⟨rfl, rfl⟩ fun h1 h2 => ⟨h1, h2⟩
  · exact he.congr ⟨rfl, rfl⟩ ⟨rfl, rfl⟩ fun h1 h2 => ⟨h1, h2⟩
  · exact ⟨Nat.zero_le _, he.remaining, fun _ _ => ⟨rfl, BitVec.eq_of_toNat_eq h0⟩⟩

/-- Only ENCEND closes a session. -/
theorem exec_outside_enc (h : exec i s = .next t) (hi : writesEncoder i = false) (h1 : t.phase ≠ .enc)
    (h2 : t.phase ≠ .fault) : s.phase ≠ .enc ∧ s.phase ≠ .fault := by
  obtain hp | hp | ⟨hs, hp⟩ := exec_phase h
  · exact ⟨hp ▸ h1, hp ▸ h2⟩
  · exact absurd hp h2
  · rw [hasStep_iff] at hs
    cases i with
    | reset | enchdr _ _ | encpix _ | encend => simp at hi
    | status => exact ⟨fun h0 => h1 (hp.trans h0), fun h0 => h2 (hp.trans h0)⟩
    | _ => rw [hs _ rfl]; simp

theorem exec_encoderInv (he : EncoderInv s) (h : exec i s = .next t) (hi : i ≠ .reset) : EncoderInv t := by
  have hf := exec_frame h
  cases i with
  | reset => exact absurd rfl hi
  | enchdr w h' => exact execEnchdr_encoderInv he h
  | encpix px => exact execEncpix_encoderInv he h
  | encend => exact execEncend_encoderInv he h
  | _ => exact he.congr (hf.encoder rfl) (hf.size (by simp) hi) (exec_outside_enc h rfl)

/-! ### The decode session (R30, R31) -/

theorem be32bytes_be32 (b0 b1 b2 b3 : Byte) : be32bytes (be32 b0 b1 b2 b3) = [b0, b1, b2, b3] := by
  have h0 := b0.isLt
  have h1 := b1.isLt
  have h2 := b2.isLt
  have h3 := b3.isLt
  have hb := be32bytes_toNat (be32 b0 b1 b2 b3)
  rw [be32, append_toNat] at hb
  refine List.map_injective_iff.2 (fun _ _ => BitVec.eq_of_toNat_eq) (hb.trans ?_)
  simp only [List.map_cons, List.map_nil, List.cons.injEq, and_true]
  omega

/-- Where one bit leads, and what it takes off the pixels left (R141). -/
theorem walkBit_done {r : Nat} {bit : Bit} {w w' : Walk} (h : walkBit s r bit w = .done w') :
    w'.cur < s.node.length ∧ ((w'.idx = w.idx ∧ w'.rem = w.rem) ∨
      (w'.idx = exact64 (w.idx.toNat + 1) ∧ w'.rem = w.rem - 1)) := by
  unfold walkBit at h
  rcases ha : advance s.node r w.cur bit with k | c1 | k <;> simp only [ha, reduceCtorEq] at h
  rcases hk : s.node[k]? with _ | n <;> simp only [hk, reduceCtorEq] at h
  have hlt := (List.getElem?_eq_some_iff.1 hk).1
  split at h
  · cases h; exact ⟨hlt, .inr ⟨rfl, rfl⟩⟩
  · cases h; exact ⟨hlt, .inl ⟨rfl, rfl⟩⟩

theorem walkBit_missing {r c1 : Nat} {bit : Bit} {w w' : Walk} (h : walkBit s r bit w = .missing w' c1) : w' = w := by
  unfold walkBit at h
  rcases ha : advance s.node r w.cur bit with k | c1 | k <;> simp only [ha, reduceCtorEq, WalkEnd.missing.injEq] at h
  · rcases hk : s.node[k]? with _ | n <;> simp only [hk, reduceCtorEq] at h
    split at h <;> simp at h
  · exact h.1.symm

/-- A walk keeps what each bit fed keeps; at a missing child it ends as it stands. -/
theorem walkBits_keeps {P : Walk → Prop} {r : Nat}
    (hstep : ∀ bit w w', P w → w.rem ≠ 0 → walkBit s r bit w = .done w' → P w') {bits : Bits} {w w' : Walk} (hw : P w)
    (h : walkBits s r bits w = .done w' ∨ ∃ c1, walkBits s r bits w = .missing w' c1) : P w' := by
  induction bits generalizing w with
  | nil =>
    simp only [walkBits, WalkEnd.done.injEq, reduceCtorEq, exists_false, or_false] at h
    exact h ▸ hw
  | cons bit bits ih =>
    rw [walkBits] at h
    by_cases h0 : w.rem = 0
    · simp only [if_pos h0, WalkEnd.done.injEq, reduceCtorEq, exists_false, or_false] at h
      exact h ▸ hw
    simp only [if_neg h0] at h
    rcases hb : walkBit s r bit w with w1 | ⟨w1, c1⟩ | k <;> simp only [hb] at h
    · exact ih (hstep bit w w1 hw h0 hb) h
    · obtain rfl := walkBit_missing hb
      simp only [reduceCtorEq, WalkEnd.missing.injEq, false_or] at h
      obtain ⟨-, rfl, -⟩ := h
      exact hw
    · simp at h

/-- A walk leaves the cursor in the table. -/
theorem walkBits_cur_lt {r : Nat} {bits : Bits} {w w' : Walk} (hw : w.cur < s.node.length)
    (h : walkBits s r bits w = .done w' ∨ ∃ c1, walkBits s r bits w = .missing w' c1) : w'.cur < s.node.length :=
  walkBits_keeps (P := fun w => w.cur < s.node.length) (fun _ _ _ _ _ h => (walkBit_done h).1) hw h

/-- The pixels written and those left add up to the same (R141). -/
theorem walkBits_total {r : Nat} {bits : Bits} {w w' : Walk} (hlt : w.idx.toNat + w.rem.toNat < 2 ^ 64)
    (h : walkBits s r bits w = .done w' ∨ ∃ c1, walkBits s r bits w = .missing w' c1) :
    w'.idx.toNat + w'.rem.toNat = w.idx.toNat + w.rem.toNat := by
  refine walkBits_keeps (P := fun v => v.idx.toNat + v.rem.toNat = w.idx.toNat + w.rem.toNat)
    (fun bit v v' hv h0 hb => ?_) rfl h
  obtain ⟨-, ⟨hi, hr⟩ | ⟨hi, hr⟩⟩ := walkBit_done hb
  · rw [hi, hr, hv]
  · have hpos : v.rem.toNat ≠ 0 := fun h => h0 (BitVec.eq_of_toNat_eq h)
    rw [hi, hr, sub_one_toNat h0, exact64_toNat (by omega)]
    omega

/-- The registers of a session whose header is complete. -/
theorem decoderInv_of_parsed (hb : s.dHb = 8) (hh : s.dHdr = headerBytes s.dW s.dH)
    (ht : s.dIdx.toNat + s.dRem.toNat = s.dW.toNat * s.dH.toNat) (hp : s.phase.beforeSessions = false) :
    DecoderInv s where
  received := by simp [hh, hb]
  bound := by simp [hb]
  unparsed := by simp [hb]
  parsed := fun _ => ⟨hh, ht⟩
  early := by simp [hp]

theorem startPixels_decoderInv {r : Nat} {w h : U32} (hs : startPixels r w h s = .next t) (hb : s.dHb = 8)
    (hh : s.dHdr = headerBytes w h) (hp : s.phase.beforeSessions = false) : DecoderInv t := by
  have htotal := pixelCount_toNat w h
  obtain ⟨n, -, ⟨-, rfl⟩ | ⟨-, rfl⟩⟩ := startPixels_cases hs
  · exact decoderInv_of_parsed hb hh htotal hp
  · exact decoderInv_of_parsed hb hh ((Nat.zero_add _).trans htotal) hp

theorem headerByte_decoderInv {r : Nat} {b : Byte} (hd : DecoderInv s) (h8 : s.dHb.toNat < 8)
    (hp : s.phase.beforeSessions = false) (h : headerByte r b s = .next t) : DecoderInv t := by
  have hsucc : (s.dHb + 1).toNat = s.dHb.toNat + 1 := by
    rw [BitVec.toNat_add]
    exact Nat.mod_eq_of_lt (by show s.dHb.toNat + 1 < 16; omega)
  obtain ⟨hne, rfl⟩ | ⟨heq, b0, b1, b2, b3, b4, b5, b6, b7, hhdr, h⟩ := headerByte_cases h
  · have hlt : (s.dHb + 1).toNat ≠ 8 := fun h => hne (BitVec.eq_of_toNat_eq h)
    exact
      { received := by simpa [hd.received] using hsucc.symm
        bound := hsucc.trans_le h8
        unparsed := fun _ => hd.unparsed h8
        parsed := fun h => absurd h hlt
        early := fun h => absurd (hp.symm.trans h) (by simp) }
  · refine startPixels_decoderInv h heq ?_ hp
    rw [headerBytes, be32bytes_be32, be32bytes_be32]
    exact hhdr

theorem bodyByte_decoderInv {r : Nat} {b : Byte} (hd : DecoderInv s) (h8 : ¬ s.dHb.toNat < 8)
    (hp : s.phase.beforeSessions = false) (h : bodyByte r b s = .next t) : DecoderInv t := by
  have hb : s.dHb.toNat = 8 := le_antisymm hd.bound (not_lt.1 h8)
  obtain ⟨hhdr, htotal⟩ := hd.parsed hb
  have hlt : s.dIdx.toNat + s.dRem.toNat < 2 ^ 64 := by
    rw [htotal, ← pixelCount_toNat]
    exact (pixelCount s.dW s.dH).isLt
  have hb8 : s.dHb = 8 := BitVec.eq_of_toNat_eq hb
  obtain ⟨-, rfl⟩ | ⟨-, c, -, ⟨w, hw, rfl⟩ | ⟨w, c1, hw, rfl⟩⟩ := bodyByte_cases h
  · exact decoderInv_of_parsed hb8 hhdr htotal hp
  · exact decoderInv_of_parsed hb8 hhdr ((walkBits_total hlt (.inl hw)).trans htotal) hp
  · exact decoderInv_of_parsed hb8 hhdr ((walkBits_total hlt (.inr ⟨c1, hw⟩)).trans htotal) rfl

theorem execDecbyte_decoderInv {b : Byte} (hd : DecoderInv s) (h : execDecbyte b s = .next t) : DecoderInv t := by
  obtain ⟨-, rfl⟩ | ⟨hp, r, -, ⟨h8, h⟩ | ⟨h8, h⟩⟩ := execDecbyte_cases h
  · exact hd.congr ⟨rfl, rfl, rfl, rfl, rfl, rfl⟩ id
  · exact headerByte_decoderInv hd h8 (by rw [hp]; rfl) h
  · exact bodyByte_decoderInv hd h8 (by rw [hp]; rfl) h

theorem execDecbegin_decoderInv (hd : DecoderInv s) (h : execDecbegin s = .next t) : DecoderInv t := by
  obtain ⟨-, rfl⟩ | ⟨-, rfl⟩ := execDecbegin_cases h
  · exact hd.congr ⟨rfl, rfl, rfl, rfl, rfl, rfl⟩ id
  · exact ⟨rfl, Nat.zero_le _, fun _ => ⟨rfl, rfl, rfl, rfl⟩, (nomatch ·), fun _ => rfl⟩

/-- No operation but RESET leads back to the phases before a session. -/
theorem exec_beforeSessions (h : exec i s = .next t) (hi : i ≠ .reset) (ht : t.phase.beforeSessions = true) :
    s.phase.beforeSessions = true := by
  obtain hp | hp | ⟨hs, hp⟩ := exec_phase h <;> rw [hp] at ht
  · exact ht
  · cases ht
  · rw [hasStep_iff] at hs
    cases i with
    | reset => exact absurd rfl hi
    | status => exact ht
    | scan _ | prio | merge | mkroot | gencode => rw [hs _ rfl]; rfl
    | _ => rw [hs _ rfl] at ht; cases ht

theorem exec_decoderInv (hd : DecoderInv s) (h : exec i s = .next t) (hi : i ≠ .reset) : DecoderInv t := by
  have hf := exec_frame h
  cases i with
  | reset => exact absurd rfl hi
  | decbegin => exact execDecbegin_decoderInv hd h
  | decbyte b => exact execDecbyte_decoderInv hd h
  | _ => exact hd.congr (hf.decoder rfl) (exec_beforeSessions h hi)

end Sys2Proof.Machine

/-! ## The tables under a step (R33 to R37, R101, R110) -/

namespace Sys2Proof.Machine

open Sys2Proof.Machine.Claims

variable {s t : State} {i : Instr}

/-! ### Records and trees of a table that grows -/

theorem freqAt_of_getElem? {nodes : List NodeRec} {k : Nat} {n : NodeRec} (h : nodes[k]? = some n) :
    freqAt nodes k = n.frequency.toNat := by
  simp [freqAt, h]

theorem leavesUnder_cons {nodes : List NodeRec} {k : Nat} {tr : Tree} (h : tableTree nodes k = some tr)
    (ks : List Nat) : leavesUnder nodes (k :: ks) = tr.leaves ++ leavesUnder nodes ks := by
  simp [leavesUnder, h]

/-- More records change no leaf of a tree. -/
theorem leavesUnder_append {nodes : List NodeRec} (more : List NodeRec) {ks : List Nat}
    (h : ∀ k ∈ ks, (tableTree nodes k).isSome = true) : leavesUnder (nodes ++ more) ks = leavesUnder nodes ks := by
  induction ks with
  | nil => rfl
  | cons k ks ih =>
    obtain ⟨hk, hks⟩ := List.forall_mem_cons.1 h
    obtain ⟨tr, ht⟩ := Option.isSome_iff_exists.1 hk
    rw [leavesUnder_cons (tableTree_append more ht), leavesUnder_cons ht, ih hks]

theorem internalOk_iff {nodes : List NodeRec} {k : Nat} {n : NodeRec} :
    internalOk nodes k n = true ↔ ∃ l r, n.left = some l ∧ n.right = some r ∧ l < k ∧ r < k ∧ n.symbol = 0 ∧
      n.frequency.toNat = freqAt nodes l + freqAt nodes r := by
  unfold internalOk
  rcases n.left with _ | l <;> rcases n.right with _ | r <;> simp [and_assoc]

theorem internalOk_append {nodes : List NodeRec} (more : List NodeRec) {k : Nat} {n : NodeRec}
    (hk : k < nodes.length) (h : internalOk nodes k n = true) : internalOk (nodes ++ more) k n = true := by
  obtain ⟨l, r, hl, hr, hlk, hrk, hsym, hfreq⟩ := internalOk_iff.1 h
  refine internalOk_iff.2 ⟨l, r, hl, hr, hlk, hrk, hsym, ?_⟩
  rw [freqAt_append (hlk.trans hk), freqAt_append (hrk.trans hk), hfreq]

theorem treeOf_of_children {nodes : List NodeRec} {fuel k l r : Nat} {n : NodeRec} {tl tr : Tree}
    (hk : nodes[k]? = some n) (hl : n.left = some l) (hr : n.right = some r) (htl : treeOf nodes fuel l = some tl)
    (htr : treeOf nodes fuel r = some tr) : treeOf nodes (fuel + 1) k = some (.node n.frequency tl tr) := by
  simp [treeOf, hk, hl, hr, htl, htr]

/-! ### The leaves that PRIO creates -/

theorem tableTree_leaf {nodes : List NodeRec} {k : Nat} {n : NodeRec} (hk : nodes[k]? = some n)
    (hl : leafRecord n) : tableTree nodes k = some (.leaf n.symbol n.frequency) := by
  obtain ⟨g, hg⟩ : ∃ g, nodes.length = g + 1 :=
    Nat.exists_eq_succ_of_ne_zero (Nat.ne_zero_of_lt (List.getElem?_eq_some_iff.1 hk).1)
  rw [tableTree, hg]
  simp [treeOf, hk, hl.1, hl.2]

theorem map_range_length {α β : Type} {l : List α} {f : Nat → β} {g : α → β}
    (h : ∀ k (hk : k < l.length), f k = g l[k]) : (List.range l.length).map f = l.map g :=
  List.ext_getElem (by simp) fun k _ hk => by simp [h k (by simpa using hk)]

theorem getElem?_leaves {d : List DistEntry} {k : Nat} (hk : k < d.length) :
    (d.map leafOf)[k]? = some (leafOf d[k]) := by
  simp [hk]

theorem leavesUnder_eq_flatMap (nodes : List NodeRec) (ks : List Nat) :
    leavesUnder nodes ks = ks.flatMap fun k => leavesUnder nodes [k] := by
  simp [leavesUnder]

theorem leavesUnder_leaves (d : List DistEntry) :
    leavesUnder (d.map leafOf) (List.range d.length) = d.map fun e => (e.symbol, e.count) := by
  have hk : ∀ k (hk : k < d.length), leavesUnder (d.map leafOf) [k] = [(d[k].symbol, d[k].count)] := fun k hk =>
    leavesUnder_cons (tableTree_leaf (getElem?_leaves hk) ⟨rfl, rfl⟩) []
  rw [leavesUnder_eq_flatMap, List.flatMap_def, map_range_length (g := fun e => [(e.symbol, e.count)]) hk]
  exact List.map_eq_flatMap.symm

theorem Forest.perm {roots roots' : List Nat} (h : Forest s roots) (hp : roots'.Perm roots) : Forest s roots' where
  scanned := h.scanned
  count := hp.length_eq ▸ h.count
  leaves := h.leaves
  internal := h.internal
  owned := (hp.append_right _).trans h.owned
  trees := fun k hk => h.trees k (hp.mem_iff.1 hk)
  symbols := (hp.flatMap fun _ _ => .refl _).trans h.symbols
  total := (hp.map _).sum_eq.trans h.total

/-- The forest of single leaves, one for each entry of DIST (R101). -/
theorem forest_leaves (hd : s.dist ≠ []) (hn : s.node = s.dist.map leafOf)
    (hc : (s.dist.map fun e => e.count.toNat).sum = s.npix.toNat) : Forest s (List.range s.dist.length) where
  scanned := hd
  count := by rw [hn, List.length_range, List.length_map]; omega
  leaves := by rw [hn, ← List.length_map leafOf, List.take_length]
  internal := fun k hk hk' => by
    rw [hn, List.length_map, List.mem_range] at hk
    omega
  owned := by
    have : childrenOf (s.dist.map leafOf) = [] := by simp [childrenOf, leafOf]
    rw [hn, this, List.append_nil, List.length_map]
  trees := fun k hk => by
    rw [hn, tableTree_leaf (getElem?_leaves (List.mem_range.1 hk)) ⟨rfl, rfl⟩]
    rfl
  symbols := by rw [hn, leavesUnder_leaves]
  total := by
    rw [hn, ← hc, map_range_length (g := fun e => e.count.toNat) fun k hk => freqAt_of_getElem? (getElem?_leaves hk)]

/-! ### The node that MERGE creates -/

/-- The tree of a merged node has the two merged trees below it. -/
theorem tableTree_merged {nodes : List NodeRec} {a b : Nat} {na nb : NodeRec} {ta tb : Tree}
    (ha : tableTree nodes a = some ta) (hb : tableTree nodes b = some tb) :
    tableTree (nodes ++ [mergedRec a b na nb]) nodes.length =
      some (.node (mergedRec a b na nb).frequency ta tb) := by
  rw [tableTree, List.length_append, List.length_singleton]
  exact treeOf_of_children (by simp) rfl rfl (treeOf_mono _ ha le_rfl) (treeOf_mono _ hb le_rfl)

theorem childrenOf_merged (nodes : List NodeRec) (a b : Nat) (na nb : NodeRec) :
    childrenOf (nodes ++ [mergedRec a b na nb]) = childrenOf nodes ++ [a, b] := by
  simp [childrenOf, mergedRec]

section Merged

variable {a b : Nat} {rest : List Nat} {na nb : NodeRec} (h : Forest s (a :: b :: rest)) (ha : s.node[a]? = some na)
  (hb : s.node[b]? = some nb)
include h ha hb

/-- The sum of the two frequencies fits, because the frequencies of all roots add up to NPIX (R16). -/
theorem Forest.merged_frequency :
    (mergedRec a b na nb).frequency.toNat = freqAt s.node a + freqAt s.node b := by
  have htotal := h.total
  rw [List.map_cons, List.map_cons, List.sum_cons, List.sum_cons] at htotal
  have := s.npix.isLt
  rw [freqAt_of_getElem? ha, freqAt_of_getElem? hb] at *
  exact exact64_toNat (by omega)

/-- One pass of the merge loop: two roots less, and the merged node a root (R110). -/
theorem Forest.merged :
    Forest { s with node := s.node ++ [mergedRec a b na nb] } (s.node.length :: rest) where
  scanned := h.scanned
  count := by
    have := h.count
    simp only [List.length_cons, List.length_append, List.length_nil] at *
    omega
  leaves := (List.take_append_of_le_length h.dist_le_node).trans h.leaves
  internal := fun k hk hd n hn => by
    have hlt := (List.getElem?_eq_some_iff.1 ha).1
    have hlt' := (List.getElem?_eq_some_iff.1 hb).1
    rcases Nat.lt_or_ge k s.node.length with hks | hks
    · rw [List.getElem?_append_left hks] at hn
      exact internalOk_append _ hks (h.internal k (List.mem_range.2 hks) hd n hn)
    · obtain rfl : k = s.node.length := by
        have := List.mem_range.1 hk
        rw [List.length_append, List.length_singleton] at this
        omega
      obtain rfl : mergedRec a b na nb = n := by simpa using hn
      refine internalOk_iff.2 ⟨a, b, rfl, rfl, hlt, hlt', rfl, ?_⟩
      rw [freqAt_append hlt, freqAt_append hlt']
      exact h.merged_frequency ha hb
  owned := by
    have howned := List.perm_iff_count.1 h.owned
    refine List.perm_iff_count.2 fun k => ?_
    have := howned k
    simp only [childrenOf_merged, List.length_append, List.length_singleton, List.range_succ, List.count_append,
      List.count_cons, List.count_nil] at this ⊢
    omega
  trees := fun k hk => by
    obtain ⟨ta, hta⟩ := Option.isSome_iff_exists.1 (h.trees a (by simp))
    obtain ⟨tb, htb⟩ := Option.isSome_iff_exists.1 (h.trees b (by simp))
    rcases List.mem_cons.1 hk with rfl | hk
    · rw [tableTree_merged hta htb]; rfl
    · obtain ⟨tk, htk⟩ := Option.isSome_iff_exists.1 (h.trees k (by simp [hk]))
      rw [tableTree_append _ htk]; rfl
  symbols := by
    obtain ⟨ta, hta⟩ := Option.isSome_iff_exists.1 (h.trees a (by simp))
    obtain ⟨tb, htb⟩ := Option.isSome_iff_exists.1 (h.trees b (by simp))
    have hsym := h.symbols
    rw [leavesUnder_cons hta, leavesUnder_cons htb, ← List.append_assoc] at hsym
    rw [leavesUnder_cons (tableTree_merged hta htb),
      leavesUnder_append _ fun k hk => h.trees k (by simp [hk])]
    exact hsym
  total := by
    have hrest : rest.map (freqAt (s.node ++ [mergedRec a b na nb])) = rest.map (freqAt s.node) :=
      List.map_congr_left fun k hk => freqAt_append (h.root_lt (by simp [hk]))
    have hm : freqAt (s.node ++ [mergedRec a b na nb]) s.node.length = freqAt s.node a + freqAt s.node b :=
      (freqAt_of_getElem? (by simp)).trans (h.merged_frequency ha hb)
    rw [List.map_cons, List.sum_cons, hrest, hm, Nat.add_assoc]
    exact h.total

end Merged

end Sys2Proof.Machine

/-! ## Every step keeps the invariant (R36, R37) -/

namespace Sys2Proof.Machine

open Sys2Proof.Machine.Claims

variable {s t : State} {i : Instr}

/-! ### The tables by phase -/

theorem Unbuilt.tablesInv (h : Unbuilt s) (hp : s.phase = .scan ∨ s.phase = .fault) : TablesInv s := by
  rcases hp with hp | hp <;> rw [TablesInv, hp]
  · exact h
  · exact .inl h

theorem Merging.tablesInv (h : Merging s) (hp : s.phase = .queue) : TablesInv s := by
  rw [TablesInv, hp]
  exact h

theorem Rooted.tablesInv {r : Nat} (h : Rooted s r) (hp : s.phase = .tree) : TablesInv s := by
  rw [TablesInv, hp]
  exact ⟨r, h⟩

theorem Built.tablesInv {r c : Nat} {tr : Tree} (h : Built s r c tr) (hp : treeInUse s.phase ∨ s.phase = .fault) :
    TablesInv s := by
  rcases hp with (hp | hp | hp) | hp <;> rw [TablesInv, hp]
  · exact ⟨r, c, tr, h⟩
  · exact ⟨r, c, tr, h⟩
  · exact ⟨r, c, tr, h⟩
  · exact .inr ⟨r, c, tr, h⟩

theorem Unbuilt.withPort (h : Unbuilt s) (p : Port) : Unbuilt { s with port := p } :=
  ⟨h.node, h.pq, h.code, h.root, h.cur⟩

theorem Merging.withPort (h : Merging s) (p : Port) : Merging { s with port := p } :=
  ⟨h.root, h.cur, h.code, h.sorted, h.nonempty, h.forest.congr rfl rfl rfl⟩

theorem Rooted.withPort {r : Nat} (h : Rooted s r) (p : Port) : Rooted { s with port := p } r :=
  ⟨h.root, h.cur, h.pq, h.code, h.forest.congr rfl rfl rfl⟩

theorem Built.withPort {r c : Nat} {tr : Tree} (h : Built s r c tr) (p : Port) :
    Built { s with port := p } r c tr :=
  ⟨h.root, h.cur, h.inTable, h.pq, h.forest.congr rfl rfl rfl, h.tree, h.code, h.oneColour⟩

theorem Inv.tables_withPort (h : Inv s) (p : Port) : TablesInv { s with port := p } := by
  obtain ⟨q, hp⟩ : ∃ q, s.phase = q := ⟨_, rfl⟩
  cases q with
  | scan => exact ((h.unbuilt hp).withPort p).tablesInv (.inl hp)
  | queue => exact ((h.merging hp).withPort p).tablesInv hp
  | tree =>
    obtain ⟨r, hr⟩ := h.rooted hp
    exact (hr.withPort p).tablesInv hp
  | ready | enc | dec =>
    obtain ⟨r, c, tr, hb⟩ := h.built (by simp [hp])
    exact (hb.withPort p).tablesInv (.inl (by simp [treeInUse, hp]))
  | fault =>
    obtain hu | ⟨r, c, tr, hb⟩ := h.unbuilt_or_built hp
    · exact (hu.withPort p).tablesInv (.inr hp)
    · exact (hb.withPort p).tablesInv (.inr hp)

/-- Nothing of the invariant is about the port (R39). -/
theorem Inv.withPort (h : Inv s) (p : Port) : Inv { s with port := p } where
  config := h.config
  errFault := h.errFault
  info := h.info
  distForm := h.distForm
  capacity := h.capacity
  counted := h.counted
  encoder := h.encoder.congr ⟨rfl, rfl⟩ ⟨rfl, rfl⟩ fun h1 h2 => ⟨h1, h2⟩
  decoder := h.decoder.congr ⟨rfl, rfl, rfl, rfl, rfl, rfl⟩ id
  tables := h.tables_withPort p

theorem Inv.tables_respond (h : Inv s) (r : Response) : TablesInv (respond r s) := h.tables_withPort _

/-! ### The build (R100, R101, R110, R111, R120) -/

theorem execScan_tablesInv {px : U32} (hI : Inv s) (h : execScan px s = .next t) : TablesInv t := by
  obtain ⟨-, rfl⟩ | ⟨hp, ⟨-, rfl⟩ | ⟨-, -, -, rfl⟩ | ⟨-, d, -, rfl⟩⟩ := execScan_cases h
  · exact hI.tables_respond _
  · exact hI.tables_respond _
  · exact hI.tables_respond _
  · obtain ⟨hnode, hpq, hcode, hroot, hcur⟩ := hI.unbuilt hp
    exact Unbuilt.tablesInv ⟨hnode, hpq, hcode, hroot, hcur⟩ (.inl hp)

theorem execPrio_tablesInv (hI : Inv s) (h : execPrio s = .next t) : TablesInv t := by
  obtain ⟨-, rfl⟩ | ⟨hp, ⟨-, rfl⟩ | ⟨hd, nodes, pq, rfl, rfl, rfl⟩⟩ := execPrio_cases h
  · exact hI.tables_respond _
  · obtain ⟨hnode, hpq, hcode, hroot, hcur⟩ := hI.unbuilt hp
    exact Unbuilt.tablesInv ⟨hnode, hpq, hcode, hroot, hcur⟩ (.inr rfl)
  · obtain ⟨hnode, -, hcode, hroot, hcur⟩ := hI.unbuilt hp
    have hperm := sortByKey_perm (s.node ++ s.dist.map leafOf) (List.range s.dist.length)
    have hforest := forest_leaves (s := { s with node := s.node ++ s.dist.map leafOf }) hd (by simp [hnode]) hI.counted
    exact Merging.tablesInv
      { root := hroot
        cur := hcur
        code := hcode
        sorted := sortByKey_wf _ List.nodup_range
        nonempty := List.ne_nil_of_length_pos
          ((List.length_pos_iff.2 hd).trans_eq (hperm.length_eq.trans List.length_range).symm)
        forest := (hforest.perm hperm).congr rfl rfl rfl } rfl

theorem execMerge_tablesInv (hI : Inv s) (h : execMerge s = .next t) : TablesInv t := by
  obtain ⟨-, rfl⟩ | ⟨hp, ⟨-, rfl⟩ | ⟨a, b, rest, na, nb, hq, ha, hb, hrest, rfl⟩⟩ := execMerge_cases h
  · exact hI.tables_respond _
  · exact hI.tables_respond _
  · obtain ⟨hroot, hcur, hcode, hsorted, -, hforest⟩ := hI.merging hp
    rw [hq] at hsorted hforest
    have hperm := pqInsert_perm s.node (mergedRec a b na nb).frequency.toNat s.node.length rest
    exact Merging.tablesInv
      { root := hroot
        cur := hcur
        code := hcode
        sorted := pqInsert_wf hrest hsorted.of_cons.of_cons
        nonempty := List.ne_nil_of_length_pos ((Nat.succ_pos _).trans_eq hperm.length_eq.symm)
        forest := ((hforest.merged ha hb).perm hperm).congr rfl rfl rfl } hp

theorem execMkroot_tablesInv (hI : Inv s) (h : execMkroot s = .next t) : TablesInv t := by
  obtain ⟨-, rfl⟩ | ⟨hp, ⟨-, rfl⟩ | ⟨k, n, hq, -, rfl⟩⟩ := execMkroot_cases h
  · exact hI.tables_respond _
  · exact hI.tables_respond _
  · obtain ⟨-, -, hcode, -, -, hforest⟩ := hI.merging hp
    rw [hq] at hforest
    exact Rooted.tablesInv (r := k) ⟨rfl, rfl, rfl, hcode, hforest.congr rfl rfl rfl⟩ rfl

theorem execGencode_tablesInv (hI : Inv s) (h : execGencode s = .next t) : TablesInv t := by
  obtain ⟨-, rfl⟩ | ⟨hp, r, tr, hr, ht, -, rfl⟩ := execGencode_cases h
  · exact hI.tables_respond _
  · obtain ⟨r', hroot, hcur, hpq, hcode, hforest⟩ := hI.rooted hp
    obtain rfl : r = r' := Option.some.inj (hr.symm.trans hroot)
    have hb : s.dHb.toNat < 8 := by rw [hI.decoder.early (by rw [hp]; rfl)]; decide
    obtain ⟨-, -, hrem, -⟩ := hI.decoder.unparsed hb
    exact Built.tablesInv (r := r) (c := r) (tr := tr)
      { root := hroot
        cur := hcur
        inTable := hforest.root_lt (List.mem_singleton_self r)
        pq := hpq
        forest := hforest.congr rfl rfl rfl
        tree := ht
        code := congrArg (codeSetAll · tr.codes) hcode
        oneColour := fun _ => hrem } (.inl (.inl rfl))

/-! ### The tree in use (R37, R62) -/

section InUse

variable {r c : Nat} {tr : Tree}

/-- The operations that have their step in a phase with the tree in use. -/
def RunsInUse (i : Instr) : Prop := ∃ p, stepPhase i = some p ∧ treeInUse p

/-- They write none of the tables. -/
theorem Frame.inUse (hf : Frame i s t) (hi : RunsInUse i) :
    t.node = s.node ∧ t.root = s.root ∧ t.pq = s.pq ∧ t.code = s.code ∧ t.dist = s.dist ∧ t.npix = s.npix := by
  cases i with
  | reset | status | scan _ | prio | merge | mkroot | gencode => simp [RunsInUse, stepPhase, treeInUse] at hi
  | _ => exact ⟨hf.node rfl, hf.root rfl, hf.pq rfl, hf.code rfl, hf.dist rfl, hf.npix rfl⟩

/-- They lead to one of these phases again or to FAULT. -/
theorem exec_treeInUse (h : exec i s = .next t) (hi : RunsInUse i) (hp : treeInUse s.phase) :
    treeInUse t.phase ∨ t.phase = .fault := by
  obtain ht | ht | ⟨-, ht⟩ := exec_phase h
  · exact .inl (ht ▸ hp)
  · exact .inr ht
  · refine .inl ?_
    rw [ht]
    cases i with
    | reset | status | scan _ | prio | merge | mkroot | gencode => simp [RunsInUse, stepPhase, treeInUse] at hi
    | lookup _ | currst | step _ | decbyte _ | encpix _ => exact hp
    | decbegin | decend | enchdr _ _ | encend => simp [phaseAfter, treeInUse]

/-- A finished build of one node is a leaf. -/
theorem Forest.isLeaf_of_one (h : Forest s [r]) (h1 : s.node.length = 1) {n : NodeRec} (hn : s.node[r]? = some n) :
    n.isLeaf = true := by
  have hcount := h.count
  have hlen : s.dist.length = s.node.length := by rw [List.length_singleton] at hcount; omega
  have hleaves := h.leaves
  rw [hlen, List.take_length] at hleaves
  have hmem := List.mem_of_getElem? hn
  rw [hleaves] at hmem
  obtain ⟨e, -, rfl⟩ := List.mem_map.1 hmem
  rfl

/-- What the operations of these phases keep about the cursor and about a tree of one leaf. -/
def CursorInv (s t : State) : Prop :=
  (∃ c, t.cur = some c ∧ c < s.node.length) ∧ (s.node.length = 1 → t.dRem = 0)

theorem Built.cursorInv (hb : Built s r c tr) (hc : t.cur = s.cur ∨ t.cur = s.root)
    (hr : s.node.length = 1 → t.dRem = 0) : CursorInv s t := by
  refine ⟨?_, hr⟩
  obtain hc | hc := hc
  · exact ⟨c, hc.trans hb.cur, hb.inTable⟩
  · exact ⟨r, hc.trans hb.root, hb.root_lt⟩

theorem execCurrst_cursorInv (hb : Built s r c tr) (h : execCurrst s = .next t) : CursorInv s t := by
  obtain ⟨-, rfl⟩ | ⟨-, rfl⟩ := execCurrst_cases h
  · exact hb.cursorInv (.inl rfl) hb.oneColour
  · exact hb.cursorInv (.inr rfl) hb.oneColour

theorem execStep_cursorInv {bit : Bit} (hb : Built s r c tr) (h : execStep bit s = .next t) : CursorInv s t := by
  obtain ⟨-, rfl⟩ | ⟨-, c', r', -, -, ⟨k, n, -, hk, rfl⟩ | ⟨c1, -, rfl⟩⟩ := execStep_cases h
  · exact hb.cursorInv (.inl rfl) hb.oneColour
  · exact ⟨⟨k, rfl, (List.getElem?_eq_some_iff.1 hk).1⟩, hb.oneColour⟩
  · exact hb.cursorInv (.inr rfl) hb.oneColour

theorem execDecbegin_cursorInv (hb : Built s r c tr) (h : execDecbegin s = .next t) : CursorInv s t := by
  obtain ⟨-, rfl⟩ | ⟨-, rfl⟩ := execDecbegin_cases h
  · exact hb.cursorInv (.inl rfl) hb.oneColour
  · exact hb.cursorInv (.inr rfl) fun _ => rfl

/-- With a leaf as root the completed header leaves no pixel to decode (R141). -/
theorem headerByte_cursorInv {b : Byte} (hb : Built s r c tr) (h : headerByte r b s = .next t) : CursorInv s t := by
  obtain ⟨-, rfl⟩ | ⟨-, b0, b1, b2, b3, b4, b5, b6, b7, -, h⟩ := headerByte_cases h
  · exact hb.cursorInv (.inl rfl) hb.oneColour
  · obtain ⟨n, hn, ⟨-, rfl⟩ | ⟨hl, rfl⟩⟩ := startPixels_cases h
    · exact hb.cursorInv (.inl rfl) fun _ => rfl
    · refine hb.cursorInv (.inl rfl) fun h1 => ?_
      rw [hb.forest.isLeaf_of_one h1 hn] at hl
      cases hl

theorem bodyByte_cursorInv {b : Byte} (hb : Built s r c tr) (h : bodyByte r b s = .next t) : CursorInv s t := by
  obtain ⟨-, rfl⟩ | ⟨h0, c', hc, ⟨w, hw, rfl⟩ | ⟨w, c1, -, rfl⟩⟩ := bodyByte_cases h
  · exact hb.cursorInv (.inl rfl) hb.oneColour
  · obtain rfl : c' = c := Option.some.inj (hc.symm.trans hb.cur)
    exact ⟨⟨w.cur, rfl, walkBits_cur_lt hb.inTable (.inl hw)⟩, fun h1 => absurd (hb.oneColour h1) h0⟩
  · exact hb.cursorInv (.inr rfl) fun h1 => absurd (hb.oneColour h1) h0

theorem execDecbyte_cursorInv {b : Byte} (hb : Built s r c tr) (h : execDecbyte b s = .next t) : CursorInv s t := by
  obtain ⟨-, rfl⟩ | ⟨-, r', hr, ⟨-, h⟩ | ⟨-, h⟩⟩ := execDecbyte_cases h
  · exact hb.cursorInv (.inl rfl) hb.oneColour
  all_goals obtain rfl : r' = r := Option.some.inj (hr.symm.trans hb.root)
  · exact headerByte_cursorInv hb h
  · exact bodyByte_cursorInv hb h

theorem exec_cursorInv (hb : Built s r c tr) (h : exec i s = .next t) (hi : RunsInUse i) : CursorInv s t := by
  have hf := exec_frame h
  cases i with
  | reset | status | scan _ | prio | merge | mkroot | gencode => simp [RunsInUse, stepPhase, treeInUse] at hi
  | currst => exact execCurrst_cursorInv hb h
  | step bit => exact execStep_cursorInv hb h
  | decbegin => exact execDecbegin_cursorInv hb h
  | decbyte b => exact execDecbyte_cursorInv hb h
  | lookup _ | decend | enchdr _ _ | encpix _ | encend =>
    obtain ⟨-, -, -, -, hrem, -⟩ := hf.decoder rfl
    exact hb.cursorInv (.inl (hf.cur rfl)) fun h1 => hrem.trans (hb.oneColour h1)

/-- With the tree in use every operation keeps it built. -/
theorem exec_built (hb : Built s r c tr) (h : exec i s = .next t) (hi : RunsInUse i) :
    ∃ c', Built t r c' tr := by
  obtain ⟨hnode, hroot, hpq, hcode, hdist, hnpix⟩ := (exec_frame h).inUse hi
  obtain ⟨⟨c', hc, hlt⟩, hrem⟩ := exec_cursorInv hb h hi
  exact ⟨c',
    { root := hroot.trans hb.root
      cur := hc
      inTable := hnode ▸ hlt
      pq := hpq.trans hb.pq
      forest := hb.forest.congr hdist hnode hnpix
      tree := hnode ▸ hb.tree
      code := hcode.trans hb.code
      oneColour := hnode ▸ hrem }⟩

end InUse

theorem exec_tablesInv_inUse (hI : Inv s) (h : exec i s = .next t) (hi : RunsInUse i) : TablesInv t := by
  by_cases hs : hasStep s.phase i = true
  · have hp : treeInUse s.phase := by
      obtain ⟨p, hip, hp⟩ := hi
      rwa [hasStep_iff.1 hs p hip]
    obtain ⟨r, c, tr, hb⟩ := hI.built hp
    obtain ⟨c', hb'⟩ := exec_built hb h hi
    exact hb'.tablesInv (exec_treeInUse h hi hp)
  · rw [exec_of_hasStep_false (by simpa using hs), refuse_eq_next] at h
    rw [h]
    exact hI.tables_respond _

/-! ### The step -/

theorem exec_tablesInv (hI : Inv s) (h : exec i s = .next t) (hi : i ≠ .reset) : TablesInv t := by
  cases i with
  | reset => exact absurd rfl hi
  | status => rw [execStatus_cases h]; exact hI.tables_respond _
  | scan px => exact execScan_tablesInv hI h
  | prio => exact execPrio_tablesInv hI h
  | merge => exact execMerge_tablesInv hI h
  | mkroot => exact execMkroot_tablesInv hI h
  | gencode => exact execGencode_tablesInv hI h
  | lookup _ | currst | step _ | decbegin | enchdr _ _ => exact exec_tablesInv_inUse hI h ⟨_, rfl, .inl rfl⟩
  | encpix _ | encend => exact exec_tablesInv_inUse hI h ⟨_, rfl, .inr (.inl rfl)⟩
  | decbyte _ | decend => exact exec_tablesInv_inUse hI h ⟨_, rfl, .inr (.inr rfl)⟩

theorem exec_inv (hI : Inv s) (h : exec i s = .next t) : Inv t := by
  by_cases hi : i = .reset
  · subst hi
    rw [execReset_cases h]
    exact inv_resetState hI.config _
  obtain ⟨bs, ps, hem, -, -⟩ := exec_emits h
  obtain ⟨herr, hinfo⟩ := exec_errInv h hi hI.errFault hI.info
  obtain ⟨hform, hcap, hcount⟩ := exec_distInv hI.distInv h hi
  exact
    { config := hem.cfg ▸ hI.config
      errFault := herr
      info := hinfo
      distForm := hform
      capacity := hcap
      counted := hcount
      encoder := exec_encoderInv hI.encoder h hi
      decoder := exec_decoderInv hI.decoder h hi
      tables := exec_tablesInv hI h hi }

/-- Settles O41: the oldest word comes off the port, and its operation keeps each part of the invariant
(`exec_inv`). -/
theorem stepKeepsInvariant : Obligations.StepKeepsInvariant := by
  intro s t hI h
  unfold step at h
  split at h
  · cases h; exact hI
  · rename_i w s1 hf
    have hI1 : Inv s1 := by
      unfold fetch at hf
      split at hf
      · cases hf
      · cases hf; exact hI.withPort _
    split at h
    · exact exec_inv hI1 h
    · rw [refuse_eq_next.1 h]
      exact hI1.withPort _

end Sys2Proof.Machine

/-! ## The tables with the tree in use (R62, R196) -/

namespace Sys2Proof.Machine

open Sys2Proof.Machine.Claims

/-- The operations of every phase (R21). -/
theorem stepPhase_eq_none_iff {i : Instr} : stepPhase i = none ↔ i = .reset ∨ i = .status := by
  cases i <;> simp [stepPhase]

/-- Settles O12: an operation without a step in the phase is refused, STATUS only answers, and each of the others runs
in a phase with the tree in use, where its frame holds no table (`Frame.inUse`). -/
theorem treeImmutableInUse : Obligations.TreeImmutableInUse := by
  intro i s t hp hi h
  by_cases hs : hasStep s.phase i = true
  · cases hq : stepPhase i with
    | none =>
      obtain rfl := (stepPhase_eq_none_iff.1 hq).resolve_left hi
      rw [execStatus_cases h]
      exact ⟨rfl, rfl, rfl, rfl⟩
    | some p =>
      have hrun : RunsInUse i := ⟨p, hq, hasStep_iff.1 hs p hq ▸ hp⟩
      obtain ⟨hnode, hroot, -, hcode, hdist, -⟩ := (exec_frame h).inUse hrun
      exact ⟨hnode, hroot, hcode, hdist⟩
  · rw [exec_of_hasStep_false (by simpa using hs), refuse_eq_next] at h
    rw [h]
    exact ⟨rfl, rfl, rfl, rfl⟩

end Sys2Proof.Machine

/-! ## The command word (R80 to R85) -/

namespace Sys2Proof

open Sys2Proof.Laws

variable {w : CmdWord} {i : Instr}

/-- `arg = cmd[63:0]` (R80). -/
def argField (w : CmdWord) : U64 := w.extractLsb' 0 64

/-- The operands of an operation are those that its format reads from the word (R82). -/
def OperandsIn (w : CmdWord) : Instr → Prop
  | .scan v | .lookup v | .encpix v => argLow w = v
  | .enchdr v h => argHigh w = v ∧ argLow w = h
  | .decbyte b => argByte w = b
  | .step bit => argBit w = bit
  | .reset | .status | .prio | .merge | .mkroot | .gencode | .currst | .decbegin | .decend | .encend => True

/-! ### The fields of a word (R80, R82) -/

theorem bitVec_append_inj {m n : Nat} {a c : BitVec m} {b d : BitVec n} : a ++ b = c ++ d ↔ a = c ∧ b = d := by
  refine ⟨fun h => ⟨?_, ?_⟩, fun ⟨hac, hbd⟩ => hac ▸ hbd ▸ rfl⟩
  · simpa only [BitVec.extractLsb'_append_eq_left] using congrArg (BitVec.extractLsb' n m) h
  · simpa only [BitVec.extractLsb'_append_eq_right] using congrArg (BitVec.extractLsb' 0 n) h

theorem opField_append_argField (w : CmdWord) : opField w ++ argField w = w :=
  BitVec.extractLsb'_append_extractLsb' (w := 8) (len := 64)

theorem argHigh_append_argLow (w : CmdWord) : argHigh w ++ argLow w = argField w :=
  BitVec.extractLsb'_append_extractLsb'_eq_extractLsb' rfl

theorem setWidth_argField {n : Nat} (hn : n ≤ 64) (w : CmdWord) : (argField w).setWidth n = w.extractLsb' 0 n :=
  BitVec.setWidth_extractLsb'_of_le hn

theorem opField_toNat (w : CmdWord) : (opField w).toNat = w.toNat / 2 ^ 64 := by
  have := w.isLt
  rw [opField, BitVec.extractLsb'_toNat, Nat.shiftRight_eq_div_pow]
  omega

/-- An operand of `n` bits, as the bits of `arg` under the mask of the `n` lowest. -/
theorem argField_and_lowMask_eq_iff {n : Nat} (hn : n ≤ 64) {m : U64} (hm : m.toNat = 2 ^ n - 1) (v : BitVec n) :
    argField w &&& m = v.setWidth 64 ↔ w.extractLsb' 0 n = v := by
  have hle : 2 ^ n ≤ 2 ^ 64 := Nat.pow_le_pow_right (by decide) hn
  rw [← setWidth_argField hn, ← BitVec.toNat_inj, ← BitVec.toNat_inj, BitVec.toNat_and, hm,
    Nat.and_two_pow_sub_one_eq_mod, BitVec.toNat_setWidth, BitVec.toNat_setWidth,
    Nat.mod_eq_of_lt (a := v.toNat) (v.isLt.trans_le hle)]

theorem lowBit_eq_ofBool_iff {bit : Bit} : w.extractLsb' 0 1 = BitVec.ofBool bit ↔ argBit w = bit := by
  rw [BitVec.eq_of_getLsbD_eq_iff]
  simp [argBit]

/-- The bits of `arg` that the format uses are those of the operation's word when they hold its operands. -/
theorem argField_and_argMask_eq_iff : argField w &&& i.argMask = i.arg ↔ OperandsIn w i := by
  cases i with
  | scan v | lookup v | encpix v => exact argField_and_lowMask_eq_iff (by decide) rfl v
  | decbyte b => exact argField_and_lowMask_eq_iff (by decide) rfl b
  | step bit => exact (argField_and_lowMask_eq_iff (by decide) rfl _).trans lowBit_eq_ofBool_iff
  | enchdr v h =>
    have hmask : argField w &&& (Instr.enchdr v h).argMask = argField w := BitVec.and_allOnes
    rw [hmask, ← argHigh_append_argLow]
    exact bitVec_append_inj
  | _ => simp [OperandsIn, Instr.arg, Instr.argMask]

/-! ### The decoder (R81, R84, R85) -/

/-- Decoding finds the operation whose code stands in `op`, with the operands that its format reads. -/
theorem decode_eq_some_iff : decode w = some i ↔ opField w = i.opcode ∧ OperandsIn w i := by
  constructor
  · intro h
    unfold decode at h
    split at h <;> cases h
    all_goals exact ⟨BitVec.eq_of_toNat_eq ‹_›, by simp [OperandsIn]⟩
  · rintro ⟨hop, harg⟩
    cases i with
    | scan v | lookup v | encpix v | decbyte v | step v => cases harg; simp [decode, hop, Instr.opcode]
    | enchdr v h => obtain ⟨rfl, rfl⟩ := harg; simp [decode, hop, Instr.opcode]
    | _ => simp [decode, hop, Instr.opcode]

/-- The codes of the operation map are the sixteen below 0x10. -/
theorem decode_eq_none_iff : decode w = none ↔ 0x10 ≤ (opField w).toNat := by
  unfold decode
  split
  case h_17 =>
    refine iff_of_true rfl ?_
    by_contra! hlt
    interval_cases (opField w).toNat <;> contradiction
  all_goals simp [*]

/-! ### The encoder (R80, R82) -/

/-- What the support states of each constructor, for every operation. -/
theorem opField_statement (i : Instr) : OpField.Statement i := by
  cases i with
  | scan px => exact OpField.scan px
  | lookup sym => exact OpField.lookup sym
  | step bit => exact OpField.step bit
  | decbyte b => exact OpField.decbyte b
  | enchdr w h => exact OpField.enchdr w h
  | encpix px => exact OpField.encpix px
  | _ => exact OpField.zeroArg _ rfl rfl

theorem append_and_careMask (op : BitVec 8) (arg : U64) (i : Instr) :
    (op ++ arg) &&& careMask i = op ++ (arg &&& i.argMask) := by
  rw [careMask, BitVec.and_append, show op &&& 0xFF = op from BitVec.and_allOnes]

theorem and_careMask_eq_encode_iff : w &&& careMask i = encode i ↔ opField w = i.opcode ∧ OperandsIn w i := by
  rw [← opField_append_argField w, append_and_careMask, encode, bitVec_append_inj, argField_and_argMask_eq_iff,
    opField_append_argField]

theorem decode_iff_and_careMask : decode w = some i ↔ w &&& careMask i = encode i :=
  decode_eq_some_iff.trans and_careMask_eq_encode_iff.symm

theorem encode_and_careMask (i : Instr) : encode i &&& careMask i = encode i := by
  obtain ⟨-, -, harg⟩ := opField_statement i
  rw [encode, append_and_careMask, harg]

/-- Settles O2: both sides of the equivalence say that the code stands in `op` and the operands in the bits of `arg`
that the format uses; the word of an operation meets the right-hand side. -/
theorem decodeEncodeAgree : Obligations.DecodeEncodeAgree :=
  ⟨fun i => decode_iff_and_careMask.2 (encode_and_careMask i), fun _ _ => decode_iff_and_careMask⟩

/-- Settles O1: the eight words are decoded. -/
theorem specWordsDecode : Obligations.SpecWordsDecode := by
  unfold Obligations.SpecWordsDecode
  decide

end Sys2Proof

/-! ## Refused words and sequences of primitives (R85, R87) -/

namespace Sys2Proof.Machine

open Sys2Proof.Machine.Claims

variable {s t : State} {i : Instr}

theorem step_of_decode_none {w : CmdWord} {rest : List CmdWord} (h : s.port.cmds = w :: rest)
    (hd : decode w = none) : step s = refuse .illegalOpcode { s with port := { s.port with cmds := rest } } := by
  simp only [step, fetch_of_cons h, hd]

/-- Settles O3: a word without an operation is refused by the step, an operation out of phase by its phase test. -/
theorem illegalAndOutOfPhaseWordsRefused : Obligations.IllegalAndOutOfPhaseWordsRefused := by
  have hnone (w : CmdWord) : decode w = none ↔ 0x10 ≤ w.toNat / 2 ^ 64 := by
    rw [decode_eq_none_iff, opField_toNat]
  refine ⟨hnone, fun s w rest h hop => ?_, fun s w rest i h hd hs => ?_⟩
  · exact step_of_decode_none h ((hnone w).2 hop)
  · exact (step_of_decode h hd).trans (exec_of_hasStep_false hs)

theorem answeredOk_iff : answeredOk t = true ↔ ∃ out, t.port.resp = some (.ok out) := by
  unfold answeredOk
  split <;> simp_all

/-- A sequence goes on after its first primitive exactly when that answered `ok` (R87). -/
theorem runPrims_cons (is : List Instr) (h : exec i s = .next t) :
    runPrims (i :: is) s = if answeredOk t then runPrims is t else .next t := by
  rw [runPrims, h]

/-- Settles O45: the two branches after the first primitive. -/
theorem sequencesStopAtFirstFailure : Obligations.SequencesStopAtFirstFailure := by
  intro i is s t h
  rw [runPrims_cons is h]
  exact ⟨fun hok => if_pos (answeredOk_iff.2 hok),
    fun hno => if_neg fun hok => (answeredOk_iff.1 hok).elim hno⟩

end Sys2Proof.Machine

/-! ## The distribution (R32, R100 to R103) -/

namespace Sys2Proof.Machine

open Sys2Proof.Machine.Claims

theorem exact64_eq_ofNat {n : Nat} (h : n < 2 ^ 64) : exact64 n = BitVec.ofNat 64 n := if_pos h

/-! ### The entry of a symbol (R32, R64) -/

theorem distFind_of_forall_ne {d : List DistEntry} {sym : Symbol} (h : ∀ e ∈ d, e.symbol ≠ sym) :
    distFind d sym = none := by
  simpa [distFind, List.findIdx?_eq_none_iff] using h

section Entry

variable {before after : List DistEntry} {e : DistEntry}

theorem distFind_append_cons {sym : Symbol} (he : e.symbol = sym) (hb : ∀ e' ∈ before, e'.symbol ≠ sym) :
    distFind (before ++ e :: after) sym = some before.length := by
  have hbefore : List.findIdx? (fun e => e.symbol == sym) before = none := distFind_of_forall_ne hb
  simp [distFind, List.findIdx?_append, hbefore, List.findIdx?_cons, he]

theorem distBump_append_cons (hc : e.count.toNat < 2 ^ 64 - 1) :
    distBump (before ++ e :: after) before.length =
      before ++ { e with count := BitVec.ofNat 64 (e.count.toNat + 1) } :: after := by
  have hlt : e.count.toNat + 1 < 2 ^ 64 := by omega
  simp [distBump, List.modify_eq_take_drop, exact64_eq_ofNat hlt]

end Entry

/-! ### SCAN (R100) -/

section Scan

variable {s : State} {px : U32} (hp : s.phase = .scan)
include hp

theorem execScan_of_exhausted (hn : s.npix.toNat = 2 ^ 64 - 1) : execScan px s = refuse .countOverflow s := by
  rw [execScan, inPhase_of_eq hp, if_pos hn]

variable (hn : s.npix.toNat ≠ 2 ^ 64 - 1)
include hn

/-- A symbol that DIST does not hold takes a new entry, where there is room for one. -/
theorem execScan_of_new (hnew : ∀ e ∈ s.dist, e.symbol ≠ toStorage s.cfg px) :
    execScan px s =
      if s.dist.length = s.cfg.maxSyms then refuse .capacity s
      else countPixel (s.dist ++ [{ symbol := toStorage s.cfg px, count := 1 }]) s := by
  simp only [execScan, inPhase_of_eq hp, if_neg hn, distFind_of_forall_ne hnew]

/-- A symbol that DIST holds is counted in its entry. -/
theorem execScan_of_known {before after : List DistEntry} {e : DistEntry} (hd : s.dist = before ++ e :: after)
    (he : e.symbol = toStorage s.cfg px) (hb : ∀ e' ∈ before, e'.symbol ≠ toStorage s.cfg px)
    (hc : e.count.toNat < 2 ^ 64 - 1) :
    execScan px s =
      countPixel (before ++ { e with count := BitVec.ofNat 64 (e.count.toNat + 1) } :: after) s := by
  simp only [execScan, inPhase_of_eq hp, if_neg hn, hd, distFind_append_cons he hb, distBump_append_cons hc]

end Scan

theorem countPixel_eq {s : State} (hn : s.npix.toNat ≠ 2 ^ 64 - 1) (d : List DistEntry) :
    countPixel d s = answered .nothing { s with dist := d, npix := BitVec.ofNat 64 (s.npix.toNat + 1) } := by
  have hlt : s.npix.toNat + 1 < 2 ^ 64 := by have := s.npix.isLt; omega
  rw [countPixel, exact64_eq_ofNat hlt]
  rfl

/-- Settles O20, branch by branch of the rule. -/
theorem scanCountsOnePixel : Obligations.ScanCountsOnePixel := by
  refine fun px s => ⟨fun hp => inPhase_of_ne hp _, execScan_of_exhausted, fun hp hn => ⟨?_, ?_, ?_⟩⟩
  · exact fun hnew hfull => (execScan_of_new hp hn hnew).trans (if_pos hfull)
  · intro hnew hroom
    exact ((execScan_of_new hp hn hnew).trans (if_neg hroom)).trans (countPixel_eq hn _)
  · intro before after e hd he hb hc
    exact (execScan_of_known hp hn hd he hb hc).trans (countPixel_eq hn _)

/-! ### PRIO (R101) -/

/-- Where every index is in the table, the records listed are those of the indices, one by one. -/
theorem map_some_filterMap_getElem? {nodes : List NodeRec} {ks : List Nat} (h : ∀ k ∈ ks, k < nodes.length) :
    (ks.filterMap fun k => nodes[k]?).map some = ks.map fun k => nodes[k]? := by
  rw [List.map_filterMap_some_eq_filter_map_isSome, List.filter_eq_self, List.forall_mem_map]
  exact fun k hk => by simp [h k hk]

/-- Settles O21: PQ is the sorted list of the new indices (`sortByKey_perm`, `sortByKey_wf`), each of which has a
record. -/
theorem prioQueuesOneLeafPerSymbol : Obligations.PrioQueuesOneLeafPerSymbol := by
  refine fun s => ⟨fun hp => inPhase_of_ne hp _, fun hp hd => ?_, fun hp hd hn => ?_⟩
  · exact (inPhase_of_eq hp _).trans (if_pos (by rw [hd, List.length_nil]))
  · have hperm := sortByKey_perm (s.dist.map leafOf) (List.range s.dist.length)
    refine ⟨s.dist.map leafOf, _, _, rfl, hperm, ?_, map_some_filterMap_getElem? fun k hk => ?_, ?_⟩
    · exact (sortByKey_wf _ List.nodup_range).imp keyLt_iff.1
    · rw [List.length_map]
      exact List.mem_range.1 (hperm.mem_iff.1 hk)
    · have hd' : s.dist.length ≠ 0 := List.length_eq_zero_iff.not.2 hd
      simp only [exec, execPrio, inPhase_of_eq hp, if_neg hd', hn, List.nil_append]
      rfl

/-! ### SCANALL (R102, R103) -/

/-- `d` has one entry for each distinct symbol of `syms`, in the order of first occurrence, with its number of
occurrences (R103). -/
structure Tallies (d : List DistEntry) (syms : List Symbol) : Prop where
  nodup : (d.map DistEntry.symbol).Nodup
  mem : ∀ x, x ∈ d.map DistEntry.symbol ↔ x ∈ syms
  count : ∀ e ∈ d, e.count.toNat = syms.count e.symbol
  order : (d.map DistEntry.symbol).Pairwise fun a b => syms.idxOf a < syms.idxOf b

theorem tallies_nil : Tallies [] [] := ⟨by simp, by simp, by simp, by simp⟩

section Tallies

variable {d : List DistEntry} {syms : List Symbol} {x : Symbol} (h : Tallies d syms)
include h

theorem Tallies.forall_ne (hx : x ∉ syms) : ∀ e ∈ d, e.symbol ≠ x := by
  rintro e he rfl
  exact hx ((h.mem _).1 (List.mem_map_of_mem he))

theorem Tallies.count_le {e : DistEntry} (he : e ∈ d) : e.count.toNat ≤ syms.length :=
  (h.count e he).trans_le List.count_le_length

/-- Symbols that follow do not change the order of first occurrence. -/
theorem Tallies.order_append (more : List Symbol) :
    (d.map DistEntry.symbol).Pairwise fun a b => (syms ++ more).idxOf a < (syms ++ more).idxOf b := by
  refine h.order.imp_of_mem fun {a b} ha hb hab => ?_
  rwa [List.idxOf_append_of_mem ((h.mem a).1 ha), List.idxOf_append_of_mem ((h.mem b).1 hb)]

/-- A first occurrence appends an entry. -/
theorem Tallies.append_new (hx : x ∉ syms) : Tallies (d ++ [{ symbol := x, count := 1 }]) (syms ++ [x]) where
  nodup := by
    rw [List.map_append]
    exact List.nodup_append.2 ⟨h.nodup, by simp, by simpa using h.forall_ne hx⟩
  mem := by
    intro y
    simp only [List.map_append, List.mem_append, h.mem, List.map_cons, List.map_nil]
  count := by
    intro e he
    rcases List.mem_append.1 he with hd | he
    · rw [h.count e hd, List.count_append, List.count_singleton,
        if_neg (by simpa using (h.forall_ne hx e hd).symm), Nat.add_zero]
    · obtain rfl := List.mem_singleton.1 he
      simp [List.count_eq_zero_of_not_mem hx]
  order := by
    rw [List.map_append, List.pairwise_append]
    refine ⟨h.order_append [x], by simp, fun a ha b hb => ?_⟩
    obtain rfl : b = x := by simpa using hb
    have ha' := (h.mem a).1 ha
    rw [List.idxOf_append_of_mem ha', List.idxOf_append_of_notMem hx]
    exact (List.idxOf_lt_length_of_mem ha').trans_le (Nat.le_add_right _ _)

/-- A symbol that occurred before stands in one entry. -/
theorem Tallies.exists_entry (hx : x ∈ syms) : ∃ before e after, d = before ++ e :: after ∧ e.symbol = x ∧
    ∀ e' ∈ before ++ after, e'.symbol ≠ x := by
  obtain ⟨e, he, rfl⟩ := List.mem_map.1 ((h.mem x).2 hx)
  obtain ⟨before, after, rfl⟩ := List.append_of_mem he
  have hnd := h.nodup
  rw [List.map_append, List.map_cons, List.nodup_middle, List.nodup_cons, ← List.map_append] at hnd
  refine ⟨before, e, after, rfl, rfl, fun e' he' heq => hnd.1 ?_⟩
  exact heq ▸ List.mem_map_of_mem he'

/-- A further occurrence adds one to the count of its entry. -/
theorem Tallies.bump {before after : List DistEntry} {e : DistEntry} (hd : d = before ++ e :: after)
    (hothers : ∀ e' ∈ before ++ after, e'.symbol ≠ e.symbol) (hc : e.count.toNat < 2 ^ 64 - 1) :
    Tallies (before ++ { e with count := BitVec.ofNat 64 (e.count.toNat + 1) } :: after) (syms ++ [e.symbol]) := by
  have he : e ∈ d := by simp [hd]
  have hsyms : (before ++ { e with count := BitVec.ofNat 64 (e.count.toNat + 1) } :: after).map DistEntry.symbol =
      d.map DistEntry.symbol := by simp [hd]
  constructor
  case nodup => rw [hsyms]; exact h.nodup
  case mem =>
    intro y
    have hy : y = e.symbol → y ∈ syms := fun hy => hy ▸ (h.mem _).1 (List.mem_map_of_mem he)
    rw [hsyms, h.mem, List.mem_append, List.mem_singleton]
    exact ⟨.inl, fun hy' => hy'.elim id hy⟩
  case count =>
    intro e' he'
    rcases List.mem_cons.1 (List.perm_middle.mem_iff.1 he') with rfl | he'
    · have hlt : e.count.toNat + 1 < 2 ^ 64 := by omega
      rw [BitVec.toNat_ofNat, Nat.mod_eq_of_lt hlt, h.count e he, List.count_append, List.count_singleton_self]
    · have hmem : e' ∈ d := hd ▸ List.perm_middle.mem_iff.2 (List.mem_cons_of_mem e he')
      rw [h.count e' hmem, List.count_append, List.count_singleton,
        if_neg (by simpa using (hothers e' he').symm), Nat.add_zero]
  case order => rw [hsyms]; exact h.order_append _

/-- Before a first occurrence DIST holds fewer symbols than are distinct in the end. -/
theorem Tallies.length_lt_dedup (hx : x ∉ syms) (rest : List Symbol) :
    d.length < (syms ++ x :: rest).dedup.length := by
  have hnodup : (x :: d.map DistEntry.symbol).Nodup := List.nodup_cons.2 ⟨(h.mem x).not.2 hx, h.nodup⟩
  have hsub : x :: d.map DistEntry.symbol ⊆ (syms ++ x :: rest).dedup := by
    refine List.cons_subset.2 ⟨by simp, fun y hy => ?_⟩
    exact List.mem_dedup.2 (List.mem_append_left _ ((h.mem y).1 hy))
  simpa using (List.subperm_of_subset hnodup hsub).length_le

end Tallies

/-- The state in the middle of SCANALL: the symbols `syms` have been scanned. -/
structure HasScanned (c : Config) (syms : List Symbol) (s : State) : Prop where
  cfg : s.cfg = c
  phase : s.phase = .scan
  resp : s.port.resp = some (.ok .nothing)
  npix : s.npix.toNat = syms.length
  dist : Tallies s.dist syms

theorem hasScanned_reset (c : Config) :
    HasScanned c [] (respond (.ok .nothing) { State.reset with cfg := c }) :=
  ⟨rfl, rfl, rfl, rfl, tallies_nil⟩

section HasScanned

variable {c : Config} {s : State} {syms : List Symbol}

theorem countPixel_hasScanned {d : List DistEntry} {x : Symbol} (h : HasScanned c syms s)
    (hn : s.npix.toNat ≠ 2 ^ 64 - 1) (hd : Tallies d (syms ++ [x])) :
    ∃ t, countPixel d s = .next t ∧ HasScanned c (syms ++ [x]) t := by
  have hlt : s.npix.toNat + 1 < 2 ^ 64 := by have := s.npix.isLt; omega
  refine ⟨_, countPixel_eq hn d, h.cfg, h.phase, rfl, ?_, hd⟩
  rw [List.length_append, List.length_singleton, ← h.npix]
  exact (BitVec.toNat_ofNat ..).trans (Nat.mod_eq_of_lt hlt)

/-- One SCAN that neither the total nor the capacity forbids. -/
theorem HasScanned.scan (h : HasScanned c syms s) (px : U32) {rest : List Symbol}
    (hlen : (syms ++ toStorage c px :: rest).length < 2 ^ 64)
    (hcap : (syms ++ toStorage c px :: rest).dedup.length ≤ c.maxSyms) :
    ∃ t, exec (.scan px) s = .next t ∧ HasScanned c (syms ++ [toStorage c px]) t := by
  obtain rfl := h.cfg
  rw [List.length_append, List.length_cons] at hlen
  have hn : s.npix.toNat ≠ 2 ^ 64 - 1 := by rw [h.npix]; omega
  show ∃ t, execScan px s = .next t ∧ _
  by_cases hx : toStorage s.cfg px ∈ syms
  · obtain ⟨before, e, after, hd, he, hothers⟩ := h.dist.exists_entry hx
    have hle := h.dist.count_le (e := e) (by simp [hd])
    have hc : e.count.toNat < 2 ^ 64 - 1 := by omega
    rw [execScan_of_known h.phase hn hd he (fun e' he' => hothers e' (List.mem_append_left _ he')) hc]
    rw [← he] at hothers ⊢
    exact countPixel_hasScanned h hn (h.dist.bump hd hothers hc)
  · have hroom : s.dist.length ≠ s.cfg.maxSyms := ((h.dist.length_lt_dedup hx rest).trans_le hcap).ne
    rw [execScan_of_new h.phase hn (h.dist.forall_ne hx), if_neg hroom]
    exact countPixel_hasScanned h hn (h.dist.append_new hx)

theorem HasScanned.scanall (ps : List U32) (h : HasScanned c syms s)
    (hlen : (syms ++ ps.map (toStorage c)).length < 2 ^ 64)
    (hcap : (syms ++ ps.map (toStorage c)).dedup.length ≤ c.maxSyms) :
    ∃ t, runPrims (scanallPrims ps) s = .next t ∧ HasScanned c (syms ++ ps.map (toStorage c)) t := by
  induction ps generalizing s syms with
  | nil => exact ⟨s, rfl, by simpa using h⟩
  | cons px ps ih =>
    obtain ⟨u, hu, hscanned⟩ := h.scan px hlen hcap
    rw [List.map_cons, List.append_cons] at hlen hcap ⊢
    obtain ⟨t, ht, hall⟩ := ih hscanned hlen hcap
    refine ⟨t, ?_, hall⟩
    exact (runPrims_cons _ hu).trans ((if_pos (answeredOk_iff.2 ⟨_, hscanned.resp⟩)).trans ht)

end HasScanned

/-- Settles O46: each SCAN keeps what R103 says of the symbols so far (`HasScanned.scan`). -/
theorem scanallCountsCorpus : Obligations.ScanallCountsCorpus := by
  intro c ps _ hlen hcap
  obtain ⟨t, ht, h⟩ := (hasScanned_reset c).scanall ps (by simpa using hlen) hcap
  refine ⟨t, ht, h.resp, h.phase, ?_, h.dist.nodup, fun sym => ?_, h.dist.count, h.dist.order⟩
  · rw [h.npix, List.nil_append, List.length_map]
  · exact List.mem_map.symm.trans (h.dist.mem sym)

end Sys2Proof.Machine

/-! ## The tree builder (R110, R111) -/

namespace Sys2Proof.Machine

open Sys2Proof.Machine.Claims

variable {s : State}

/-! ### MERGE (R110) -/

/-- The two lowest entries are merged, and the new node goes into the queue. -/
theorem execMerge_of_cons_cons {a b : Nat} {rest : List Nat} {na nb : NodeRec} (hp : s.phase = .queue)
    (hq : s.pq = a :: b :: rest) (ha : s.node[a]? = some na) (hb : s.node[b]? = some nb)
    (hrest : ∀ k ∈ rest, k < s.node.length) :
    execMerge s = answered (.node s.node.length (mergedRec a b na nb))
      { s with
        node := s.node ++ [mergedRec a b na nb]
        pq := pqInsert s.node (mergedRec a b na nb).frequency.toNat s.node.length rest } := by
  simp only [execMerge, inPhase_of_eq hp, hq, ha, hb, firstAbsent_eq_none hrest]
  rfl

/-- A queue of fewer than two nodes leaves nothing to merge. -/
theorem execMerge_of_short (hp : s.phase = .queue) (hlen : s.pq.length < 2) :
    execMerge s = refuse .queueTooShort s := by
  refine (inPhase_of_eq hp _).trans ?_
  match hq : s.pq with
  | [] => rfl
  | [_] => rfl
  | _ :: _ :: _ => rw [hq] at hlen; simp at hlen

/-- Settles O22: the place in the queue is that of `pqInsert_split`, and the queue stays sorted (`pqInsert_wf`). -/
theorem mergeJoinsTwoLowest : Obligations.MergeJoinsTwoLowest := by
  refine fun s => ⟨fun hp => inPhase_of_ne hp _, execMerge_of_short, ?_⟩
  intro a b rest na nb hp hq ha hb hrest hsorted hsum
  have hfreq : (mergedRec a b na nb).frequency.toNat = na.frequency.toNat + nb.frequency.toNat := exact64_toNat hsum
  have hrecord : mergedRec a b na nb = ⟨0, BitVec.ofNat 64 _, some a, some b⟩ :=
    congrArg (NodeRec.mk 0 · (some a) (some b)) (exact64_eq_ofNat hsum)
  have hwf : pqWf s.node rest := (hq ▸ hsorted).of_cons.of_cons.imp keyLt_iff.2
  obtain ⟨lower, upper, hsplit, hins, hlower, hupper⟩ :=
    pqInsert_split (m := s.node.length) (mergedRec a b na nb).frequency.toNat hwf
  refine ⟨mergedRec a b na nb, lower, upper, hrecord, hsplit, hfreq ▸ hlower, hfreq ▸ hupper, ?_, ?_⟩
  · exact hins ▸ (pqInsert_wf (record := mergedRec a b na nb) hrest hwf).imp keyLt_iff.1
  · exact hins ▸ execMerge_of_cons_cons hp hq ha hb hrest

/-! ### MKROOT (R111) -/

/-- The one node in the queue becomes the root. -/
theorem execMkroot_of_singleton {k : Nat} {n : NodeRec} (hp : s.phase = .queue) (hq : s.pq = [k])
    (hk : s.node[k]? = some n) :
    execMkroot s = answered (.node k n) { s with root := some k, cur := some k, pq := [], phase := .tree } := by
  simp only [execMkroot, inPhase_of_eq hp, hq, hk]
  rfl

/-- Where the queue does not hold exactly one node there is no root yet. -/
theorem execMkroot_of_not_single (hp : s.phase = .queue) (hlen : s.pq.length ≠ 1) :
    execMkroot s = refuse .queueNotSingle s := by
  refine (inPhase_of_eq hp _).trans ?_
  match hq : s.pq with
  | [] => rfl
  | [_] => rw [hq] at hlen; exact absurd rfl hlen
  | _ :: _ :: _ => rfl

theorem mem_childrenOf_iff {nodes : List NodeRec} {k : Nat} :
    k ∈ childrenOf nodes ↔ ∃ n ∈ nodes, n.left = some k ∨ n.right = some k := by
  simp [childrenOf]

/-- The record of an entry of DIST has no children, and every other record is internal. -/
theorem Forest.leaf_or_internal {roots : List Nat} (h : Forest s roots) {p : Nat} {n : NodeRec}
    (hp : s.node[p]? = some n) : leafRecord n ∨ internalOk s.node p n = true := by
  rcases Nat.lt_or_ge p s.dist.length with hlt | hge
  · have hleaf : (s.dist.map leafOf)[p]? = some n := by rw [← h.leaves, List.getElem?_take_of_lt hlt, hp]
    rw [getElem?_leaves hlt] at hleaf
    obtain rfl := Option.some.inj hleaf
    exact .inl ⟨rfl, rfl⟩
  · exact .inr (h.internal p (List.mem_range.2 (List.getElem?_eq_some_iff.1 hp).1) hge n hp)

/-- A child has a lower index than its parent (R36 (a)). -/
theorem Forest.child_lt_parent {roots : List Nat} (h : Forest s roots) {p k : Nat} {n : NodeRec}
    (hp : s.node[p]? = some n) (hk : n.left = some k ∨ n.right = some k) : k < p := by
  rcases h.leaf_or_internal hp with ⟨hl, hr⟩ | hint
  · simp [hl, hr] at hk
  · obtain ⟨l, r, hl, hr, hlp, hrp, -, -⟩ := internalOk_iff.1 hint
    rw [hl, hr, Option.some_inj, Option.some_inj] at hk
    rcases hk with rfl | rfl
    · exact hlp
    · exact hrp

/-- The node of highest index is no child, so it is the one root. -/
theorem Forest.root_eq_last {r : Nat} (h : Forest s [r]) : r = s.node.length - 1 := by
  have hr := h.root_lt (List.mem_singleton_self r)
  have hlast : s.node.length - 1 ∈ [r] ++ childrenOf s.node := h.owned.mem_iff.2 (List.mem_range.2 (by omega))
  rcases List.mem_append.1 hlast with hroot | hchild
  · exact (List.mem_singleton.1 hroot).symm
  · obtain ⟨n, hn, hk⟩ := mem_childrenOf_iff.1 hchild
    obtain ⟨p, hp⟩ := List.mem_iff_getElem?.1 hn
    have hlt := h.child_lt_parent hp hk
    have := (List.getElem?_eq_some_iff.1 hp).1
    omega

/-- Settles O23: the queue of a state of the invariant holds the roots of its forest (`Forest.root_eq_last`). -/
theorem mkrootTakesTheLastNode : Obligations.MkrootTakesTheLastNode := by
  refine fun s => ⟨fun hp => inPhase_of_ne hp _, execMkroot_of_not_single, fun k n hp hq hk => ?_⟩
  exact ⟨execMkroot_of_singleton hp hq hk, fun hI => Forest.root_eq_last (hq ▸ (hI.merging hp).forest)⟩

end Sys2Proof.Machine

/-! ## BUILD leaves one tree (R112, R113) -/

namespace Sys2Proof.Machine

variable {s t : State}

/-! ### The order of the merged nodes (R113) -/

/-- The frequencies of the merged nodes, those of index `n` and above, do not decrease with the index, and no two
entries of the queue add up to less than a merged node has, so that the next one does not either. -/
structure MergesAscend (n : Nat) (nodes : List NodeRec) (pq : List Nat) : Prop where
  ascending : ∀ j k, n ≤ j → j ≤ k → k < nodes.length → freqAt nodes j ≤ freqAt nodes k
  pairs : pq.Pairwise fun x y =>
    ∀ j, n ≤ j → j < nodes.length → freqAt nodes j ≤ freqAt nodes x + freqAt nodes y

section MergesAscend

variable {n : Nat} {nodes : List NodeRec}

/-- Before the first MERGE there is no merged node. -/
theorem mergesAscend_of_le (h : nodes.length ≤ n) (pq : List Nat) : MergesAscend n nodes pq where
  ascending := fun j k hj hjk hk => by omega
  pairs := List.pairwise_of_forall fun x y j hj hlt => by omega

theorem MergesAscend.perm {pq pq' : List Nat} (h : MergesAscend n nodes pq) (hp : pq.Perm pq') :
    MergesAscend n nodes pq' where
  ascending := h.ascending
  pairs := h.pairs.perm hp fun hxy j hj hlt => (hxy j hj hlt).trans_eq (Nat.add_comm _ _)

/-- In a sorted queue the two lowest entries add up to no more than two others. -/
theorem MergesAscend.merged {a b : Nat} {rest : List Nat} {record : NodeRec}
    (h : MergesAscend n nodes (a :: b :: rest)) (hsorted : pqWf nodes (a :: b :: rest))
    (hrest : ∀ k ∈ rest, k < nodes.length) (hf : record.frequency.toNat = freqAt nodes a + freqAt nodes b) :
    MergesAscend n (nodes ++ [record]) (nodes.length :: rest) := by
  have hnew : freqAt (nodes ++ [record]) nodes.length = freqAt nodes a + freqAt nodes b :=
    (freqAt_of_getElem? (by simp)).trans hf
  have hold : ∀ j, j < nodes.length → freqAt (nodes ++ [record]) j = freqAt nodes j := fun j hj => freqAt_append hj
  have hlen : (nodes ++ [record]).length = nodes.length + 1 := by simp
  obtain ⟨hab, hpairs⟩ := List.pairwise_cons.1 h.pairs
  obtain ⟨ha, hsorted⟩ := List.pairwise_cons.1 hsorted
  obtain ⟨hb, -⟩ := List.pairwise_cons.1 hsorted
  have hnewest : ∀ j, n ≤ j → j < nodes.length + 1 →
      freqAt (nodes ++ [record]) j ≤ freqAt (nodes ++ [record]) nodes.length := by
    intro j hj hlt
    rcases Nat.lt_succ_iff_lt_or_eq.1 hlt with hlt | rfl
    · rw [hold j hlt, hnew]
      exact hab b (by simp) j hj hlt
    · exact le_rfl
  constructor
  case ascending =>
    intro j k hj hjk hk
    rw [hlen] at hk
    rcases Nat.lt_succ_iff_lt_or_eq.1 hk with hk | rfl
    · rw [hold j (by omega), hold k hk]
      exact h.ascending j k hj hjk hk
    · exact hnewest j hj (by omega)
  case pairs =>
    rw [hlen]
    refine List.pairwise_cons.2 ⟨fun y _ j hj hlt => (hnewest j hj hlt).trans (Nat.le_add_right _ _), ?_⟩
    refine hpairs.of_cons.imp_of_mem fun {x y} hx hy hxy j hj hlt => ?_
    rw [hold x (hrest x hx), hold y (hrest y hy)]
    rcases Nat.lt_succ_iff_lt_or_eq.1 hlt with hlt | rfl
    · rw [hold j hlt]
      exact hxy j hj hlt
    · have hax := keyLt_iff.1 (ha x (by simp [hx]))
      have hby := keyLt_iff.1 (hb y hy)
      rw [hnew]
      omega

end MergesAscend

/-! ### BUILD, part by part (R87, R112) -/

theorem andThen_next (t : State) (k : State → Result) :
    andThen (.next t) k = if answeredOk t then k t else .next t := rfl

/-- The next part runs where the part before it answered `ok` (R87). -/
theorem andThen_of_ok {r : Result} {out : Output} (k : State → Result) (h : r = .next t)
    (ht : t.port.resp = some (.ok out)) : andThen r k = k t := by
  rw [h, andThen_next, if_pos (answeredOk_iff.2 ⟨out, ht⟩)]

/-- A sequence of primitives is its first primitive and then the rest, under the same rule (R87). -/
theorem runPrims_cons_eq_andThen (i : Instr) (is : List Instr) (s : State) :
    runPrims (i :: is) s = andThen (exec i s) (runPrims is) := by
  rw [runPrims]
  cases exec i s with
  | next t => rfl
  | fault f => rfl
  | refused q => rfl

/-- The state of BUILD in phase QUEUE, from a distribution `d` of `total` pixels. -/
structure Building (d : List DistEntry) (total : U64) (s : State) : Prop where
  inv : Inv s
  phase : s.phase = .queue
  answered : ∃ out, s.port.resp = some (.ok out)
  dist : s.dist = d
  npix : s.npix = total
  ascend : MergesAscend d.length s.node s.pq

/-- The state in which BUILD ends. -/
structure BuildDone (d : List DistEntry) (total : U64) (s : State) : Prop where
  inv : Inv s
  phase : s.phase = .ready
  resp : s.port.resp = some (.ok (.codes s.code))
  dist : s.dist = d
  npix : s.npix = total
  cur : s.cur = s.root
  ascending : ∀ j k, d.length ≤ j → j ≤ k → k < s.node.length → freqAt s.node j ≤ freqAt s.node k

/-- PRIO begins the build of a distribution that is not empty. -/
theorem execPrio_building (hI : Inv s) (hp : s.phase = .scan) (hd : s.dist ≠ []) :
    ∃ t, execPrio s = .next t ∧ Building s.dist s.npix t := by
  obtain ⟨t, ht⟩ := execPrio_answers s
  have hIt := exec_inv (i := .prio) hI ht
  refine ⟨t, ht, ?_⟩
  obtain ⟨hne, -⟩ | ⟨-, ⟨he, -⟩ | ⟨-, nodes, pq, hn, -, rfl⟩⟩ := execPrio_cases ht
  · exact absurd hp hne
  · exact absurd he hd
  · have hlen : nodes.length ≤ s.dist.length := by simp [hn, (hI.unbuilt hp).node]
    exact ⟨hIt, rfl, ⟨_, rfl⟩, rfl, rfl, mergesAscend_of_le hlen pq⟩

section Building

variable {d : List DistEntry} {total : U64} (h : Building d total s)
include h

/-- One MERGE shortens the queue by one. -/
theorem Building.merge (hlen : 2 ≤ s.pq.length) :
    ∃ t, execMerge s = .next t ∧ Building d total t ∧ t.pq.length + 1 = s.pq.length := by
  obtain ⟨t, ht⟩ := execMerge_answers h.inv
  have hI := exec_inv (i := .merge) h.inv ht
  refine ⟨t, ht, ?_⟩
  obtain ⟨hne, -⟩ | ⟨-, ⟨hlt, -⟩ | ⟨a, b, rest, na, nb, hq, ha, hb, hrest, rfl⟩⟩ := execMerge_cases ht
  · exact absurd h.phase hne
  · omega
  · have hm := h.inv.merging h.phase
    have hasc := h.ascend
    have hsorted := hm.sorted
    have hforest := hm.forest
    rw [hq] at hasc hsorted hforest
    have hperm := pqInsert_perm s.node (mergedRec a b na nb).frequency.toNat s.node.length rest
    have hmerged := hasc.merged hsorted hrest (hforest.merged_frequency ha hb)
    refine ⟨⟨hI, h.phase, ⟨_, rfl⟩, h.dist, h.npix, hmerged.perm hperm.symm⟩, ?_⟩
    rw [hq]
    exact congrArg Nat.succ hperm.length_eq

/-- The merge loop ends with one node in the queue. -/
theorem Building.mergeAll {fuel : Nat} (hfuel : s.pq.length ≤ fuel) :
    ∃ t k, mergeAll fuel s = .next t ∧ Building d total t ∧ t.pq = [k] := by
  induction fuel generalizing s with
  | zero =>
    have := List.length_pos_iff.2 (h.inv.merging h.phase).nonempty
    omega
  | succ fuel ih =>
    by_cases hlen : 2 ≤ s.pq.length
    · obtain ⟨u, hu, hbu, hshort⟩ := h.merge hlen
      obtain ⟨t, k, ht, hbt⟩ := ih hbu (by omega)
      obtain ⟨out, hout⟩ := hbu.answered
      exact ⟨t, k, by rw [Machine.mergeAll, if_pos hlen, andThen_of_ok _ hu hout, ht], hbt⟩
    · have := List.length_pos_iff.2 (h.inv.merging h.phase).nonempty
      obtain ⟨k, hk⟩ := List.length_eq_one_iff.1 (show s.pq.length = 1 by omega)
      exact ⟨s, k, by rw [Machine.mergeAll, if_neg hlen], h, hk⟩

/-- MKROOT and GENCODE leave DIST and the nodes as the last MERGE left them. -/
theorem Building.finish {r : Nat} (hq : s.pq = [r]) :
    ∃ t, runPrims [.mkroot, .gencode] s = .next t ∧ BuildDone d total t := by
  have hm := h.inv.merging h.phase
  have hr := List.getElem?_eq_getElem (hm.forest.root_lt (hq ▸ List.mem_singleton_self r))
  have hu : exec .mkroot s = _ := execMkroot_of_singleton h.phase hq hr
  have hIu := exec_inv h.inv hu
  obtain ⟨t, ht⟩ : Answers (exec .gencode _) := execGencode_answers hIu
  have hIt := exec_inv hIu ht
  obtain ⟨hne, -⟩ | ⟨-, r', tr, -, -, -, rfl⟩ := execGencode_cases ht
  · exact absurd rfl hne
  · have hcode : codeSetAll [] tr.codes = codeSetAll s.code tr.codes := by rw [hm.code]
    refine ⟨_, ?_, hIt, rfl, congrArg (some <| Response.ok <| Output.codes ·) hcode, h.dist, h.npix, rfl,
      h.ascend.ascending⟩
    rw [runPrims_cons_eq_andThen, andThen_of_ok _ hu rfl, runPrims_cons_eq_andThen, andThen_of_ok _ ht rfl]
    rfl

end Building

/-- Without a distribution PRIO raises EmptyInputError, and BUILD stops there. -/
theorem runBuild_of_empty (hp : s.phase = .scan) (hd : s.dist = []) :
    runBuild s = raise .emptyInput 0 s := by
  have hprio : execPrio s = raise .emptyInput 0 s :=
    (inPhase_of_eq hp _).trans (if_pos (by rw [hd, List.length_nil]))
  rw [runBuild, hprio]
  rfl

/-- With a distribution BUILD runs through: PRIO, the merge loop, MKROOT and GENCODE. -/
theorem runBuild_of_nonempty (hI : Inv s) (hp : s.phase = .scan) (hd : s.dist ≠ []) :
    ∃ t, runBuild s = .next t ∧ BuildDone s.dist s.npix t := by
  obtain ⟨s1, hs1, hb1⟩ := execPrio_building hI hp hd
  obtain ⟨s2, r, hs2, hb2, hq⟩ := hb1.mergeAll le_rfl
  obtain ⟨t, ht, hdone⟩ := hb2.finish hq
  obtain ⟨out1, hout1⟩ := hb1.answered
  obtain ⟨out2, hout2⟩ := hb2.answered
  exact ⟨t, by rw [runBuild, andThen_of_ok _ hs1 hout1, andThen_of_ok _ hs2 hout2, ht], hdone⟩

/-- A finished build holds `2n - 1` nodes, and the last is the root. -/
theorem Built.node_length_and_root {r c : Nat} {tr : Tree} (h : Built s r c tr) :
    s.node.length = 2 * s.dist.length - 1 ∧ r = 2 * s.dist.length - 2 := by
  have hcount := h.forest.count
  have hlast := h.forest.root_eq_last
  rw [List.length_singleton] at hcount
  omega

/-- Settles O47: BUILD runs through (`runBuild_of_nonempty`); the tree is that of the invariant in phase READY, with the
last node as root. -/
theorem buildMakesOneTree : Obligations.BuildMakesOneTree := by
  refine fun s hI hp => ⟨runBuild_of_empty hp, fun hd => ?_⟩
  obtain ⟨t, ht, hdone⟩ := runBuild_of_nonempty (hI.withPort _) hp hd
  obtain ⟨hIt, hphase, hresp, hdist : t.dist = s.dist, hnpix, hcur, hascending⟩ := hdone
  obtain ⟨r, c, tr, hb⟩ := hIt.built (.inl hphase)
  obtain ⟨hlen, rfl⟩ := hb.node_length_and_root
  obtain ⟨-, -, hleaves, hinternal, -, -, -, htotal⟩ := hb.forest
  rw [List.map_singleton, List.sum_singleton, hnpix, hdist] at htotal
  rw [hdist] at hlen hleaves hinternal
  refine ⟨t, t.code, ht, hresp, hphase, rfl, hdist, hnpix, hlen, hleaves, hdist ▸ hb.root, hcur, htotal,
    fun k n hk hn => ?_, hascending⟩
  have hmem := List.mem_range.2 (List.getElem?_eq_some_iff.1 hn).1
  exact internalOk_iff.1 (hinternal k hmem hk n hn)

end Sys2Proof.Machine

/-! ## BUILD depends on DIST alone (R114) -/

namespace Sys2Proof.Machine

variable {s t : State}

/-- The part of the state that BUILD works on, the rest as after reset: the registers PHASE to CUR, the
tables and the response. -/
def buildPart (s : State) : State :=
  { State.reset with
    phase := s.phase
    err := s.err
    einfo := s.einfo
    root := s.root
    cur := s.cur
    dist := s.dist
    node := s.node
    pq := s.pq
    code := s.code
    port := { Port.empty with resp := s.port.resp } }

/-- Where `r` answers a next state, `r'` answers the build part of that state. -/
def SameBuild (r r' : Result) : Prop := ∀ t, r = .next t → r' = .next (buildPart t)

theorem sameBuild_next (s : State) : SameBuild (.next s) (.next (buildPart s)) := by
  rintro t ⟨⟩
  rfl

theorem sameBuild_execPrio (s : State) : SameBuild (execPrio s) (execPrio (buildPart s)) := by
  intro t ht
  obtain ⟨hp, rfl⟩ | ⟨hp, ⟨hd, rfl⟩ | ⟨hd, nodes, pq, rfl, rfl, rfl⟩⟩ := execPrio_cases ht
  · exact inPhase_of_ne (s := buildPart s) hp _
  · exact (inPhase_of_eq (s := buildPart s) hp _).trans (if_pos (List.length_eq_zero_iff.2 hd))
  · exact (inPhase_of_eq (s := buildPart s) hp _).trans (if_neg (List.length_eq_zero_iff.not.2 hd))

theorem sameBuild_execMerge (s : State) : SameBuild (execMerge s) (execMerge (buildPart s)) := by
  intro t ht
  obtain ⟨hp, rfl⟩ | ⟨hp, ⟨hlen, rfl⟩ | ⟨a, b, rest, na, nb, hq, ha, hb, hrest, rfl⟩⟩ :=
    execMerge_cases ht
  · exact inPhase_of_ne (s := buildPart s) hp _
  · exact execMerge_of_short (s := buildPart s) hp hlen
  · exact execMerge_of_cons_cons (s := buildPart s) hp hq ha hb hrest

theorem sameBuild_execMkroot (s : State) : SameBuild (execMkroot s) (execMkroot (buildPart s)) := by
  intro t ht
  obtain ⟨hp, rfl⟩ | ⟨hp, ⟨hlen, rfl⟩ | ⟨k, n, hq, hk, rfl⟩⟩ := execMkroot_cases ht
  · exact inPhase_of_ne (s := buildPart s) hp _
  · exact execMkroot_of_not_single (s := buildPart s) hp hlen
  · exact execMkroot_of_singleton (s := buildPart s) hp hq hk

/-- The tree under ROOT gives the codes, where its leaf symbols are distinct. -/
theorem execGencode_of_tree {r : Nat} {tr : Tree} (hp : s.phase = .tree) (hr : s.root = some r)
    (ht : tableTree s.node r = some tr) (hn : (tr.codes.map Prod.fst).Nodup) :
    execGencode s = answer (.codes (codeSetAll [] tr.codes))
      { s with code := codeSetAll s.code tr.codes, phase := .ready } := by
  simp only [execGencode, inPhase_of_eq hp, hr, ht, if_pos hn]

theorem sameBuild_execGencode (s : State) : SameBuild (execGencode s) (execGencode (buildPart s)) := by
  intro t ht
  obtain ⟨hp, rfl⟩ | ⟨hp, r, tr, hr, htr, hnodup, rfl⟩ := execGencode_cases ht
  · exact inPhase_of_ne (s := buildPart s) hp _
  · exact execGencode_of_tree (s := buildPart s) hp hr htr hnodup

/-- The response is in the build part, so the next part runs after both or after neither. -/
theorem SameBuild.andThen {r r' : Result} {k k' : State → Result} (h : SameBuild r r')
    (hk : ∀ u, SameBuild (k u) (k' (buildPart u))) : SameBuild (andThen r k) (andThen r' k') := by
  intro t ht
  cases r with
  | fault f => cases ht
  | refused q => cases ht
  | next u =>
    rw [h u rfl, andThen_next]
    rw [andThen_next] at ht
    by_cases hok : answeredOk u = true
    · rw [if_pos hok] at ht
      exact (if_pos hok).trans (hk u t ht)
    · rw [if_neg hok] at ht
      cases ht
      exact if_neg hok

theorem sameBuild_mergeAll (fuel : Nat) (s : State) : SameBuild (mergeAll fuel s) (mergeAll fuel (buildPart s)) := by
  induction fuel generalizing s with
  | zero => exact sameBuild_next s
  | succ fuel ih =>
    by_cases hlen : 2 ≤ s.pq.length
    · rw [mergeAll, if_pos hlen, mergeAll, if_pos (show 2 ≤ (buildPart s).pq.length from hlen)]
      exact (sameBuild_execMerge s).andThen ih
    · rw [mergeAll, if_neg hlen, mergeAll, if_neg (show ¬ 2 ≤ (buildPart s).pq.length from hlen)]
      exact sameBuild_next s

theorem sameBuild_runBuild (s : State) : SameBuild (runBuild s) (runBuild (buildPart s)) := by
  refine (sameBuild_execPrio s).andThen fun u => (sameBuild_mergeAll u.pq.length u).andThen fun v => ?_
  simp only [runPrims_cons_eq_andThen]
  exact (sameBuild_execMkroot v).andThen fun w => (sameBuild_execGencode w).andThen sameBuild_next

/-- Before the build nothing but DIST and the response differs from reset in the build part. -/
theorem Inv.buildPart_eq (h : Inv s) (hp : s.phase = .scan) :
    buildPart s = { State.reset with dist := s.dist, port := { Port.empty with resp := s.port.resp } } := by
  have herr : s.err = none := by
    by_contra hne
    exact absurd (hp.symm.trans (h.errFault.1 hne)) (by decide)
  obtain ⟨hnode, hpq, hcode, hroot, hcur⟩ := h.unbuilt hp
  rw [buildPart, hp, herr, h.info herr, hroot, hcur, hnode, hpq, hcode]
  rfl

/-- Settles O48: BUILD from the build parts is BUILD from one state, that of the common DIST. -/
theorem buildDependsOnDistAlone : Obligations.BuildDependsOnDistAlone := by
  intro s s' t t' hI hI' hp hp' hd ht ht'
  have hstart : buildPart (respond (.ok .nothing) s) = buildPart (respond (.ok .nothing) s') := by
    have hs := Inv.buildPart_eq (s := respond (.ok .nothing) s) (hI.withPort _) hp
    have hs' := Inv.buildPart_eq (s := respond (.ok .nothing) s') (hI'.withPort _) hp'
    rw [hs, hs', respond_dist, respond_dist, hd, respond_resp, respond_resp]
  have hend := sameBuild_runBuild _ t ht
  rw [hstart, sameBuild_runBuild _ t' ht'] at hend
  have heq : buildPart t' = buildPart t := by injection hend
  exact ⟨(congrArg State.node heq).symm, (congrArg State.root heq).symm, (congrArg State.code heq).symm⟩

end Sys2Proof.Machine

/-! ## The code table (R120 to R123) -/

namespace Sys2Proof.Machine

open Sys2Proof.Machine.Claims

variable {s : State}

/-! ### The codes of a tree (R76, R122, R123) -/

@[simp] theorem Tree.mem_codes_leaf {sym sym' : Symbol} {f : U64} {bits : Bits} :
    (sym, bits) ∈ (Tree.leaf sym' f).codes ↔ sym' = sym ∧ bits = [] := by
  simp [Tree.codes, eq_comm]

@[simp] theorem Tree.nil_notMem_codes_node {sym : Symbol} {f : U64} {l r : Tree} :
    (sym, []) ∉ (Tree.node f l r).codes := by
  simp [Tree.codes]

@[simp] theorem Tree.cons_mem_codes_node {sym : Symbol} {f : U64} {l r : Tree} {bit : Bit} {bits : Bits} :
    (sym, bit :: bits) ∈ (Tree.node f l r).codes ↔ (sym, bits) ∈ (if bit then r else l).codes := by
  cases bit <;> simp [Tree.codes]

/-- Two codes of one tree part at a node where neither has ended, so a code begins no other leaf's. -/
theorem Tree.symbol_eq_of_code_prefix {tr : Tree} {sym sym' : Symbol} {bits bits' : Bits}
    (h : (sym, bits) ∈ tr.codes) (h' : (sym', bits') ∈ tr.codes) (hpre : bits <+: bits') : sym = sym' := by
  induction tr generalizing bits bits' with
  | leaf x f =>
    obtain ⟨rfl, -⟩ := Tree.mem_codes_leaf.1 h
    exact (Tree.mem_codes_leaf.1 h').1
  | node f l r ihl ihr =>
    match bits, bits' with
    | [], _ => exact absurd h Tree.nil_notMem_codes_node
    | _ :: _, [] => exact absurd h' Tree.nil_notMem_codes_node
    | bit :: _, bit' :: _ =>
      obtain ⟨rfl, htail⟩ := List.cons_prefix_cons.1 hpre
      rw [Tree.cons_mem_codes_node] at h h'
      cases bit with
      | false => exact ihl h h' htail
      | true => exact ihr h h' htail

theorem Tree.leaves_length_of_nil_mem_codes {tr : Tree} {sym : Symbol} (h : (sym, []) ∈ tr.codes) :
    tr.leaves.length = 1 := by
  cases tr with
  | leaf x f => rfl
  | node f l r => exact absurd h Tree.nil_notMem_codes_node

/-- Kraft's sum of a list of codes (R123). -/
def kraftSum (c : List (Symbol × Bits)) : ℚ := (c.map fun p => ((1 : ℚ) / 2) ^ p.2.length).sum

theorem kraftSum_append (c d : List (Symbol × Bits)) : kraftSum (c ++ d) = kraftSum c + kraftSum d := by
  simp [kraftSum]

/-- An edge more halves the weight of every code. -/
theorem kraftSum_map_cons (bit : Bit) (c : List (Symbol × Bits)) :
    kraftSum (c.map fun p => (p.1, bit :: p.2)) = kraftSum c / 2 := by
  simp only [kraftSum, List.map_map, Function.comp_def, List.length_cons, pow_succ, List.sum_map_mul_right]
  ring

/-- The code of a full binary tree is complete: each subtree has half the weight of its parent. -/
theorem Tree.kraftSum_codes (tr : Tree) : kraftSum tr.codes = 1 := by
  induction tr with
  | leaf sym f => simp [kraftSum, Tree.codes]
  | node f l r ihl ihr => rw [Tree.codes, kraftSum_append, kraftSum_map_cons, kraftSum_map_cons, ihl, ihr]; norm_num

/-! ### The paths of the table (R76, R120) -/

/-- The path `bits` leads from the node `k` to a leaf of the symbol `sym`. -/
def LeafAt (nodes : List NodeRec) (k : Nat) (bits : Bits) (sym : Symbol) : Prop :=
  ∃ j n, follow nodes k bits = some j ∧ nodes[j]? = some n ∧ leafRecord n ∧ n.symbol = sym

section LeafAt

variable {nodes : List NodeRec} {k : Nat} {n : NodeRec} {sym : Symbol}

theorem leafAt_nil (hk : nodes[k]? = some n) : LeafAt nodes k [] sym ↔ leafRecord n ∧ n.symbol = sym := by
  simp [LeafAt, follow, hk]

theorem follow_cons (hk : nodes[k]? = some n) (bit : Bit) (bits : Bits) :
    follow nodes k (bit :: bits) = (childOf bit n).bind (follow nodes · bits) := by
  simp only [follow, hk, childOf]
  rcases (if bit then n.right else n.left) with _ | j <;> rfl

theorem leafAt_cons (hk : nodes[k]? = some n) {bit : Bit} {bits : Bits} :
    LeafAt nodes k (bit :: bits) sym ↔ ∃ j, childOf bit n = some j ∧ LeafAt nodes j bits sym := by
  rw [LeafAt, follow_cons hk]
  rcases childOf bit n with _ | j <;> simp [LeafAt]

/-- What the records under a node with a tree are: those of a leaf, or those of two children with trees. -/
theorem treeOf_cases {fuel : Nat} {tr : Tree} (h : treeOf nodes (fuel + 1) k = some tr) :
    ∃ n, nodes[k]? = some n ∧
      ((leafRecord n ∧ tr = .leaf n.symbol n.frequency) ∨
       ∃ l r tl tr', n.left = some l ∧ n.right = some r ∧ treeOf nodes fuel l = some tl ∧
         treeOf nodes fuel r = some tr' ∧ tr = .node n.frequency tl tr') := by
  rw [treeOf] at h
  split at h
  · cases h
  · next n hk =>
    refine ⟨n, hk, ?_⟩
    split at h
    · next hl hr => exact .inl ⟨⟨hl, hr⟩, (Option.some.inj h).symm⟩
    · next l r hl hr =>
      split at h
      · next tl tr' htl htr => exact .inr ⟨l, r, tl, tr', hl, hr, htl, htr, (Option.some.inj h).symm⟩
      · cases h
    · cases h

/-- The codes of a tree are the paths to the leaves of its records. -/
theorem mem_codes_iff_leafAt {fuel : Nat} {tr : Tree} (h : treeOf nodes fuel k = some tr) {bits : Bits} :
    (sym, bits) ∈ tr.codes ↔ LeafAt nodes k bits sym := by
  induction fuel generalizing k tr bits with
  | zero => cases h
  | succ fuel ih =>
    obtain ⟨n, hk, ⟨hleaf, rfl⟩ | ⟨l, r, tl, tr', hl, hr, htl, htr, rfl⟩⟩ := treeOf_cases h
    · cases bits with
      | nil => simp [leafAt_nil hk, leafRecord, hleaf]
      | cons bit bits => simp [leafAt_cons hk, childOf, hleaf]
    · cases bits with
      | nil => simp [leafAt_nil hk, hl]
      | cons bit bits =>
        rw [Tree.cons_mem_codes_node, leafAt_cons hk]
        cases bit with
        | false => simp [childOf, hl, ih htl]
        | true => simp [childOf, hr, ih htr]

end LeafAt

/-! ### What the list of CODE holds (log 7) -/

theorem codeSet_perm {c : List (Symbol × Bits)} {sym : Symbol} (bits : Bits) (hnew : ∀ p ∈ c, p.1 ≠ sym) :
    (codeSet c sym bits).Perm ((sym, bits) :: c) := by
  induction c with
  | nil => rfl
  | cons q rest ih =>
    obtain ⟨hq, hrest⟩ := List.forall_mem_cons.1 hnew
    rw [codeSet]
    split
    · rfl
    · rw [if_neg hq.symm]
      exact ((ih hrest).cons q).trans (.swap ..)

/-- Where no symbol comes twice, no write overwrites another. -/
theorem codeSetAll_perm {c ps : List (Symbol × Bits)} (h : ((ps ++ c).map Prod.fst).Nodup) :
    (codeSetAll c ps).Perm (ps ++ c) := by
  induction ps generalizing c with
  | nil => rfl
  | cons p ps ih =>
    have hmid : (ps ++ p :: c).Perm (p :: ps ++ c) := List.perm_middle
    have hnd : ((ps ++ p :: c).map Prod.fst).Nodup := (hmid.map _).nodup_iff.2 h
    have hset : (codeSet c p.1 p.2).Perm (p :: c) := codeSet_perm p.2 fun q hq heq => by
      rw [List.map_append, List.map_cons] at hnd
      exact (List.nodup_cons.1 hnd.of_append_right).1 (heq ▸ List.mem_map_of_mem hq)
    have hall := hset.append_left ps
    exact (ih ((hall.map _).nodup_iff.2 hnd)).trans (hall.trans hmid)

theorem codeSetAll_nil_perm {ps : List (Symbol × Bits)} (h : (ps.map Prod.fst).Nodup) :
    (codeSetAll [] ps).Perm ps := by
  simpa using codeSetAll_perm (c := []) (by simpa using h)

theorem codeGet_of_mem {c : List (Symbol × Bits)} (hc : codeWf c) {sym : Symbol} {bits : Bits}
    (h : (sym, bits) ∈ c) : codeGet c sym = some bits := by
  induction c with
  | nil => cases h
  | cons q rest ih =>
    obtain ⟨hq, hrest⟩ := List.pairwise_cons.1 hc
    rw [codeGet_cons]
    rcases List.mem_cons.1 h with rfl | h
    · exact if_pos rfl
    · rw [if_neg fun heq => (hq _ h).ne (congrArg BitVec.toNat heq), ih hrest h]

theorem codeGet_eq_none {c : List (Symbol × Bits)} {sym : Symbol} (h : ∀ bits, (sym, bits) ∉ c) :
    codeGet c sym = none := by
  rw [codeGet, Option.map_eq_none_iff, List.find?_eq_none]
  intro p hp heq
  exact h p.2 (eq_of_beq heq ▸ hp)

/-! ### CODE in the states of the invariant -/

/-- The table of a built tree is the tree's list of codes, in another order. -/
theorem Built.code_perm {r c : Nat} {tr : Tree} (h : Built s r c tr) (hd : distWf s.dist) : s.code.Perm tr.codes := by
  rw [h.code]
  exact codeSetAll_nil_perm (h.forest.codes_symbols_nodup h.tree hd)

section Built

variable {r c : Nat} {tr : Tree} (h : Built s r c tr) (hd : distWf s.dist)
include h hd

/-- The symbols of the table are those of DIST (R120). -/
theorem Built.code_symbols_perm : (s.code.map Prod.fst).Perm (s.dist.map DistEntry.symbol) := by
  calc s.code.map Prod.fst
      |>.Perm (tr.codes.map Prod.fst) := (h.code_perm hd).map _
    _ = tr.leaves.map Prod.fst := codes_symbols tr
    _ |>.Perm ((s.dist.map fun e => (e.symbol, e.count)).map Prod.fst) := (h.forest.leaves_perm h.tree).map _
    _ = s.dist.map DistEntry.symbol := by rw [List.map_map]; rfl

theorem Built.exists_code_iff {sym : Symbol} :
    (∃ bits, (sym, bits) ∈ s.code) ↔ ∃ e ∈ s.dist, e.symbol = sym := by
  simpa using (h.code_symbols_perm hd).mem_iff (a := sym)

theorem Built.code_length_lt_dist {p : Symbol × Bits} (hp : p ∈ s.code) : p.2.length < s.dist.length := by
  rw [← h.forest.leaves_length h.tree]
  exact Tree.code_length_lt ((h.code_perm hd).mem_iff.1 hp)

theorem Built.dist_length_of_nil_mem_code {sym : Symbol} (hp : (sym, []) ∈ s.code) : s.dist.length = 1 := by
  rw [← h.forest.leaves_length h.tree]
  exact Tree.leaves_length_of_nil_mem_codes ((h.code_perm hd).mem_iff.1 hp)

theorem Built.code_length_pos (hlen : 2 ≤ s.dist.length) {p : Symbol × Bits} (hp : p ∈ s.code) :
    1 ≤ p.2.length := by
  obtain ⟨sym, _ | ⟨bit, bits⟩⟩ := p
  · have := h.dist_length_of_nil_mem_code hd hp
    omega
  · exact Nat.succ_pos _

theorem Built.kraftSum_code : kraftSum s.code = 1 :=
  (((h.code_perm hd).map _).sum_eq).trans tr.kraftSum_codes

end Built

/-- The code table is empty, or that of a built tree. -/
theorem Inv.code_eq_nil_or_built (h : Inv s) : s.code = [] ∨ ∃ r c tr, Built s r c tr := by
  cases hp : s.phase with
  | scan => exact .inl (h.unbuilt hp).code
  | queue => exact .inl (h.merging hp).code
  | tree =>
    obtain ⟨r, hr⟩ := h.rooted hp
    exact .inl hr.code
  | ready => exact .inr (h.built (.inl hp))
  | enc => exact .inr (h.built (.inr (.inl hp)))
  | dec => exact .inr (h.built (.inr (.inr hp)))
  | fault => exact (h.unbuilt_or_built hp).imp_left Unbuilt.code

/-! ### GENCODE and LOOKUP (R120, R121) -/

/-- Settles O24: the codes of the tree under ROOT are the paths of the table (`mem_codes_iff_leafAt`), and CODE, empty
before, takes each of them once. -/
theorem gencodeMapsSymbolsToPaths : Obligations.GencodeMapsSymbolsToPaths := by
  refine fun s => ⟨fun hp => inPhase_of_ne hp _, fun hI hp => ?_⟩
  obtain ⟨r, hr⟩ := hI.rooted hp
  obtain ⟨tr, ht⟩ := Option.isSome_iff_exists.1 (hr.forest.trees r (List.mem_singleton_self r))
  have hnodup := hr.forest.codes_symbols_nodup ht hI.distForm
  refine ⟨r, codeSetAll [] tr.codes, hr.root, codeSetAll_wf List.Pairwise.nil _, fun sym bits => ?_, ?_⟩
  · exact (codeSetAll_nil_perm hnodup).mem_iff.trans (mem_codes_iff_leafAt ht)
  · have hexec := execGencode_of_tree hp hr.root ht hnodup
    rw [hr.code] at hexec
    exact hexec

theorem execLookup_of_some {sym : Symbol} {bits : Bits} (hp : s.phase = .ready) (h : codeGet s.code sym = some bits) :
    execLookup sym s = answer (.hit bits) s := by
  simp only [execLookup, inPhase_of_eq hp, h]

theorem execLookup_of_none {sym : Symbol} (hp : s.phase = .ready) (h : codeGet s.code sym = none) :
    execLookup sym s = answer .miss s := by
  simp only [execLookup, inPhase_of_eq hp, h]

/-- Settles O25: LOOKUP answers what `codeGet` finds; the symbols of a built table are those of DIST
(`Built.exists_code_iff`), and a code is shorter than DIST is long. -/
theorem lookupReadsTheTable : Obligations.LookupReadsTheTable := by
  refine fun sym s => ⟨fun hp => inPhase_of_ne hp _, fun hp hwf => ⟨fun bits hmem => ?_, fun hmiss => ?_⟩,
    fun hI hp => ?_⟩
  · exact execLookup_of_some hp (codeGet_of_mem hwf hmem)
  · exact execLookup_of_none hp (codeGet_eq_none hmiss)
  · obtain ⟨r, c, tr, hb⟩ := hI.built (.inl hp)
    refine ⟨hb.exists_code_iff hI.distForm, hb.dist_length_of_nil_mem_code hI.distForm, fun e hone hsym => ?_⟩
    obtain ⟨bits, hbits⟩ := (hb.exists_code_iff hI.distForm).2 ⟨e, by simp [hone], hsym⟩
    have hlt : bits.length < s.dist.length := hb.code_length_lt_dist hI.distForm hbits
    rw [hone, List.length_singleton, Nat.lt_one_iff, List.length_eq_zero_iff] at hlt
    exact hlt ▸ hbits

/-! ### The code is prefix-free and complete (R122, R123) -/

/-- Settles O26, by `Tree.symbol_eq_of_code_prefix`: a table that is not empty holds the codes of one tree. -/
theorem codesPrefixFree : Obligations.CodesPrefixFree := by
  intro s hI p hp q hq hne
  have hpre : ¬ p.2 <+: q.2 := by
    obtain hnil | ⟨r, c, tr, hb⟩ := hI.code_eq_nil_or_built
    · simp [hnil] at hp
    · have hperm := hb.code_perm hI.distForm
      exact fun h => hne (Tree.symbol_eq_of_code_prefix (hperm.mem_iff.1 hp) (hperm.mem_iff.1 hq) h)
  exact ⟨hpre, fun heq => hpre (heq ▸ List.prefix_refl _)⟩

/-- Settles O27: the codes are as many as the entries of DIST, their lengths are those of paths in a tree of as many
leaves, and their weights add up to 1 (`Tree.kraftSum_codes`). -/
theorem codeLengthsComplete : Obligations.CodeLengthsComplete := by
  intro s hI hp
  obtain ⟨r, c, tr, hb⟩ := hI.built hp
  refine ⟨by simpa using (hb.code_symbols_perm hI.distForm).length_eq, fun hone p hmem => ?_, fun htwo p hmem => ?_,
    hb.kraftSum_code hI.distForm⟩
  all_goals have hlt := hb.code_length_lt_dist hI.distForm hmem
  · omega
  · exact ⟨hb.code_length_pos hI.distForm htwo hmem, Nat.le_sub_one_of_lt hlt⟩

end Sys2Proof.Machine

/-! ## The automaton (R130 to R134) -/

namespace Sys2Proof.Machine

open Sys2Proof.Machine.Claims

/-! ### CURRST (R131) -/

/-- Settles O28: the phase test, and the one assignment behind it. -/
theorem currstSetsCursorToRoot : Obligations.CurrstSetsCursorToRoot :=
  fun _ => ⟨fun hp => inPhase_of_ne hp _, fun hp => inPhase_of_eq hp _⟩

/-! ### STEP (R130, R132) -/

theorem isLeaf_eq_decide (n : NodeRec) : n.isLeaf = decide (leafRecord n) := by
  rw [Bool.eq_iff_iff, isLeaf_iff, decide_eq_true_iff]

section Step

variable {s : State} {r c : Nat} {bit : Bit} (hp : s.phase = .ready) (hc : s.cur = some c) (hr : s.root = some r)
include hp hc hr

theorem execStep_of_goesTo {k : Nat} {n : NodeRec} (h : goesTo s.node r c bit k n) :
    execStep bit s = answered (.moved k n (decide (leafRecord n))) { s with cur := some k } := by
  simp only [execStep, inPhase_of_eq hp, hc, hr, advance_of_goesTo h, h.1, isLeaf_eq_decide]
  rfl

theorem execStep_of_stuckAt {c1 : Nat} (h : stuckAt s.node r c bit c1) :
    execStep bit s = failed .corruptStream (BitVec.ofNat 64 c1) { s with cur := s.root } := by
  simp only [execStep, inPhase_of_eq hp, hc, hr, advance_missing.2 h]
  rfl

end Step

/-! ### Built trees (R133) -/

theorem not_leafRecord_of_childOf {n : NodeRec} {bit : Bit} {k : Nat} (h : childOf bit n = some k) :
    ¬ leafRecord n := by
  rintro ⟨hl, hr⟩
  cases bit <;> simp [childOf, hl, hr] at h

/-- A record that is no leaf is internal, and both its children are in the table (R36 (b), R64). -/
theorem Forest.exists_child {s : State} {roots : List Nat} (h : Forest s roots) {p : Nat} {n : NodeRec}
    (hp : s.node[p]? = some n) (hn : ¬ leafRecord n) (bit : Bit) :
    ∃ k nk, childOf bit n = some k ∧ s.node[k]? = some nk := by
  obtain ⟨k, hk⟩ : ∃ k, childOf bit n = some k := by
    obtain ⟨l, r, hl, hr, -⟩ := internalOk_iff.1 ((h.leaf_or_internal hp).resolve_left hn)
    cases bit with
    | false => exact ⟨l, hl⟩
    | true => exact ⟨r, hr⟩
  exact ⟨k, _, hk, List.getElem?_eq_getElem (h.child_lt (List.mem_of_getElem? hp) hk)⟩

section Built

variable {s : State} {r c : Nat} {tr : Tree} (h : Built s r c tr) (hlen : 2 ≤ s.dist.length)
include h hlen

/-- Of two or more symbols the last node is no leaf: the leaves come first in the table. -/
theorem Built.root_not_leafRecord {n : NodeRec} (hn : s.node[r]? = some n) : ¬ leafRecord n := by
  obtain ⟨-, hr⟩ := h.node_length_and_root
  have hmem := List.mem_range.2 h.root_lt
  obtain ⟨l, _, hl, -⟩ := internalOk_iff.1 (h.forest.internal r hmem (by omega) n hn)
  exact not_leafRecord_of_childOf (bit := false) hl

/-- From a leaf the bit is applied at the root, from another node at that node; neither is a leaf. -/
theorem Built.exists_goesTo (bit : Bit) : ∃ k n, goesTo s.node r c bit k n := by
  obtain ⟨c1, n1, happ, hn1⟩ : ∃ c1 n1, appliedAt s.node r c c1 n1 ∧ ¬ leafRecord n1 := by
    obtain ⟨nc, hc⟩ : ∃ nc, s.node[c]? = some nc := ⟨_, List.getElem?_eq_getElem h.inTable⟩
    have hr := List.getElem?_eq_getElem h.root_lt
    by_cases hleaf : leafRecord nc
    · exact ⟨r, _, ⟨_, hc, fun _ => rfl, fun hl => absurd hleaf hl, hr⟩, h.root_not_leafRecord hlen hr⟩
    · exact ⟨c, _, ⟨_, hc, fun hl => absurd hl hleaf, fun _ => rfl, hc⟩, hleaf⟩
  have ⟨_, _, _, _, hget⟩ := happ
  obtain ⟨k, n, hk, hn⟩ := h.forest.exists_child hget hn1 bit
  exact ⟨k, n, hn, c1, n1, happ, hk⟩

end Built

/-- Settles O30: on a built tree every bit selects a child (`Built.exists_goesTo`). -/
theorem automatonTotalOnBuiltTrees : Obligations.AutomatonTotalOnBuiltTrees := by
  intro bit s hI hp hlen
  obtain ⟨r, c, tr, hb⟩ := hI.built (.inl hp)
  obtain ⟨k, n, hgoes⟩ := hb.exists_goesTo hlen bit
  exact ⟨k, n, hgoes.1, execStep_of_goesTo hp hb.cur hb.root hgoes⟩

/-- Settles O29: the child that the bit selects decides between the move and the error; on a built tree it is always
there (O30). -/
theorem stepMovesTheCursor : Obligations.StepMovesTheCursor := by
  refine ⟨fun bit s hp => inPhase_of_ne hp _, ?_, ?_⟩
  · intro bit s c r c1 nc n1 hp hc hr hnc hleaf hinner hn1
    have happ : appliedAt s.node r c c1 n1 := ⟨nc, hnc, hleaf, hinner, hn1⟩
    exact ⟨fun k n hk hn => execStep_of_goesTo hp hc hr ⟨hn, c1, n1, happ, hk⟩,
      fun hnone => execStep_of_stuckAt hp hc hr ⟨n1, happ, hnone⟩⟩
  · intro bit s t cause info hI hp hlen ht
    obtain ⟨k, n, -, hmoved⟩ := automatonTotalOnBuiltTrees bit s hI hp hlen
    cases hmoved.symm.trans ht
    simp

/-! ### The bits of a code (R134) -/

section Follow

variable {nodes : List NodeRec} {k j : Nat}

theorem exists_child_of_follow_cons {bit : Bit} {bits : Bits} (h : follow nodes k (bit :: bits) = some j) :
    ∃ n k', nodes[k]? = some n ∧ childOf bit n = some k' ∧ follow nodes k' bits = some j := by
  rcases hk : nodes[k]? with _ | n
  · simp [follow, hk] at h
  · rw [follow_cons hk] at h
    obtain ⟨k', hk', hrest⟩ := Option.bind_eq_some_iff.1 h
    exact ⟨n, k', rfl, hk', hrest⟩

theorem follow_append (front back : Bits) :
    follow nodes k (front ++ back) = (follow nodes k front).bind (follow nodes · back) := by
  induction front generalizing k with
  | nil => rfl
  | cons bit front ih =>
    rcases hk : nodes[k]? with _ | n
    · simp [follow, hk]
    · simp [follow_cons hk, ih, Option.bind_assoc]

end Follow

/-- The bits of a path, one per STEP, lead along the path, when the first is applied at its beginning `c1`: a node
from which the path goes on is no leaf, so there the next bit is applied at that node. -/
theorem runPrims_step_of_follow {s : State} {r c c1 j : Nat} {n1 n : NodeRec} {bits : Bits} (hp : s.phase = .ready)
    (hc : s.cur = some c) (hr : s.root = some r) (happ : appliedAt s.node r c c1 n1)
    (hpath : follow s.node c1 bits = some j) (hj : s.node[j]? = some n) (hne : bits ≠ []) :
    ∃ t, runPrims (bits.map .step) s = .next t ∧
      t.port.resp = some (.ok (.moved j n (decide (leafRecord n)))) ∧ t.cur = some j := by
  induction bits generalizing s c c1 n1 with
  | nil => exact absurd rfl hne
  | cons bit bits ih =>
    have ⟨_, _, _, _, hn1⟩ := happ
    rw [follow_cons hn1] at hpath
    obtain ⟨k, hk, hpath⟩ := Option.bind_eq_some_iff.1 hpath
    simp only [List.map_cons, runPrims_cons_eq_andThen]
    cases bits with
    | nil =>
      obtain rfl : k = j := Option.some.inj hpath
      have hstep : exec (.step bit) s = _ := execStep_of_goesTo hp hc hr ⟨hj, c1, n1, happ, hk⟩
      rw [andThen_of_ok _ hstep rfl]
      exact ⟨_, rfl, rfl, rfl⟩
    | cons bit' bits =>
      obtain ⟨nk, k', hnk, hk', -⟩ := exists_child_of_follow_cons hpath
      have hstep : exec (.step bit) s = _ := execStep_of_goesTo hp hc hr ⟨hnk, c1, n1, happ, hk⟩
      have happ' : appliedAt s.node r k k nk :=
        ⟨nk, hnk, fun hl => absurd hl (not_leafRecord_of_childOf hk'), fun _ => rfl, hnk⟩
      rw [andThen_of_ok _ hstep rfl]
      exact ih hp rfl hr happ' hpath hj (List.cons_ne_nil _ _)

/-- Settles O31: a code is the path of its leaf (`mem_codes_iff_leafAt`), STEP follows it from the root
(`runPrims_step_of_follow`), and where a beginning of it ends the path goes on, so no leaf is there. -/
theorem stepsFollowOneCode : Obligations.StepsFollowOneCode := by
  intro s sym bits c nc hI hp hc hnc hstart hmem hne
  obtain ⟨r, _, tr, hb⟩ := hI.built (.inl hp)
  have happ : appliedAt s.node r c r (s.node[r]'hb.root_lt) := by
    refine ⟨nc, hnc, fun _ => rfl, fun hl => ?_, List.getElem?_eq_getElem hb.root_lt⟩
    exact Option.some.inj (hb.root.symm.trans (hstart.resolve_right hl))
  obtain ⟨j, n, hpath, hn, hleaf, hsym⟩ :=
    (mem_codes_iff_leafAt hb.tree).1 ((hb.code_perm hI.distForm).mem_iff.1 hmem)
  refine ⟨?_, ?_⟩
  · obtain ⟨t, ht, hresp, hcur⟩ := runPrims_step_of_follow hp hc hb.root happ hpath hn hne
    exact ⟨t, j, n, ht, decide_eq_true hleaf ▸ hresp, hsym, hcur⟩
  · rintro shorter ⟨rest, rfl⟩ hshort hproper
    rw [follow_append] at hpath
    obtain ⟨k, hk, hrest⟩ := Option.bind_eq_some_iff.1 hpath
    cases rest with
    | nil => simp at hproper
    | cons bit rest =>
      obtain ⟨nk, k', hnk, hk', -⟩ := exists_child_of_follow_cons hrest
      obtain ⟨t, ht, hresp, -⟩ := runPrims_step_of_follow hp hc hb.root happ hk hnk hshort
      exact ⟨t, k, nk, ht, decide_eq_false (not_leafRecord_of_childOf hk') ▸ hresp⟩

end Sys2Proof.Machine

/-! ## The decoder (R140 to R142) -/

namespace Sys2Proof.Machine

open Sys2Proof.Machine.Claims

variable {s : State} {r c k left : Nat} {b : Byte} {bits : Bits} {vs : List U32}

/-! ### DECBEGIN and DECEND (R140, R142) -/

/-- Settles O32: the phase test, and the assignments behind it. -/
theorem decbeginOpensSession : Obligations.DecbeginOpensSession :=
  fun _ => ⟨fun hp => inPhase_of_ne hp _, fun hp => inPhase_of_eq hp _⟩

/-- Settles O36: the header test, the count test, and the answer behind both. -/
theorem decendClosesSession : Obligations.DecendClosesSession := by
  refine fun s => ⟨fun hp => inPhase_of_ne hp _, fun hp h8 => ?_, fun hp h8 h0 => ?_, fun hp h8 h0 => ?_⟩
  all_goals refine (inPhase_of_eq hp _).trans ?_
  · rw [if_pos h8, ← BitVec.ofNat_toNat]
    rfl
  · rw [if_neg h8.not_gt, if_pos (Nat.pos_of_ne_zero fun h => h0 (BitVec.eq_of_toNat_eq h))]
    rfl
  · rw [if_neg h8.not_gt, if_neg (by simp [h0])]
    rfl

/-! ### The header bytes (R141) -/

theorem answerPixels_nil (s : State) : answerPixels [] s = answered (.pixels []) s := by
  simp [answerPixels, answer, setPixels, respond]

theorem pixelCount_eq (w h : U32) : pixelCount w h = BitVec.ofNat 64 (w.toNat * h.toNat) := by
  rw [← pixelCount_toNat, BitVec.ofNat_toNat, BitVec.setWidth_eq]

theorem pixelWrites_fillRuns (n w : Nat) (v : U32) :
    pixelWrites (fillRuns n w v) = (List.range n).map fun i => (i % w, i / w, v) := by
  cases n with
  | zero => rfl
  | succ n => simp [fillRuns, pixelWrites, PixelRun.writes]

section Start

variable {n : NodeRec} (hn : s.node[r]? = some n) (w h : U32)
include hn

theorem startPixels_of_inner (hi : ¬ leafRecord n) :
    startPixels r w h s = answered (.pixels [])
      { s with dW := w, dH := h, dIdx := 0, dRem := BitVec.ofNat 64 (w.toNat * h.toNat) } := by
  rw [startPixels, hn]
  simp only [if_neg (fun hl => hi (isLeaf_iff.1 hl)), answerPixels_nil, pixelCount_eq]

/-- A tree of one leaf has every pixel written from the header alone. -/
theorem startPixels_of_leaf (hl : leafRecord n) :
    ∃ ps, pixelWrites ps = (List.range (w.toNat * h.toNat)).map (fun i =>
        (i % w.toNat, i / w.toNat, toNative s.cfg n.symbol)) ∧
      startPixels r w h s = answered (.pixels ps) (drawing ps
        { s with dW := w, dH := h, dIdx := BitVec.ofNat 64 (w.toNat * h.toNat), dRem := 0 }) := by
  refine ⟨_, pixelWrites_fillRuns .., ?_⟩
  rw [startPixels, hn]
  simp only [if_pos (isLeaf_iff.2 hl), pixelCount_toNat]
  rw [pixelCount_eq]
  rfl

end Start

section Session

variable (hp : s.phase = .dec) (hr : s.root = some r)
include hp hr

theorem execDecbyte_of_header (h8 : s.dHb.toNat < 8) : execDecbyte b s = headerByte r b s := by
  simp only [execDecbyte, inPhase_of_eq hp, hr, if_pos h8]

theorem execDecbyte_of_body (h8 : 8 ≤ s.dHb.toNat) : execDecbyte b s = bodyByte r b s := by
  simp only [execDecbyte, inPhase_of_eq hp, hr, if_neg h8.not_gt]

theorem execDecbyte_of_early (h7 : s.dHb.toNat < 7) :
    execDecbyte b s = answered (.pixels [])
      { s with dHdr := s.dHdr ++ [b], dHb := BitVec.ofNat 4 (s.dHb.toNat + 1) } := by
  have hne : s.dHb + 1 ≠ 8 := fun h => by
    have : s.dHb.toNat = 7 := by rw [eq_sub_of_add_eq h]; rfl
    omega
  rw [execDecbyte_of_header hp hr (h7.trans (by decide)), BitVec.ofNat_add, BitVec.ofNat_toNat, BitVec.setWidth_eq]
  exact (if_neg hne).trans (answerPixels_nil _)

/-- The eighth byte completes the header. -/
theorem execDecbyte_of_eighth (h7 : s.dHb.toNat = 7) {w h : U32} (hhdr : s.dHdr ++ [b] = headerBytes w h) :
    execDecbyte b s = startPixels r w h { s with dHdr := headerBytes w h, dHb := 8 } := by
  have hb : s.dHb + 1 = 8 := BitVec.eq_of_toNat_eq (by simp [h7])
  rw [execDecbyte_of_header hp hr (h7.trans_lt (by decide))]
  refine (if_pos hb).trans ?_
  rw [hhdr, hb]
  show startPixels r (be32 ..) (be32 ..) _ = _
  rw [be32_of_be32bytes (v := w) rfl, be32_of_be32bytes (v := h) rfl]

end Session

/-- Settles O33: `execDecbyte_of_early` for the first seven bytes, `execDecbyte_of_eighth` for the last, where the root
decides who writes the pixels. -/
theorem decbyteTakesHeader : Obligations.DecbyteTakesHeader := by
  intro b s r
  refine ⟨fun hp => inPhase_of_ne hp _, execDecbyte_of_early, ?_⟩
  intro b0 b1 b2 b3 b4 b5 b6 n w h hp hr hn h7 hhdr hw hh
  have hdims : s.dHdr ++ [b] = headerBytes w h := by
    obtain rfl : be32 b0 b1 b2 b3 = w := BitVec.eq_of_toNat_eq ((append_toNat ..).trans hw.symm)
    obtain rfl : be32 b4 b5 b6 b = h := BitVec.eq_of_toNat_eq ((append_toNat ..).trans hh.symm)
    rw [headerBytes, be32bytes_be32, be32bytes_be32, hhdr]
    rfl
  rw [hdims]
  have hexec : exec (.decbyte b) s = _ := execDecbyte_of_eighth hp hr h7 hdims
  rw [hexec]
  exact ⟨startPixels_of_inner (s := { s with dHdr := _, dHb := 8 }) hn w h,
    startPixels_of_leaf (s := { s with dHdr := _, dHb := 8 }) hn w h⟩

/-! ### The body bytes (R141) -/

theorem Feeds.nil_of_left_zero (h : Feeds s r c 0 bits k vs) : bits = [] ∧ vs = [] ∧ k = c := by
  cases h with
  | nil => exact ⟨rfl, rfl, rfl⟩
  | inner hl => exact absurd hl (by decide)
  | leaf hl => exact absurd hl (by decide)

/-- A body byte writes the pixels of the bits it feeds. -/
theorem execDecbyte_of_feeds {fed skipped : Bits} (hp : s.phase = .dec) (hr : s.root = some r) (hc : s.cur = some c)
    (h8 : 8 ≤ s.dHb.toNat) (hbits : bitsOf b = fed ++ skipped) (hf : Feeds s r c s.dRem.toNat fed k vs)
    (hskip : skipped ≠ [] → vs.length = s.dRem.toNat) (hidx : s.dIdx.toNat + vs.length < 2 ^ 64) :
    ∃ ps, pixelWrites ps = placedFrom s.dIdx.toNat s.dW.toNat vs ∧
      execDecbyte b s = answered (.pixels ps) (drawing ps
        { s with cur := some k, dIdx := BitVec.ofNat 64 (s.dIdx.toNat + vs.length),
                 dRem := BitVec.ofNat 64 (s.dRem.toNat - vs.length) }) := by
  rw [execDecbyte_of_body hp hr h8, bodyByte]
  by_cases h0 : s.dRem = 0
  · rw [h0] at hf
    obtain ⟨-, rfl, rfl⟩ := hf.nil_of_left_zero
    refine ⟨[], rfl, ?_⟩
    rw [if_pos h0, answerPixels_nil]
    simp [← hc]
  · obtain ⟨ps, hps, hwalk⟩ := walkBits_of_feeds hf ⟨c, s.dIdx, s.dRem, []⟩ skipped rfl rfl hidx
    refine ⟨ps, hps, ?_⟩
    have hrest (w : Walk) (hw : w.rem = BitVec.ofNat 64 (s.dRem.toNat - vs.length)) :
        walkBits s r skipped w = .done w := by
      cases skipped with
      | nil => rfl
      | cons bit bits => rw [walkBits, if_pos (by simp [hw, hskip])]
    rw [hrest _ rfl] at hwalk
    simp only [if_neg h0, hc, hbits, hwalk, List.nil_append]
    rfl

/-- A record without children is that of an entry of DIST. -/
theorem Forest.exists_leafOf {roots : List Nat} (h : Forest s roots) {p : Nat} {n : NodeRec}
    (hp : s.node[p]? = some n) (hl : leafRecord n) : ∃ e ∈ s.dist, n = leafOf e := by
  have hlt : p < s.dist.length := by
    by_contra hge
    obtain ⟨l, _, hleft, -⟩ := internalOk_iff.1
      (h.internal p (List.mem_range.2 (List.getElem?_eq_some_iff.1 hp).1) (not_lt.1 hge) n hp)
    exact not_leafRecord_of_childOf (bit := false) hleft hl
  have hleaf : (s.dist.map leafOf)[p]? = some n := by rw [← h.leaves, List.getElem?_take_of_lt hlt, hp]
  obtain ⟨e, he, rfl⟩ := List.mem_map.1 (List.mem_of_getElem? hleaf)
  exact ⟨e, he, rfl⟩

/-- Every leaf that a bit reaches is that of a scanned symbol. -/
theorem Forest.feeds_colours {roots : List Nat} (hforest : Forest s roots) (h : Feeds s r c left bits k vs) :
    ∀ v ∈ vs, ∃ e ∈ s.dist, v = toNative s.cfg e.symbol := by
  induction h with
  | nil => simp
  | inner _ _ _ _ ih => exact ih
  | leaf _ hg hn _ ih =>
    obtain ⟨e, he, rfl⟩ := hforest.exists_leafOf hg.1 hn
    exact List.forall_mem_cons.2 ⟨⟨e, he, rfl⟩, ih⟩

section Built

variable {tr : Tree} (h : Built s r c tr)
include h

theorem Built.withCursor (hk : k < s.node.length) : Built { s with cur := some k } r k tr :=
  { h with cur := rfl, inTable := hk, forest := h.forest.congr rfl rfl rfl }

/-- While a pixel is left there are two symbols, so no bit is stuck. -/
theorem Built.two_le_dist (h0 : s.dRem ≠ 0) : 2 ≤ s.dist.length := by
  have hone : s.node.length ≠ 1 := fun h1 => h0 (h.oneColour h1)
  have := List.length_pos_iff.2 h.forest.scanned
  have := h.node_length_and_root.1
  omega

/-- Every bitstring is fed to a built tree, up to the last pixel. -/
theorem Built.exists_feeds (hlen : 2 ≤ s.dist.length) (bits : Bits) (left : Nat) (hc : k < s.node.length) :
    ∃ fed skipped k' vs, bits = fed ++ skipped ∧ Feeds s r k left fed k' vs ∧ k' < s.node.length ∧
      (skipped ≠ [] → vs.length = left) := by
  induction bits generalizing k left with
  | nil => exact ⟨[], [], k, [], rfl, .nil, hc, by simp⟩
  | cons bit bits ih =>
    rcases Nat.eq_zero_or_pos left with rfl | hl
    · exact ⟨[], bit :: bits, k, [], rfl, .nil, hc, fun _ => rfl⟩
    obtain ⟨j, n, hg⟩ := (h.withCursor hc).exists_goesTo hlen bit
    have hj : j < s.node.length := (List.getElem?_eq_some_iff.1 hg.1).1
    by_cases hleaf : leafRecord n
    · obtain ⟨fed, skipped, k', vs, rfl, hf, hk', hskip⟩ := ih (left - 1) hj
      refine ⟨bit :: fed, skipped, k', _, rfl, .leaf hl hg hleaf hf, hk', fun hs => ?_⟩
      rw [List.length_cons, hskip hs]
      omega
    · obtain ⟨fed, skipped, k', vs, rfl, hf, hk', hskip⟩ := ih left hj
      exact ⟨bit :: fed, skipped, k', vs, rfl, .inner hl hg hleaf hf, hk', hskip⟩

end Built

/-- Settles O34: on a built tree the bits of the byte are fed to the end or to the last pixel (`Built.exists_feeds`),
and the byte writes what they reach (`execDecbyte_of_feeds`). -/
theorem decbyteWritesNextPixels : Obligations.DecbyteWritesNextPixels := by
  intro b s
  refine ⟨fun r hp hr h8 h0 => ?_, fun hI hp h8 h0 => ?_⟩
  · show execDecbyte b s = _
    rw [execDecbyte_of_body hp hr h8, bodyByte, if_pos h0, answerPixels_nil]
  · obtain ⟨r, c, tr, hb⟩ := hI.built (.inr (.inr hp))
    obtain ⟨fed, skipped, k, vs, hbits, hf, hk, hskip⟩ :=
      hb.exists_feeds (hb.two_le_dist h0) (bitsOf b) s.dRem.toNat hb.inTable
    obtain ⟨hfed, hleft⟩ := feeds_length hf
    have htotal := (hI.decoder.parsed (hI.decoder.bound.antisymm h8)).2
    have hcount := (pixelCount s.dW s.dH).isLt
    rw [pixelCount_toNat] at hcount
    obtain ⟨ps, hps, hexec⟩ := execDecbyte_of_feeds hp hb.root hb.cur h8 hbits hf hskip (by omega)
    have hle : fed.length ≤ 8 := by
      rw [← bitsOf_length b, hbits, List.length_append]
      omega
    exact ⟨r, c, k, fed, skipped, ps, vs, hb.root, hb.cur, hbits, hf, hskip, hfed.trans hle, hleft, hk,
      hb.forest.feeds_colours hf, hps, hexec⟩

end Sys2Proof.Machine

/-! ## DECODE (R143 to R146) -/

namespace Sys2Proof.Machine

open Sys2Proof.Machine.Claims

variable {s : State} {r c k left : Nat} {bits : Bits} {vs : List U32}

/-! ### A session whose header arrives (R140, R141) -/

/-- `s` with a session opened, the header bytes `hdr` received but not read, and `p` at the port. -/
def opened (s : State) (hdr : List Byte) (p : Port) : State :=
  { s with dHb := BitVec.ofNat 4 hdr.length, dHdr := hdr, dW := 0, dH := 0, dRem := 0, dIdx := 0, cur := s.root,
           phase := .dec, port := p }

theorem opened_dHb_toNat (s : State) {hdr : List Byte} (p : Port) (h : hdr.length ≤ 7) :
    (opened s hdr p).dHb.toNat = hdr.length := by
  rw [opened, BitVec.toNat_ofNat, Nat.mod_eq_of_lt (by omega)]

/-- One primitive alone has its own outcome. -/
theorem runPrims_singleton (i : Instr) (s : State) : runPrims [i] s = exec i s := by
  rw [runPrims_cons_eq_andThen]
  cases exec i s with
  | next t => rw [andThen_next]; split <;> rfl
  | fault f => rfl
  | refused q => rfl

section Header

variable (hr : s.root = some r)
include hr

/-- The first seven header bytes are kept, and no pixel is written. -/
theorem runPrims_decbyte_opened (is : List Instr) {hdr bytes : List Byte} (p : Port)
    (h7 : (hdr ++ bytes).length ≤ 7) :
    ∃ p', p'.pixelsOut = p.pixelsOut ∧
      runPrims (bytes.map .decbyte ++ is) (opened s hdr p) = runPrims is (opened s (hdr ++ bytes) p') := by
  induction bytes generalizing hdr p with
  | nil => exact ⟨p, rfl, by simp⟩
  | cons b bytes ih =>
    have hlen : hdr.length < 7 := by
      rw [List.length_append, List.length_cons] at h7
      omega
    have hexec : exec (.decbyte b) (opened s hdr p) = _ :=
      execDecbyte_of_early rfl hr (by rwa [opened_dHb_toNat s p hlen.le])
    rw [opened_dHb_toNat s p hlen.le] at hexec
    rw [List.append_cons] at h7 ⊢
    obtain ⟨p', hp', hrun⟩ := ih { p with resp := some (.ok (.pixels [])) } h7
    refine ⟨p', hp', ?_⟩
    rw [List.map_cons, List.cons_append, runPrims_cons_eq_andThen, andThen_of_ok _ hexec rfl, ← hrun]
    simp [opened]

section Decode

variable (hp : s.phase = .ready)
include hp

/-- DECODE opens a session and takes up to seven header bytes. -/
theorem runMacro_decode_opened {early : List Byte} (late : List Byte) (h7 : early.length ≤ 7) :
    ∃ p, p.pixelsOut = s.port.pixelsOut ∧
      runMacro (.decode (early ++ late)) s = runPrims (late.map .decbyte ++ [.decend]) (opened s early p) := by
  have hbegin : exec .decbegin (respond (.ok .nothing) s) =
      .next (opened s [] { s.port with resp := some (.ok .nothing) }) := inPhase_of_eq hp _
  obtain ⟨p, hpix, hrun⟩ := runPrims_decbyte_opened hr (late.map .decbyte ++ [.decend]) (hdr := [])
    { s.port with resp := some (.ok .nothing) } h7
  refine ⟨p, hpix, ?_⟩
  rw [List.nil_append, ← List.append_assoc, ← List.map_append] at hrun
  rw [← hrun, ← andThen_of_ok (runPrims _) hbegin rfl, ← runPrims_cons_eq_andThen]
  rfl

/-- DECODE of a complete header gives the dimensions, and then takes the body. -/
theorem runMacro_decode_header (w h : U32) (body : List Byte) :
    ∃ p, p.pixelsOut = s.port.pixelsOut ∧
      runMacro (.decode (headerBytes w h ++ body)) s =
        andThen (startPixels r w h (opened s (headerBytes w h) p)) (runPrims (body.map .decbyte ++ [.decend])) := by
  obtain ⟨early, b, hhdr, h7⟩ : ∃ early b, headerBytes w h = early ++ [b] ∧ early.length = 7 :=
    ⟨(headerBytes w h).take 7, h.extractLsb' 0 8, rfl, rfl⟩
  obtain ⟨p, hpix, hrun⟩ := runMacro_decode_opened hr hp (b :: body) h7.le
  have hexec : exec (.decbyte b) (opened s early p) = startPixels r w h (opened s (headerBytes w h) p) :=
    execDecbyte_of_eighth (s := opened s early p) rfl hr ((opened_dHb_toNat s p h7.le).trans h7) hhdr.symm
  refine ⟨p, hpix, ?_⟩
  rw [← hexec, ← runPrims_cons_eq_andThen, hhdr, List.append_assoc]
  exact hrun

end Decode

end Header

/-- Settles O51: the bytes are kept as a header that DECEND finds short. -/
theorem decodeShortFileFails : Obligations.DecodeShortFileFails := by
  intro s bytes hI hp hlen
  obtain ⟨r, c, tr, hb⟩ := hI.built (.inl hp)
  obtain ⟨p, hpix, hrun⟩ := runMacro_decode_opened hb.root hp [] (Nat.le_of_lt_succ hlen)
  have hdHb := opened_dHb_toNat s p (Nat.le_of_lt_succ hlen)
  obtain ⟨-, hshort, -, -⟩ := decendClosesSession (opened s bytes p)
  rw [List.append_nil] at hrun
  have hend := hshort rfl (hdHb.trans_lt hlen)
  rw [hdHb] at hend
  exact ⟨_, hrun.trans ((runPrims_singleton _ _).trans hend), rfl, hpix⟩

/-! ### The body bytes of a session (R141) -/

/-- What bits feed depends on the records and the channel order alone. -/
theorem Feeds.congr {t : State} (h : Feeds s r c left bits k vs) (hn : t.node = s.node) (hc : t.cfg = s.cfg) :
    Feeds t r c left bits k vs := by
  induction h with
  | nil => exact .nil
  | inner hl hg hi _ ih => exact .inner hl (hn ▸ hg) hi ih
  | leaf hl hg hi _ ih => exact hc ▸ .leaf hl (hn ▸ hg) hi ih

/-- Bits are fed one part after the other, the second with the pixels that the first leaves. -/
theorem feeds_append {front back : Bits} :
    Feeds s r c left (front ++ back) k vs ↔ ∃ j vs1 vs2, Feeds s r c left front j vs1 ∧
      Feeds s r j (left - vs1.length) back k vs2 ∧ vs = vs1 ++ vs2 := by
  constructor
  · intro h
    induction front generalizing c left vs with
    | nil => exact ⟨c, [], vs, .nil, h, rfl⟩
    | cons bit front ih =>
      cases h with
      | inner hl hg hi h =>
        obtain ⟨j, vs1, vs2, h1, h2, rfl⟩ := ih h
        exact ⟨j, vs1, vs2, .inner hl hg hi h1, h2, rfl⟩
      | leaf hl hg hi h =>
        obtain ⟨j, vs1, vs2, h1, h2, rfl⟩ := ih h
        refine ⟨j, _ :: vs1, vs2, .leaf hl hg hi h1, ?_, rfl⟩
        rwa [List.length_cons, Nat.add_comm, Nat.sub_add_eq]
  · rintro ⟨j, vs1, vs2, h1, h2, rfl⟩
    induction h1 with
    | nil => exact h2
    | inner hl hg hi _ ih => exact .inner hl hg hi (ih h2)
    | leaf hl hg hi _ ih =>
      rw [List.length_cons, Nat.add_comm, Nat.sub_add_eq] at h2
      exact .leaf hl hg hi (ih h2)

theorem placedFrom_append (first w : Nat) (vs1 vs2 : List U32) :
    placedFrom first w (vs1 ++ vs2) = placedFrom first w vs1 ++ placedFrom (first + vs1.length) w vs2 := by
  rw [placedFrom, List.zipIdx_append, List.map_append]

theorem pixelWrites_append (ps qs : List PixelRun) : pixelWrites (ps ++ qs) = pixelWrites ps ++ pixelWrites qs :=
  List.flatMap_append

/-- Where bits in two parts are fed up to some bit, each part is fed up to some bit, and the second only where the first
is fed to its end. -/
theorem exists_fed_of_append {front back fed skipped : Bits} (h : front ++ back = fed ++ skipped) :
    ∃ fed1 skipped1 fed2 skipped2, front = fed1 ++ skipped1 ∧ back = fed2 ++ skipped2 ∧ fed = fed1 ++ fed2 ∧
      (skipped1 ≠ [] → fed2 = [] ∧ skipped ≠ []) ∧ (skipped2 ≠ [] → skipped ≠ []) := by
  obtain ⟨fed2, rfl, rfl⟩ | ⟨skipped1, rfl, rfl⟩ := List.append_eq_append_iff.1 h
  · exact ⟨front, [], fed2, skipped, by simp, rfl, rfl, by simp, id⟩
  · exact ⟨fed, skipped1, [], back, rfl, rfl, (List.append_nil fed).symm,
      fun h => ⟨rfl, List.append_ne_nil_of_left_ne_nil h _⟩, List.append_ne_nil_of_right_ne_nil _⟩

/-- `s` after bits have been fed that lead to the node `k` and reach leaves of the colours `vs`; `p` is at the port. -/
def afterFeed (k : Nat) (vs : List U32) (p : Port) (s : State) : State :=
  { s with cur := some k, dIdx := BitVec.ofNat 64 (s.dIdx.toNat + vs.length),
           dRem := BitVec.ofNat 64 (s.dRem.toNat - vs.length), port := p }

theorem afterFeed_nil (h : s.cur = some k) : afterFeed k [] s.port s = s := by
  simp [afterFeed, ← h]

theorem afterFeed_dIdx_toNat (p : Port) (h : s.dIdx.toNat + vs.length < 2 ^ 64) :
    (afterFeed k vs p s).dIdx.toNat = s.dIdx.toNat + vs.length := by
  rw [afterFeed, BitVec.toNat_ofNat, Nat.mod_eq_of_lt h]

theorem afterFeed_dRem_toNat (p : Port) : (afterFeed k vs p s).dRem.toNat = s.dRem.toNat - vs.length := by
  rw [afterFeed, BitVec.toNat_ofNat, Nat.mod_eq_of_lt ((Nat.sub_le ..).trans_lt s.dRem.isLt)]

theorem afterFeed_afterFeed (j : Nat) {vs1 vs2 : List U32} (p q : Port) (h : s.dIdx.toNat + vs1.length < 2 ^ 64) :
    afterFeed k vs2 q (afterFeed j vs1 p s) = afterFeed k (vs1 ++ vs2) q s := by
  rw [afterFeed, afterFeed_dIdx_toNat p h, afterFeed_dRem_toNat, Nat.add_assoc, Nat.sub_sub, ← List.length_append]
  rfl

/-- The body bytes write the pixels of the bits they feed. -/
theorem runPrims_decbyte_of_feeds (is : List Instr) {body : List Byte} {fed skipped : Bits} (hp : s.phase = .dec)
    (hr : s.root = some r) (hc : s.cur = some c) (h8 : 8 ≤ s.dHb.toNat) (hbits : body.flatMap bitsOf = fed ++ skipped)
    (hf : Feeds s r c s.dRem.toNat fed k vs) (hskip : skipped ≠ [] → vs.length = s.dRem.toNat)
    (hidx : s.dIdx.toNat + vs.length < 2 ^ 64) :
    ∃ ps p, pixelWrites ps = placedFrom s.dIdx.toNat s.dW.toNat vs ∧ p.pixelsOut = s.port.pixelsOut ++ ps ∧
      runPrims (body.map .decbyte ++ is) s = runPrims is (afterFeed k vs p s) := by
  induction body generalizing s c fed skipped vs with
  | nil =>
    obtain ⟨rfl, -⟩ := List.append_eq_nil_iff.1 hbits.symm
    cases hf
    exact ⟨[], s.port, rfl, (List.append_nil _).symm, by rw [afterFeed_nil hc]; rfl⟩
  | cons b body ih =>
    obtain ⟨fed1, skipped1, fed2, skipped2, hb, hbody, rfl, hskip1, hskip2⟩ := exists_fed_of_append hbits
    obtain ⟨j, vs1, vs2, hf1, hf2, rfl⟩ := feeds_append.1 hf
    rw [List.length_append] at hskip hidx
    have hlen1 : skipped1 ≠ [] → vs1.length = s.dRem.toNat := fun h => by
      obtain ⟨rfl, hne⟩ := hskip1 h
      cases hf2
      exact hskip hne
    have hidx1 : s.dIdx.toNat + vs1.length < 2 ^ 64 := by omega
    obtain ⟨ps1, hps1, hexec⟩ := execDecbyte_of_feeds hp hr hc h8 hb hf1 hlen1 hidx1
    obtain ⟨p1, hp1, hresp, hstep⟩ : ∃ p1 : Port, p1.pixelsOut = s.port.pixelsOut ++ ps1 ∧
        p1.resp = some (.ok (.pixels ps1)) ∧ exec (.decbyte b) s = .next (afterFeed j vs1 p1 s) :=
      ⟨{ s.port with pixelsOut := _, resp := _ }, rfl, rfl, hexec⟩
    have hi1 := afterFeed_dIdx_toNat (k := j) p1 hidx1
    have hr1 := afterFeed_dRem_toNat (s := s) (k := j) (vs := vs1) p1
    obtain ⟨ps2, p, hps2, hp2, hrun⟩ := ih (s := afterFeed j vs1 p1 s) (vs := vs2) hp hr rfl h8 hbody
      (by rw [hr1]; exact hf2.congr rfl rfl) (fun h => by have := hskip (hskip2 h); omega) (by omega)
    refine ⟨ps1 ++ ps2, p, ?_, ?_, ?_⟩
    · rw [pixelWrites_append, placedFrom_append, hps1, hps2, hi1]
      rfl
    · rw [hp2, ← List.append_assoc, ← hp1]
      rfl
    · rw [← afterFeed_afterFeed j p1 p hidx1, ← hrun, ← andThen_of_ok (runPrims _) hstep hresp,
        ← runPrims_cons_eq_andThen]
      rfl

/-! ### A session after its header (R141, R143) -/

/-- `s` with a session opened and its header read; `rem` pixels are left to decode, the next of index `idx`. -/
def started (s : State) (w h : U32) (idx rem : U64) (p : Port) : State :=
  { opened s (headerBytes w h) p with dW := w, dH := h, dIdx := idx, dRem := rem }

theorem rowMajor_replicate (w : U32) (n : Nat) (v : U32) :
    rowMajor w (List.replicate n v) = (List.range n).map fun i => (i % w.toNat, i / w.toNat, v) :=
  List.ext_getElem (by simp) (by simp)

section Started

variable (hr : s.root = some r) (w h : U32) (body : List Byte)
include hr

section Decode

variable (hp : s.phase = .ready) {n : NodeRec} (hn : s.node[r]? = some n)
include hp hn

theorem runMacro_decode_of_inner (hi : ¬ leafRecord n) :
    ∃ p, p.pixelsOut = s.port.pixelsOut ∧ runMacro (.decode (headerBytes w h ++ body)) s =
      runPrims (body.map .decbyte ++ [.decend]) (started s w h 0 (pixelCount w h) p) := by
  obtain ⟨p, hpix, hrun⟩ := runMacro_decode_header hr hp w h body
  have hstart := startPixels_of_inner (s := opened s (headerBytes w h) p) hn w h hi
  rw [andThen_of_ok _ hstart rfl] at hrun
  rw [pixelCount_eq]
  exact ⟨{ p with resp := some (.ok (.pixels [])) }, hpix, hrun⟩

theorem runMacro_decode_of_leaf (hl : leafRecord n) :
    ∃ ps p, pixelWrites ps = rowMajor w (List.replicate (w.toNat * h.toNat) (toNative s.cfg n.symbol)) ∧
      p.pixelsOut = s.port.pixelsOut ++ ps ∧ runMacro (.decode (headerBytes w h ++ body)) s =
        runPrims (body.map .decbyte ++ [.decend]) (started s w h (pixelCount w h) 0 p) := by
  obtain ⟨p, hpix, hrun⟩ := runMacro_decode_header hr hp w h body
  obtain ⟨ps, hps, hstart⟩ := startPixels_of_leaf (s := opened s (headerBytes w h) p) hn w h hl
  rw [andThen_of_ok _ hstart rfl] at hrun
  rw [pixelCount_eq]
  exact ⟨ps, _, hps.trans (rowMajor_replicate ..).symm, congrArg (· ++ ps) hpix, hrun⟩

end Decode

/-- The body of a session writes the pixels of the bits it feeds, and DECEND ends it. -/
theorem runPrims_started (idx rem : U64) (p : Port) {fed skipped : Bits} (hbits : body.flatMap bitsOf = fed ++ skipped)
    (hf : Feeds s r r rem.toNat fed k vs) (hskip : skipped ≠ [] → vs.length = rem.toNat)
    (hidx : idx.toNat + vs.length < 2 ^ 64) :
    ∃ ps p', pixelWrites ps = placedFrom idx.toNat w.toNat vs ∧ p'.pixelsOut = p.pixelsOut ++ ps ∧
      runPrims (body.map .decbyte ++ [.decend]) (started s w h idx rem p) =
        exec .decend (afterFeed k vs p' (started s w h idx rem p)) := by
  obtain ⟨ps, p', hps, hpix, hrun⟩ := runPrims_decbyte_of_feeds [.decend] (s := started s w h idx rem p) (vs := vs)
    rfl hr hr (le_refl 8) hbits (hf.congr rfl rfl) hskip hidx
  exact ⟨ps, p', hps, hpix, hrun.trans (runPrims_singleton _ _)⟩

end Started

section Decend

variable (w h : U32) (idx : U64) {rem : U64} (p p' : Port)

/-- With every pixel written DECEND answers the dimensions. -/
theorem decend_afterFeed_of_all (hall : vs.length = rem.toNat) :
    exec .decend (afterFeed k vs p' (started s w h idx rem p)) =
      answered (.size w h) { afterFeed k vs p' (started s w h idx rem p) with phase := .ready } := by
  obtain ⟨-, -, -, hdone⟩ := decendClosesSession (afterFeed k vs p' (started s w h idx rem p))
  refine hdone rfl (le_refl 8) (BitVec.eq_of_toNat_eq ?_)
  rw [afterFeed_dRem_toNat, hall]
  exact Nat.sub_self _

/-- With pixels left DECEND raises the error with the number of those written. -/
theorem decend_afterFeed_of_fewer (hfewer : vs.length < rem.toNat) :
    exec .decend (afterFeed k vs p' (started s w h idx rem p)) =
      failed .dimensionMismatch (BitVec.ofNat 64 (idx.toNat + vs.length))
        (afterFeed k vs p' (started s w h idx rem p)) := by
  obtain ⟨-, -, hleft, -⟩ := decendClosesSession (afterFeed k vs p' (started s w h idx rem p))
  refine hleft rfl (le_refl 8) fun h0 => ?_
  have hrem := afterFeed_dRem_toNat (s := started s w h idx rem p) (k := k) (vs := vs) p'
  rw [h0] at hrem
  exact (Nat.sub_pos_of_lt hfewer).ne hrem

end Decend

/-! ### One colour (R145) -/

/-- Settles O50: the root is the leaf of the one entry of DIST, so the header alone has every pixel written, and the
body is fed no bit. -/
theorem decodeOneColourIgnoresBody : Obligations.DecodeOneColourIgnoresBody := by
  intro s w h body e hI hp hone
  obtain ⟨r, c, tr, hb⟩ := hI.built (.inl hp)
  obtain ⟨n, hn⟩ : ∃ n, s.node[r]? = some n := ⟨_, List.getElem?_eq_getElem hb.root_lt⟩
  have hnode : s.node.length = 1 := by rw [hb.node_length_and_root.1, hone, List.length_singleton]
  have hleaf : leafRecord n := isLeaf_iff.1 (hb.forest.isLeaf_of_one hnode hn)
  obtain ⟨e', he', rfl⟩ := hb.forest.exists_leafOf hn hleaf
  obtain rfl : e' = e := by simpa [hone] using he'
  obtain ⟨ps, p, hps, hpix, hrun⟩ := runMacro_decode_of_leaf hb.root w h body hp hn hleaf
  obtain ⟨qs, q, hqs, hqix, hbody⟩ := runPrims_started hb.root w h body (pixelCount w h) 0 p rfl .nil
    (fun _ => rfl) (BitVec.isLt _)
  refine ⟨_, ps ++ qs, hrun.trans (hbody.trans (decend_afterFeed_of_all w h _ p q rfl)), rfl, ?_, ?_⟩
  · rw [← List.append_assoc, ← hpix]
    exact hqix
  · rw [pixelWrites_append, hqs, hps]
    exact List.append_nil _

/-! ### The codes of a body (R143, R144) -/

/-- The bits of a path to a leaf write the leaf's pixel, when the first is applied at its beginning `c1`: a node from
which the path goes on is no leaf, so there the next bit is applied at that node. -/
theorem feeds_of_follow {c1 j : Nat} {n1 n : NodeRec} (happ : appliedAt s.node r c c1 n1)
    (hpath : follow s.node c1 bits = some j) (hj : s.node[j]? = some n) (hleaf : leafRecord n) (hne : bits ≠ [])
    (hl : 0 < left) : Feeds s r c left bits j [toNative s.cfg n.symbol] := by
  induction bits generalizing c c1 n1 with
  | nil => exact absurd rfl hne
  | cons bit bits ih =>
    have ⟨_, _, _, _, hn1⟩ := happ
    rw [follow_cons hn1] at hpath
    obtain ⟨k, hk, hpath⟩ := Option.bind_eq_some_iff.1 hpath
    cases bits with
    | nil =>
      obtain rfl : k = j := Option.some.inj hpath
      exact .leaf hl ⟨hj, c1, n1, happ, hk⟩ hleaf .nil
    | cons bit' bits =>
      obtain ⟨nk, k', hnk, hk', -⟩ := exists_child_of_follow_cons hpath
      have hinner := not_leafRecord_of_childOf hk'
      exact .inner hl ⟨hnk, c1, n1, happ, hk⟩ hinner
        (ih ⟨nk, hnk, fun h => absurd h hinner, fun _ => rfl, hnk⟩ hpath (List.cons_ne_nil _ _))

/-- Bits none of whose beginnings is a path to a leaf reach none. -/
theorem Forest.feeds_of_no_leaf {roots : List Nat} (hforest : Forest s roots) {c1 : Nat} {n1 : NodeRec}
    (happ : appliedAt s.node r c c1 n1) (hn1 : ¬ leafRecord n1) (hl : 0 < left)
    (hno : ∀ path sym, LeafAt s.node c1 path sym → ¬ path <+: bits) : ∃ k, Feeds s r c left bits k [] := by
  induction bits generalizing c c1 n1 with
  | nil => exact ⟨c, .nil⟩
  | cons bit bits ih =>
    have ⟨_, _, _, _, hget⟩ := happ
    obtain ⟨k, n, hk, hn⟩ := hforest.exists_child hget hn1 bit
    have hdown {path : Bits} {sym : Symbol} (h : LeafAt s.node k path sym) : ¬ path <+: bits := fun hpre =>
      hno (bit :: path) sym ((leafAt_cons hget).2 ⟨k, hk, h⟩) (List.cons_prefix_cons.2 ⟨rfl, hpre⟩)
    have hinner : ¬ leafRecord n := fun h => hdown ((leafAt_nil hn).2 ⟨h, rfl⟩) List.nil_prefix
    obtain ⟨k', hf⟩ := ih ⟨n, hn, fun h => absurd h hinner, fun _ => rfl, hn⟩ hinner fun _ _ => hdown
    exact ⟨k', .inner hl ⟨hn, c1, n1, happ, hk⟩ hinner hf⟩

section Codes

variable {tr : Tree} (h : Built s r c tr)
include h

theorem Built.codeGet_of_mem {sym : Symbol} {code : Bits} (hmem : (sym, code) ∈ s.code) :
    codeGet s.code sym = some code :=
  Machine.codeGet_of_mem (h.code ▸ codeSetAll_wf List.Pairwise.nil _) hmem

variable (hd : distWf s.dist)
include hd

theorem Built.mem_code_iff_leafAt {sym : Symbol} {code : Bits} :
    (sym, code) ∈ s.code ↔ LeafAt s.node r code sym :=
  (h.code_perm hd).mem_iff.trans (mem_codes_iff_leafAt h.tree)

variable (hlen : 2 ≤ s.dist.length) {nr : NodeRec} {syms : List Symbol}
include hlen

/-- The codes of symbols write their pixels in order; after each code, at a leaf, the next begins at the root again. -/
theorem Built.feeds_codes (happ : appliedAt s.node r k r nr) (hsyms : ∀ x ∈ syms, ∃ e ∈ s.dist, e.symbol = x)
    (hle : syms.length ≤ left) :
    ∃ k', Feeds s r k left (codesOf s.code syms) k' (syms.map (toNative s.cfg)) ∧ appliedAt s.node r k' r nr := by
  induction syms generalizing k left with
  | nil => exact ⟨k, .nil, happ⟩
  | cons x syms ih =>
    obtain ⟨hx, hrestsyms⟩ := List.forall_mem_cons.1 hsyms
    obtain ⟨code, hcode⟩ := (h.exists_code_iff hd).2 hx
    obtain ⟨j, n, hpath, hj, hleaf, rfl⟩ := (h.mem_code_iff_leafAt hd).1 hcode
    have hne : code ≠ [] := List.length_pos_iff.1 (h.code_length_pos hd hlen hcode)
    rw [List.length_cons] at hle
    have hone := feeds_of_follow (left := left) happ hpath hj hleaf hne (by omega)
    have ⟨_, _, _, _, hr⟩ := happ
    obtain ⟨k', hrest, happ'⟩ := ih (k := j) (left := left - 1)
      ⟨n, hj, fun _ => rfl, fun hi => absurd hleaf hi, hr⟩ hrestsyms (by omega)
    refine ⟨k', ?_, happ'⟩
    rw [codesOf, List.flatMap_cons, h.codeGet_of_mem hcode]
    exact feeds_append.2 ⟨j, _, _, hone, hrest, rfl⟩

/-- The bits of a body that begins with codes: with a pixel for every code and no more the rest is not looked at, and
otherwise it reaches no leaf. -/
theorem Built.feeds_body {rest : Bits} (hsyms : ∀ x ∈ syms, ∃ e ∈ s.dist, e.symbol = x)
    (hle : syms.length ≤ left) (hno : syms.length < left → ∀ p ∈ s.code, ¬ p.2 <+: rest) :
    ∃ fed skipped k, codesOf s.code syms ++ rest = fed ++ skipped ∧
      Feeds s r r left fed k (syms.map (toNative s.cfg)) ∧ (skipped ≠ [] → syms.length = left) := by
  obtain ⟨nr, hr⟩ : ∃ nr, s.node[r]? = some nr := ⟨_, List.getElem?_eq_getElem h.root_lt⟩
  obtain ⟨k, hcodes, happ⟩ :=
    h.feeds_codes hd hlen (k := r) ⟨nr, hr, fun _ => rfl, fun _ => rfl, hr⟩ hsyms hle
  rcases hle.lt_or_eq with hlt | heq
  · obtain ⟨k', hrest⟩ := h.forest.feeds_of_no_leaf (left := left - syms.length) happ
      (h.root_not_leafRecord hlen hr) (by omega)
      fun path sym hleaf => hno hlt (sym, path) ((h.mem_code_iff_leafAt hd).2 hleaf)
    refine ⟨_, [], k', (List.append_nil _).symm, ?_, fun hs => absurd rfl hs⟩
    refine feeds_append.2 ⟨k, _, [], hcodes, ?_, (List.append_nil _).symm⟩
    rwa [List.length_map]
  · exact ⟨_, rest, k, rfl, hcodes, fun _ => heq⟩

end Codes

/-- Settles O49: the body's bits are the fed ones and skipped ones of `Built.feeds_body`, and DECEND compares the
number of codes with the number of pixels. -/
theorem decodeReadsCodesInOrder : Obligations.DecodeReadsCodesInOrder := by
  intro s w h body syms rest hI hp hlen hsyms hbits hle hno
  obtain ⟨r, c, tr, hb⟩ := hI.built (.inl hp)
  obtain ⟨nr, hr⟩ : ∃ nr, s.node[r]? = some nr := ⟨_, List.getElem?_eq_getElem hb.root_lt⟩
  obtain ⟨fed, skipped, k, hcut, hf, hskip⟩ := hb.feeds_body hI.distForm hlen hsyms hle hno
  obtain ⟨p, hpix, hrun⟩ := runMacro_decode_of_inner hb.root w h body hp hr (hb.root_not_leafRecord hlen hr)
  have hcount := pixelCount_toNat w h
  have hindex : (0 : U64).toNat + (syms.map (toNative s.cfg)).length = syms.length := by simp
  obtain ⟨ps, q, hps, hqix, hbody⟩ := runPrims_started hb.root w h body 0 (pixelCount w h) p (hbits.trans hcut)
    (hcount ▸ hf) (by rwa [List.length_map, hcount])
    (hindex.trans_lt ((hle.trans_eq hcount.symm).trans_lt (pixelCount w h).isLt))
  rw [hpix] at hqix
  rcases hle.lt_or_eq with hlt | heq
  · have hend := decend_afterFeed_of_fewer (s := s) (k := k) w h 0 p q (vs := syms.map (toNative s.cfg))
      (by rwa [List.length_map, hcount])
    rw [hindex] at hend
    exact ⟨_, ps, hrun.trans (hbody.trans hend), hqix, hps, fun heq => absurd heq hlt.ne, fun _ => ⟨rfl, rfl⟩⟩
  · have hend := decend_afterFeed_of_all (s := s) (k := k) w h 0 p q (vs := syms.map (toNative s.cfg))
      (by rwa [List.length_map, hcount])
    exact ⟨_, ps, hrun.trans (hbody.trans hend), hqix, hps, fun _ => ⟨rfl, rfl⟩, fun hlt => absurd heq hlt.ne⟩

end Sys2Proof.Machine

/-! ## The encoder (R150 to R156) -/

namespace Sys2Proof.Machine

open Sys2Proof.Machine.Claims

/-! ### Bytes and their bits (R13) -/

theorem bitsOf_getElem (b : Byte) {j : Nat} (hj : j < (bitsOf b).length) : (bitsOf b)[j] = b.getLsbD (7 - j) := by
  have h8 : j < 8 := hj
  interval_cases j <;> rfl

theorem bitsOf_byteOf {bits : Bits} (h : bits.length = 8) : bitsOf (byteOf bits) = bits := by
  refine List.ext_getElem h.symm fun j h1 h2 => ?_
  rw [bitsOf_getElem, byteOf_getLsbD h h1, List.getElem?_eq_getElem h2, Option.getD_some]

theorem bitsOf_injective : Function.Injective bitsOf := by
  intro a b h
  refine BitVec.eq_of_getLsbD_eq fun i hi => ?_
  have hbit (c : Byte) : c.getLsbD i = (bitsOf c)[7 - i]'(by rw [bitsOf_length]; omega) := by
    rw [bitsOf_getElem, Nat.sub_sub_self (by omega)]
  simp only [hbit, h]

theorem flatMap_bitsOf_length (bs : List Byte) : (bs.flatMap bitsOf).length = 8 * bs.length := by
  simp [List.length_flatMap, Nat.mul_comm]

/-- Bytes are determined by their bits. -/
theorem eq_of_flatMap_bitsOf_eq {bs cs : List Byte} (h : bs.flatMap bitsOf = cs.flatMap bitsOf) : bs = cs := by
  have hlen : bs.length = cs.length := by
    have := congrArg List.length h
    rw [flatMap_bitsOf_length, flatMap_bitsOf_length] at this
    omega
  induction bs generalizing cs with
  | nil => exact (List.length_eq_zero_iff.1 hlen.symm).symm
  | cons b bs ih =>
    obtain ⟨c, cs, rfl⟩ := List.exists_cons_of_length_eq_add_one hlen.symm
    obtain ⟨hb, hbs⟩ := List.append_inj h rfl
    rw [bitsOf_injective hb, ih hbs (Nat.succ.inj hlen)]

/-- The complete groups of eight bits, one after the other, are a beginning of the bitstring. -/
theorem flatMap_fullBytes (bits : Bits) : (fullBytes bits).flatMap bitsOf = bits.take (8 * (bits.length / 8)) := by
  have hgroups (n : Nat) (hn : 8 * n ≤ bits.length) :
      (List.range n).flatMap (fun i => bitsOf (byteOf ((bits.drop (8 * i)).take 8))) = bits.take (8 * n) := by
    induction n with
    | zero => rfl
    | succ n ih =>
      have hgroup : ((bits.drop (8 * n)).take 8).length = 8 := by
        rw [List.length_take, List.length_drop]
        omega
      rw [List.range_succ, List.flatMap_append, ih (by omega), List.flatMap_singleton, bitsOf_byteOf hgroup,
        ← List.take_add, Nat.mul_succ]
  rw [fullBytes, List.flatMap_map]
  exact hgroups _ (Nat.mul_div_le _ _)

theorem flatMap_fullBytes_append_restBits (bits : Bits) : (fullBytes bits).flatMap bitsOf ++ restBits bits = bits := by
  rw [flatMap_fullBytes, restBits, List.take_append_drop]

theorem flatMap_pack (bits : Bits) :
    (pack bits).flatMap bitsOf = bits ++ List.replicate ((8 - bits.length % 8) % 8) false := by
  rw [pack, flatMap_fullBytes, List.take_of_length_le]
  rw [List.length_append, List.length_replicate]
  omega

/-- Packing is the one way to fill up bytes with fewer than eight zero bits. -/
theorem eq_pack_of_flatMap_bitsOf {bs : List Byte} {bits : Bits} {n : Nat} (hn : n < 8)
    (h : bs.flatMap bitsOf = bits ++ List.replicate n false) : bs = pack bits := by
  have hlen := congrArg List.length h
  rw [flatMap_bitsOf_length, List.length_append, List.length_replicate] at hlen
  have hpad : n = (8 - bits.length % 8) % 8 := by omega
  exact eq_of_flatMap_bitsOf_eq (h.trans (hpad ▸ (flatMap_pack bits).symm))

variable {s t : State}

/-! ### ENCHDR (R150) -/

theorem execEnchdr_of_ready (hp : s.phase = .ready) (w h : U32) :
    execEnchdr w h s = answered (.bytes (headerBytes w h)) (emitting (headerBytes w h)
      { s with eW := w, eH := h, eRem := BitVec.ofNat 64 (w.toNat * h.toNat), eAcc := [], phase := .enc }) := by
  rw [execEnchdr, inPhase_of_eq hp, pixelCount_eq]
  rfl

/-- Settles O37: the phase test, and the bytes of the two words (`be32bytes_toNat`). -/
theorem enchdrEmitsHeader : Obligations.EnchdrEmitsHeader := by
  refine fun w h s => ⟨fun hp => inPhase_of_ne hp _, fun hp => ⟨headerBytes w h, ?_, execEnchdr_of_ready hp w h⟩⟩
  rw [headerBytes, List.map_append, be32bytes_toNat, be32bytes_toNat]
  rfl

/-! ### ENCPIX (R151) -/

section Encpix

variable {px : U32} (hp : s.phase = .enc)
include hp

theorem execEncpix_of_exhausted (h0 : s.eRem = 0) : execEncpix px s = refuse .countExhausted s := by
  rw [execEncpix, inPhase_of_eq hp, if_pos h0]

variable (h0 : s.eRem ≠ 0)
include h0

theorem execEncpix_of_none (hc : codeGet s.code (toStorage s.cfg px) = none) :
    execEncpix px s = raise .unknownSymbol ((toStorage s.cfg px).setWidth 64) s := by
  simp only [execEncpix, inPhase_of_eq hp, if_neg h0, hc]

theorem execEncpix_of_some {bits : Bits} (hc : codeGet s.code (toStorage s.cfg px) = some bits) :
    execEncpix px s = answerBytes (fullBytes (s.eAcc ++ bits))
      { s with eAcc := restBits (s.eAcc ++ bits), eRem := s.eRem - 1 } := by
  simp only [execEncpix, inPhase_of_eq hp, if_neg h0, hc]

end Encpix

theorem sub_one_eq_ofNat {v : U64} (h : v ≠ 0) : v - 1 = BitVec.ofNat 64 (v.toNat - 1) := by
  rw [← sub_one_toNat h, BitVec.ofNat_toNat, BitVec.setWidth_eq]

/-- Settles O38: the phase, the count and the table decide; the bytes and the bits that stay are together what was
appended (`flatMap_fullBytes_append_restBits`). -/
theorem encpixAppendsOneCode : Obligations.EncpixAppendsOneCode := by
  refine fun px s => ⟨fun hp => inPhase_of_ne hp _, execEncpix_of_exhausted, fun hp h0 hwf hmiss => ?_,
    fun bits hp h0 hwf hmem => ?_⟩
  · rw [BitVec.ofNat_toNat]
    exact execEncpix_of_none hp h0 (codeGet_eq_none hmiss)
  · have hexec := execEncpix_of_some hp h0 (codeGet_of_mem hwf hmem)
    rw [sub_one_eq_ofNat h0] at hexec
    refine ⟨_, _, flatMap_fullBytes_append_restBits _, ?_, hexec⟩
    rw [restBits_length]
    exact Nat.mod_lt _ (by decide)

/-! ### ENCEND (R152) -/

theorem answerBytes_nil (s : State) : answerBytes [] s = answered (.bytes []) s := by
  simp [answerBytes, answer, byteOut, respond]

theorem execEncend_of_complete (hp : s.phase = .enc) (h0 : s.eRem = 0) (hacc : s.eAcc.length ≤ 7) :
    execEncend s = answerBytes (if s.eAcc.length = 0 then [] else [byteOf (padToByte s.eAcc)])
      { s with eAcc := [], phase := .ready } := by
  rw [execEncend, inPhase_of_eq hp, if_neg (by simp [h0]), if_neg (by omega)]

theorem bitsOf_byteOf_padToByte {bits : Bits} (h : bits.length ≤ 7) :
    bitsOf (byteOf (padToByte bits)) = padToByte bits := by
  refine bitsOf_byteOf ?_
  rw [padToByte, List.length_append, List.length_replicate]
  omega

/-- Settles O39: the phase and the count decide, and the padded bits are those of the last byte
(`bitsOf_byteOf_padToByte`). -/
theorem encendPadsLastByte : Obligations.EncendPadsLastByte := by
  refine fun s => ⟨fun hp => inPhase_of_ne hp _, fun hp h0 => ?_, fun hp h0 hnil => ?_, fun hp h0 hne hacc => ?_⟩
  · refine (inPhase_of_eq hp _).trans (if_pos ?_)
    exact Nat.pos_of_ne_zero fun h => h0 (BitVec.eq_of_toNat_eq h)
  · have hexec := execEncend_of_complete hp h0 (by simp [hnil])
    rw [if_pos (by simp [hnil]), ← hnil] at hexec
    exact hexec.trans (answerBytes_nil _)
  · have hexec := execEncend_of_complete hp h0 hacc
    rw [if_neg (by simpa using hne)] at hexec
    exact ⟨_, bitsOf_byteOf_padToByte hacc, hexec⟩

/-! ### ENCODE (R153 to R155) -/

/-- `s` with a session opened for a file of width `w` and height `h`: `rem` pixels are expected, the bits `acc` wait,
and `p` is at the port. -/
def encodeSession (s : State) (w h : U32) (rem : U64) (acc : Bits) (p : Port) : State :=
  { s with eW := w, eH := h, eRem := rem, eAcc := acc, phase := .enc, port := p }

theorem codesOf_cons {code : List (Symbol × Bits)} {sym : Symbol} {bits : Bits} (hwf : codeWf code)
    (hmem : (sym, bits) ∈ code) (syms : List Symbol) : codesOf code (sym :: syms) = bits ++ codesOf code syms := by
  rw [codesOf, List.flatMap_cons, codeGet_of_mem hwf hmem, Option.getD_some]

/-- ENCPIX for as many pixels as are expected: the bytes and the bits that stay are, in order, the pending bits and the
codes. -/
theorem runPrims_encpix (is : List Instr) {ps : List U32} (w h : U32) {rem : U64} {acc : Bits} (p : Port)
    (hwf : codeWf s.code) (hcodes : ∀ px ∈ ps, ∃ bits, (toStorage s.cfg px, bits) ∈ s.code)
    (hrem : rem.toNat = ps.length) (hacc : acc.length < 8) :
    ∃ bs acc' p', bs.flatMap bitsOf ++ acc' = acc ++ codesOf s.code (ps.map (toStorage s.cfg)) ∧ acc'.length < 8 ∧
      p'.bytesOut = p.bytesOut ++ bs ∧
      runPrims (ps.map .encpix ++ is) (encodeSession s w h rem acc p) =
        runPrims is (encodeSession s w h 0 acc' p') := by
  induction ps generalizing rem acc p with
  | nil =>
    obtain rfl : rem = 0 := BitVec.eq_of_toNat_eq hrem
    exact ⟨[], acc, p, (List.append_nil _).symm, hacc, (List.append_nil _).symm, rfl⟩
  | cons px ps ih =>
    obtain ⟨⟨bits, hmem⟩, hrest⟩ := List.forall_mem_cons.1 hcodes
    rw [List.length_cons] at hrem
    obtain ⟨-, -, -, hhit⟩ := encpixAppendsOneCode px (encodeSession s w h rem acc p)
    obtain ⟨bs1, acc1, hbits1, hacc1, hexec⟩ := hhit bits rfl (rem_ne_zero (v := rem) (by omega)) hwf hmem
    have hrem1 : (BitVec.ofNat 64 (rem.toNat - 1)).toNat = ps.length := by
      rw [BitVec.toNat_ofNat, Nat.mod_eq_of_lt (by omega), hrem, Nat.add_sub_cancel]
    obtain ⟨bs2, acc2, p2, hbits2, hacc2, hbytes, hrun⟩ := ih
      { p with resp := some (.ok (.bytes bs1)), bytesOut := p.bytesOut ++ bs1 } hrest hrem1 hacc1
    refine ⟨bs1 ++ bs2, acc2, p2, ?_, hacc2, hbytes.trans (List.append_assoc ..), ?_⟩
    · calc (bs1 ++ bs2).flatMap bitsOf ++ acc2
          = (bs1.flatMap bitsOf ++ acc1) ++ codesOf s.code (ps.map (toStorage s.cfg)) := by
            rw [List.flatMap_append, List.append_assoc, hbits2, List.append_assoc]
        _ = acc ++ codesOf s.code ((px :: ps).map (toStorage s.cfg)) := by
            rw [hbits1, List.map_cons, codesOf_cons hwf hmem, ← List.append_assoc]
            rfl
    · rw [List.map_cons, List.cons_append, runPrims_cons_eq_andThen, andThen_of_ok _ hexec rfl]
      exact hrun

/-- ENCEND emits the pending bits with fewer than eight zero bits after them. -/
theorem encend_bytes_of_complete (hp : s.phase = .enc) (h0 : s.eRem = 0) (hacc : s.eAcc.length < 8) :
    ∃ bs n, n < 8 ∧ bs.flatMap bitsOf = s.eAcc ++ List.replicate n false ∧
      exec .encend s = answered (.bytes bs) (emitting bs { s with eAcc := [], phase := .ready }) := by
  have hexec := execEncend_of_complete hp h0 (Nat.le_of_lt_succ hacc)
  by_cases hlen : s.eAcc.length = 0
  · rw [if_pos hlen] at hexec
    exact ⟨[], 0, by decide, by simpa [eq_comm] using hlen, hexec⟩
  · rw [if_neg hlen] at hexec
    refine ⟨_, 8 - s.eAcc.length, by omega, ?_, hexec⟩
    rw [List.flatMap_singleton, bitsOf_byteOf_padToByte (Nat.le_of_lt_succ hacc), padToByte]

theorem Built.code_wf {r c : Nat} {tr : Tree} (h : Built s r c tr) : codeWf s.code :=
  h.code ▸ codeSetAll_wf List.Pairwise.nil _

/-- ENCODE writes the encoder's registers and the port alone. -/
theorem runMacro_encode (hI : Inv s) (hp : s.phase = .ready) {w h : U32} {ps : List U32}
    (hlen : ps.length = w.toNat * h.toNat) (hsyms : ∀ p ∈ ps, ∃ e ∈ s.dist, e.symbol = toStorage s.cfg p) :
    ∃ out p, p.resp = some (.ok out) ∧
      p.bytesOut = s.port.bytesOut ++ (headerBytes w h ++ pack (codesOf s.code (ps.map (toStorage s.cfg)))) ∧
      runMacro (.encode w h ps) s =
        .next { s with eW := w, eH := h, eRem := 0, eAcc := [], phase := .ready, port := p } := by
  obtain ⟨r, c, tr, hb⟩ := hI.built (.inl hp)
  have hheader : exec (.enchdr w h) (respond (.ok .nothing) s) = _ := execEnchdr_of_ready hp w h
  have hrem : (BitVec.ofNat 64 (w.toNat * h.toNat)).toNat = ps.length := by
    rw [← pixelCount_eq, pixelCount_toNat, hlen]
  obtain ⟨bs1, acc, p1, hbits1, hacc, hbytes1, hrun⟩ := runPrims_encpix [.encend] w h (acc := [])
    { s.port with resp := some (.ok (.bytes (headerBytes w h))), bytesOut := s.port.bytesOut ++ headerBytes w h }
    hb.code_wf (fun px hmem => (hb.exists_code_iff hI.distForm).2 (hsyms px hmem)) hrem (by decide)
  obtain ⟨bs2, n, hn, hbits2, hend⟩ := encend_bytes_of_complete (s := encodeSession s w h 0 acc p1) rfl rfl hacc
  have hbody : (bs1 ++ bs2).flatMap bitsOf =
      codesOf s.code (ps.map (toStorage s.cfg)) ++ List.replicate n false := by
    rw [List.flatMap_append, hbits2]
    exact (List.append_assoc ..).symm.trans (congrArg (· ++ List.replicate n false) hbits1)
  rw [← eq_pack_of_flatMap_bitsOf hn hbody]
  refine ⟨.bytes bs2, { p1 with resp := some (.ok (.bytes bs2)), bytesOut := p1.bytesOut ++ bs2 }, rfl, ?_, ?_⟩
  · simp [hbytes1]
  · calc runMacro (.encode w h ps) s
        = andThen (exec (.enchdr w h) (respond (.ok .nothing) s))
            (runPrims (ps.map Instr.encpix ++ [Instr.encend])) := runPrims_cons_eq_andThen ..
      _ = runPrims [.encend] (encodeSession s w h 0 acc p1) := (andThen_of_ok _ hheader rfl).trans hrun
      _ = _ := (runPrims_singleton _ _).trans hend

/-- Settles O52: the file is the header and the packed codes (`runMacro_encode`). -/
theorem encodeEmitsPackedCodes : Obligations.EncodeEmitsPackedCodes := by
  intro s w h ps hI hp hlen hsyms
  obtain ⟨out, p, hresp, hbytes, hrun⟩ := runMacro_encode hI hp hlen hsyms
  refine ⟨_, _, hrun, rfl, ⟨out, hresp⟩, hbytes, rfl, ?_⟩
  rw [List.length_append, headerBytes_length, pack_length]

/-! ### The round trip (R156) -/

/-- A sequence of primitives keeps the invariant, wherever it stops. -/
theorem runPrims_inv {is : List Instr} (hI : Inv s) (h : runPrims is s = .next t) : Inv t := by
  induction is generalizing s with
  | nil =>
    cases h
    exact hI
  | cons i is ih =>
    cases hexec : exec i s with
    | next u =>
      have hu := exec_inv hI hexec
      rw [runPrims_cons is hexec] at h
      split at h
      · exact ih hu h
      · cases h
        exact hu
    | fault f => simp [runPrims, hexec] at h
    | refused q => simp [runPrims, hexec] at h

/-- Settles O53: ENCODE leaves the tree and its codes as they are; with one symbol the header alone brings every pixel
back, with more the codes are read in order, and the padding is not looked at. -/
theorem decodeOfEncodeIsTheImage : Obligations.DecodeOfEncodeIsTheImage := by
  intro s w h ps hI hp hlen hsyms
  obtain ⟨out, p, -, hbytes, hrun⟩ := runMacro_encode hI hp hlen hsyms
  have hIt := runPrims_inv (hI.withPort _) hrun
  obtain ⟨r, c, tr, hb⟩ := hI.built (.inl hp)
  match hdist : s.dist with
  | [] => exact absurd hdist hb.forest.scanned
  | [e] =>
    obtain ⟨u, qs, hdec, hresp, hpix, hwrites⟩ := decodeOneColourIgnoresBody _ w h
      (pack (codesOf s.code (ps.map (toStorage s.cfg)))) e hIt rfl hdist
    have hps : ps = List.replicate (w.toNat * h.toNat) (toNative s.cfg e.symbol) := by
      refine List.eq_replicate_iff.2 ⟨hlen, fun p hmem => ?_⟩
      obtain ⟨e', he', hsym⟩ := hsyms p hmem
      obtain rfl : e' = e := by simpa [hdist] using he'
      rw [hsym, toNative_toStorage]
    exact ⟨_, u, _, qs, hrun, hbytes, hdec, hresp, hpix, hwrites.trans (hps ▸ rfl)⟩
  | _ :: _ :: _ =>
    have hstored : (ps.map (toStorage s.cfg)).length = w.toNat * h.toNat := (List.length_map _).trans hlen
    have hnative : (ps.map (toStorage s.cfg)).map (toNative s.cfg) = ps := by
      simp [Function.comp_def]
    obtain ⟨u, qs, hdec, hpix, hwrites, hall, -⟩ := decodeReadsCodesInOrder _ w h _ (ps.map (toStorage s.cfg)) _ hIt
      rfl (by simp [hdist]) (List.forall_mem_map.2 hsyms) (flatMap_pack _) hstored.le
      fun hlt => absurd hstored hlt.ne
    obtain ⟨hresp, -⟩ := hall hstored
    exact ⟨_, u, _, qs, hrun, hbytes, hdec, hresp, hpix, hwrites.trans (congrArg (rowMajor w) hnative)⟩

end Sys2Proof.Machine

/-! ## RESET and STATUS (R160, R161) -/

namespace Sys2Proof.Machine

open Sys2Proof.Machine.Claims

/-- Settles O18: RESET answers from the state of hardware reset, which has no precondition and keeps the port. -/
theorem resetReachesResetState : Obligations.ResetReachesResetState := fun _ => rfl

/-- STATUS has no precondition: it answers the view of the registers and leaves them. -/
theorem exec_status (s : State) : exec .status s = answered (.status (statusView s)) s := rfl

/-- Settles O19: the view holds the registers themselves but for ERR, which it gives by its code, cause by cause. -/
theorem statusReadsRegisters : Obligations.StatusReadsRegisters := by
  intro s
  rw [exec_status, statusView]
  cases s.err with
  | none => rfl
  | some c => cases c <;> rfl

end Sys2Proof.Machine

/-! ## Errors and FAULT (R141, R170 to R179) -/

namespace Sys2Proof.Machine

open Sys2Proof.Machine.Claims

variable {s t : State} {i : Instr} {c : Cause} {info : U64}

/-! ### FAULT (R21, R178) -/

theorem hasStep_fault_of_ne (hr : i ≠ .reset) (hs : i ≠ .status) : hasStep .fault i = false := by
  cases i with
  | reset => exact absurd rfl hr
  | status => exact absurd rfl hs
  | _ => rfl

/-- Settles O8: no operation but RESET and STATUS has a step in FAULT, and STATUS only answers. -/
theorem faultEndsOnlyWithReset : Obligations.FaultEndsOnlyWithReset := by
  intro i s hp hi
  by_cases hs : i = .status
  · exact ⟨_, hs ▸ exec_status s, fun h => absurd hs h⟩
  · exact ⟨_, exec_of_hasStep_false (hp ▸ hasStep_fault_of_ne hi hs), fun _ => rfl⟩

/-! ### The record of an error (R172) -/

theorem latched_of_resp_error (h : exec i s = .next t) (hr : t.port.resp = some (.error c info)) :
    t.phase = .fault ∧ t.err = some c ∧ t.einfo = info := by
  cases exec_ends h with
  | refused h' => subst h'; cases hr
  | failed h' hf => subst h'; cases hr; exact ⟨rfl, rfl, rfl⟩
  | ok h' hf hp he => subst h'; cases hr

/-! ### Who raises which error (R170, R171) -/

/-- The operations that can raise an error (R170). -/
def canRaise : Instr → Bool
  | .prio | .step _ | .decbyte _ | .decend | .encpix _ => true
  | _ => false

theorem resp_ne_error_of_not_canRaise (h : exec i s = .next t) (hi : canRaise i = false) :
    t.port.resp ≠ some (.error c info) := by
  cases i with
  | prio | step _ | decbyte _ | decend | encpix _ => cases hi
  | reset => rw [execReset_cases h]; simp
  | status => rw [execStatus_cases h]; simp
  | scan px =>
    obtain ⟨-, rfl⟩ | ⟨-, ⟨-, rfl⟩ | ⟨-, -, -, rfl⟩ | ⟨-, d, -, rfl⟩⟩ := execScan_cases h
    all_goals simp
  | merge =>
    obtain ⟨-, rfl⟩ | ⟨-, ⟨-, rfl⟩ | ⟨a, b, rest, na, nb, -, -, -, -, rfl⟩⟩ := execMerge_cases h
    all_goals simp
  | mkroot =>
    obtain ⟨-, rfl⟩ | ⟨-, ⟨-, rfl⟩ | ⟨k, n, -, -, rfl⟩⟩ := execMkroot_cases h
    all_goals simp
  | gencode =>
    obtain ⟨-, rfl⟩ | ⟨-, r, tr, -, -, -, rfl⟩ := execGencode_cases h
    all_goals simp
  | lookup sym =>
    obtain ⟨-, rfl⟩ | ⟨-, ⟨bits, -, rfl⟩ | ⟨-, rfl⟩⟩ := execLookup_cases h
    all_goals simp
  | currst =>
    obtain ⟨-, rfl⟩ | ⟨-, rfl⟩ := execCurrst_cases h
    all_goals simp
  | decbegin =>
    obtain ⟨-, rfl⟩ | ⟨-, rfl⟩ := execDecbegin_cases h
    all_goals simp
  | enchdr w h' =>
    obtain ⟨-, rfl⟩ | ⟨-, rfl⟩ := execEnchdr_cases h
    all_goals simp
  | encend =>
    obtain ⟨-, rfl⟩ | ⟨-, ⟨-, rfl⟩ | ⟨-, -, rfl⟩⟩ := execEncend_cases h
    all_goals simp

theorem execPrio_of_error (h : execPrio s = .next t) (hr : t.port.resp = some (.error c info)) :
    c = .emptyInput ∧ s.dist = [] ∧ info = 0 := by
  obtain ⟨-, rfl⟩ | ⟨-, ⟨hd, rfl⟩ | ⟨-, nodes, pq, -, -, rfl⟩⟩ := execPrio_cases h <;> cases hr
  exact ⟨rfl, hd, rfl⟩

theorem execDecend_of_error (h : execDecend s = .next t) (hr : t.port.resp = some (.error c info)) :
    (c = .truncatedHeader ∧ s.dHb.toNat < 8 ∧ info = s.dHb.setWidth 64) ∨
    (c = .dimensionMismatch ∧ 8 ≤ s.dHb.toNat ∧ 0 < s.dRem.toNat ∧ info = s.dIdx) := by
  obtain ⟨-, rfl⟩ | ⟨-, ⟨h8, rfl⟩ | ⟨h8, hrem, rfl⟩ | ⟨-, -, rfl⟩⟩ := execDecend_cases h <;> cases hr
  · exact .inl ⟨rfl, h8, rfl⟩
  · exact .inr ⟨rfl, h8, hrem, rfl⟩

theorem execEncpix_of_error {px : U32} (h : execEncpix px s = .next t) (hr : t.port.resp = some (.error c info)) :
    c = .unknownSymbol ∧ codeGet s.code (toStorage s.cfg px) = none ∧ info = (toStorage s.cfg px).setWidth 64 := by
  obtain ⟨-, rfl⟩ | ⟨-, ⟨-, rfl⟩ | ⟨-, hmiss, rfl⟩ | ⟨-, bits, -, rfl⟩⟩ := execEncpix_cases h <;> cases hr
  exact ⟨rfl, hmiss, rfl⟩

theorem execStep_of_error {bit : Bit} (h : execStep bit s = .next t) (hr : t.port.resp = some (.error c info)) :
    c = .corruptStream ∧ t.cur = s.root ∧
      ∃ r k c1, stuckAt s.node r k bit c1 ∧ info = BitVec.ofNat 64 c1 := by
  obtain ⟨-, rfl⟩ | ⟨-, k, r, -, -, ⟨k', n, -, -, rfl⟩ | ⟨c1, ha, rfl⟩⟩ := execStep_cases h <;> cases hr
  exact ⟨rfl, rfl, r, k, c1, advance_missing.1 ha, rfl⟩

/-- A header byte raises no error (R141). -/
theorem headerByte_resp_ne_error {r : Nat} {b : Byte} (h : headerByte r b s = .next t) :
    t.port.resp ≠ some (.error c info) := by
  obtain ⟨-, rfl⟩ | ⟨-, b0, b1, b2, b3, b4, b5, b6, b7, -, h⟩ := headerByte_cases h
  · simp
  · obtain ⟨n, -, ⟨-, rfl⟩ | ⟨-, rfl⟩⟩ := startPixels_cases h
    all_goals simp

/-- A body byte fails where its walk meets a missing child, after the bits it has fed (`feeds_of_walkBits`). -/
theorem execDecbyte_of_error {b : Byte} (h : execDecbyte b s = .next t) (hr : t.port.resp = some (.error c info)) :
    c = .corruptStream ∧ t.cur = s.root ∧ ∃ vs c1, failsInByte s b vs c1 ∧ info = BitVec.ofNat 64 c1 := by
  obtain ⟨-, rfl⟩ | ⟨hp, r, hroot, ⟨-, h⟩ | ⟨h8, h⟩⟩ := execDecbyte_cases h
  · cases hr
  · exact absurd hr (headerByte_resp_ne_error h)
  · obtain ⟨-, rfl⟩ | ⟨-, k0, hcur, ⟨w, -, rfl⟩ | ⟨w, c1, hw, rfl⟩⟩ := bodyByte_cases h <;> cases hr
    obtain ⟨fed, bit, skipped, vs, k, hbits, hf, hlt, hstuck⟩ := feeds_of_walkBits.2 w c1 hw
    exact ⟨rfl, rfl, vs, c1,
      ⟨hp, not_lt.1 h8, r, k0, k, fed, skipped, bit, hroot, hcur, hbits, hf, hlt, hstuck⟩, rfl⟩

theorem exists_absentChild_of_stuckAt {nodes : List NodeRec} {r k c1 : Nat} {bit : Bit}
    (h : stuckAt nodes r k bit c1) : ∃ n, nodes[c1]? = some n ∧ childOf bit n = none := by
  obtain ⟨n1, ⟨-, -, -, -, hn1⟩, hchild⟩ := h
  exact ⟨n1, hn1, hchild⟩

/-- Settles O7: an error is latched (`latched_of_resp_error`), and each of the five operations that can raise one does
so under the conditions of its `_of_error` lemma only. -/
theorem errorsLatchTheirCause : Obligations.ErrorsLatchTheirCause := by
  intro i s t c info h hr
  obtain ⟨hphase, herr, hinfo⟩ := latched_of_resp_error h hr
  refine ⟨hphase, herr, hinfo, ?_⟩
  cases i with
  | prio =>
    obtain ⟨rfl, hd, rfl⟩ := execPrio_of_error h hr
    exact ⟨rfl, hd, rfl⟩
  | decend =>
    obtain ⟨rfl, h8, rfl⟩ | ⟨rfl, hrest⟩ := execDecend_of_error h hr
    · exact ⟨rfl, h8, BitVec.toNat_setWidth_of_le (by decide)⟩
    · exact ⟨rfl, hrest⟩
  | encpix px =>
    obtain ⟨rfl, hmiss, rfl⟩ := execEncpix_of_error h hr
    exact ⟨px, rfl, hmiss, BitVec.toNat_setWidth_of_le (by decide)⟩
  | step bit =>
    obtain ⟨rfl, hcur, r, k, c1, hstuck, rfl⟩ := execStep_of_error h hr
    obtain ⟨n, hn, hchild⟩ := exists_absentChild_of_stuckAt hstuck
    exact ⟨hcur, c1, n, bit, .inl rfl, hn, hchild, rfl⟩
  | decbyte b =>
    obtain ⟨rfl, hcur, vs, c1, hfails, rfl⟩ := execDecbyte_of_error h hr
    obtain ⟨-, -, r, k0, k, fed, skipped, bit, -, -, hbits, -, -, hstuck⟩ := hfails
    obtain ⟨n, hn, hchild⟩ := exists_absentChild_of_stuckAt hstuck
    exact ⟨hcur, c1, n, bit, .inr ⟨b, rfl, by simp [hbits]⟩, hn, hchild, rfl⟩
  | _ => exact absurd hr (resp_ne_error_of_not_canRaise h rfl)

/-! ### A byte that fails (R141, R175) -/

/-- The failing bit stands in the byte, so fewer than eight bits are fed before it. -/
theorem length_lt_of_failsInByte {b : Byte} {vs : List U32} {c1 : Nat} (h : failsInByte s b vs c1) : vs.length < 8 := by
  obtain ⟨-, -, r, k0, k, fed, skipped, bit, -, -, hbits, hf, -, -⟩ := h
  have hlen := congrArg List.length hbits
  rw [bitsOf_length, List.length_append, List.length_cons] at hlen
  have := (feeds_length hf).1
  omega

/-- With a pixel left, a bit that selects an absent child ends the walk where it stands. -/
theorem walkBits_of_stuckAt {r c1 : Nat} {bit : Bit} {w : Walk} (skipped : Bits) (h0 : w.rem ≠ 0)
    (h : stuckAt s.node r w.cur bit c1) : walkBits s r (bit :: skipped) w = .missing w c1 := by
  simp only [walkBits, if_neg h0, walkBit, advance_missing.2 h]

/-- The walk writes the pixels of the bits before the failing one, and the error is taken after them. -/
theorem execDecbyte_of_failsInByte {b : Byte} {vs : List U32} {c1 : Nat} (h : failsInByte s b vs c1)
    (hidx : s.dIdx.toNat + vs.length < 2 ^ 64) :
    ∃ ps : List PixelRun, pixelWrites ps = placedFrom s.dIdx.toNat s.dW.toNat vs ∧
      execDecbyte b s = failed .corruptStream (BitVec.ofNat 64 c1) (drawing ps
        { s with cur := s.root, dIdx := BitVec.ofNat 64 (s.dIdx.toNat + vs.length),
                 dRem := BitVec.ofNat 64 (s.dRem.toNat - vs.length) }) := by
  obtain ⟨hp, h8, r, k0, k, fed, skipped, bit, hroot, hcur, hbits, hf, hlt, hstuck⟩ := h
  obtain ⟨ps, hps, hwalk⟩ := walkBits_of_feeds hf ⟨k0, s.dIdx, s.dRem, []⟩ (bit :: skipped) rfl rfl hidx
  have hleft : 0 < (BitVec.ofNat 64 (s.dRem.toNat - vs.length)).toNat := by
    rw [BitVec.toNat_ofNat, Nat.mod_eq_of_lt (by omega)]
    omega
  rw [walkBits_of_stuckAt skipped (rem_ne_zero hleft) hstuck, ← hbits] at hwalk
  refine ⟨ps, hps, ?_⟩
  rw [execDecbyte_of_body hp hroot h8, bodyByte, if_neg (rem_ne_zero (by omega))]
  simp only [hcur, hwalk, List.nil_append]
  rfl

/-- Settles O35: a DECBYTE fails only so (`execDecbyte_of_error`), and so it does (`execDecbyte_of_failsInByte`). -/
theorem corruptByteKeepsEarlierPixels : Obligations.CorruptByteKeepsEarlierPixels := by
  refine fun b s => ⟨fun t c info h hr => ?_, fun vs c1 hfails hidx => ?_⟩
  · obtain ⟨hc, -, hfails⟩ := execDecbyte_of_error h hr
    exact ⟨hc, hfails⟩
  · exact ⟨length_lt_of_failsInByte hfails, execDecbyte_of_failsInByte hfails hidx⟩

end Sys2Proof.Machine

/-! ## Runs of the block (R190, R200, R201) -/

namespace Sys2Proof.Machine

variable {s : State}

/-- Settles O5: nothing is fetched. -/
theorem stepWaitsWithoutCommand : Obligations.StepWaitsWithoutCommand := by
  intro s h
  rw [step, fetch, h]

/-- The block waits, refuses an illegal word, or performs an operation, and each answers (O42). -/
theorem Inv.step_answers (hI : Inv s) : Answers (step s) := by
  cases hcmds : s.port.cmds with
  | nil => exact ⟨s, stepWaitsWithoutCommand s hcmds⟩
  | cons w rest =>
    cases hd : decode w with
    | none => exact step_of_decode_none hcmds hd ▸ answers_refuse _ _
    | some i => exact step_of_decode hcmds hd ▸ operationsAlwaysAnswer i _ (hI.withPort _)

theorem Reachable.inv (h : Reachable s) : Inv s := by
  induction h with
  | reset c hc => exact inv_resetState hc Port.empty
  | issue w h ih => exact ih.withPort _
  | hardwareReset h ih => exact inv_resetState ih.config _
  | step h hs ih => exact stepKeepsInvariant _ _ ih hs

/-- Settles O43: the invariant holds along every run, and a state of the invariant steps. -/
theorem reachableStatesRunOn : Obligations.ReachableStatesRunOn :=
  fun _ h => ⟨h.inv, h.inv.step_answers⟩

end Sys2Proof.Machine
